-- ==== Sys2Proof/Word.lean ====
section
/-! DEFINITION. The bit-vector types of FBCORE. Everything the spec counts with (coordinates, addresses, lengths,
indices) is a natural number in exact arithmetic (R13) and is a `Nat` in the model; the types below stand for what
the spec itself treats as bits: a pixel or command byte, a descriptor word, a 16-bit register. -/

namespace Sys2Proof

/-- A byte: one pixel chunk, one command byte, one host-memory byte (R13, R21, R63). -/
abbrev Byte := BitVec 8

/-- A 32-bit word: one word of a descriptor (R90) or one value of the readback port (R30). -/
abbrev Word := BitVec 32

/-- A 16-bit register: `CURSOR`, `DSTART`, `DEND` (R23, R24). -/
abbrev Reg16 := BitVec 16

end Sys2Proof
end

