-- ==== Sys2Proof/Syntax.lean ====
section
/-! DEFINITION. The ten commands of FBCORE (R94), one constructor per row of `spec/opcode_table.json`, and the
descriptor that carries one (R90). Numeric operands are natural numbers (R13, R93); that an operand fits its field is
checked in `WellFormed`. A pixel value is a byte. -/

namespace Sys2Proof

/-- R90: the four 32-bit words of one command, delivered together on the command port. -/
structure Descriptor where
  w0 : Word
  w1 : Word
  w2 : Word
  w3 : Word
deriving DecidableEq, Repr

/-- R91, R200: the destination of DECODE: `DST` = 0 is the pixel memory `FB`, `DST` = 1 the external canvas at host
address `DADDR`. With `DST` = 0 the word W3 is ignored (R94), so it is no operand. -/
inductive Dest where
  | fb
  | mem (daddr : Nat)
deriving DecidableEq, Repr

/-- R94: the ten commands, in the table's order. -/
inductive Instr where
  | clear
  | gotochunk (x y : Nat)
  | wrbyte (value : Byte)
  | blitfull (addr : Nat)
  | wrchar (code : Nat)
  | wrstr (addr len : Nat)
  | gotochar (x y : Nat)
  | flush
  | init (contrast : Nat)
  | decode (ox oy : Nat) (dst : Dest) (addr len : Nat)
deriving DecidableEq, Repr

end Sys2Proof
end

