-- ==== Sys2Proof/WellFormed.lean ====
section
/-! DEFINITION. When a command's operands fit the fields that carry them (R91, R92, R93). R99: the assembler refuses an
operand that does not fit its field (`GOTOCHUNK 300, 0`); one that fits but is out of the command's range
(`GOTOCHUNK 84, 0`) is well formed, and the command reports it. -/

namespace Sys2Proof

/-- The operand fits an 8-bit field of W0 (`A`, `B`). -/
def fitsByte (n : Nat) : Bool := decide (n < 256)

/-- The operand fits a 32-bit word (W1, W2, W3). -/
def fitsWord (n : Nat) : Bool := decide (n < 4294967296)

/-- `DADDR` fits W3. -/
def Dest.wellFormed : Dest → Bool
  | .fb => true
  | .mem daddr => fitsWord daddr

/-- Every operand of the command fits its field. -/
def Instr.wellFormed : Instr → Bool
  | .clear => true
  | .gotochunk x y => fitsByte x && fitsByte y
  | .wrbyte _ => true
  | .blitfull addr => fitsWord addr
  | .wrchar code => fitsByte code
  | .wrstr addr len => fitsWord addr && fitsWord len
  | .gotochar x y => fitsByte x && fitsByte y
  | .flush => true
  | .init contrast => fitsByte contrast
  | .decode ox oy dst addr len =>
    fitsByte ox && fitsByte oy && dst.wellFormed && fitsWord addr && fitsWord len

end Sys2Proof
end

