-- ==== Sys2Proof/Decode.lean ====
section
/-! DEFINITION. Decoding a descriptor (R90 to R98), total on every descriptor and on every list of bytes, rejecting by
name; and, after it, the encoder (R94, R99), written from the same table. -/

namespace Sys2Proof

/-- R14 `v[hi:lo]`: the field of bits `hi` down to `lo` of `v`, read as an unsigned number. -/
def field (v : Word) (hi lo : Nat) : Nat := v.toNat / 2 ^ lo % 2 ^ (hi + 1 - lo)

/-- R91 `OPC` = W0[7:0]. -/
def Descriptor.opc (d : Descriptor) : Nat := field d.w0 7 0

/-- R91 `A` = W0[15:8]. -/
def Descriptor.fieldA (d : Descriptor) : Nat := field d.w0 15 8

/-- R91 `B` = W0[23:16]. -/
def Descriptor.fieldB (d : Descriptor) : Nat := field d.w0 23 16

/-- R91 `DST` = W0[24]. -/
def Descriptor.fieldDst (d : Descriptor) : Nat := field d.w0 24 24

/-- R91 `RSV` = W0[31:25]. -/
def Descriptor.fieldRsv (d : Descriptor) : Nat := field d.w0 31 25

/-- Why a descriptor is illegal (R95, R96). The hardware reports all of them as `ILLEGAL_COMMAND`. -/
inductive Reject where
  /-- `OPC` is 0x00 or 0x0B..0xFF. -/
  | opcode
  /-- `RSV` is not 0. -/
  | reserved
  /-- `A` must be 0 for this command and is not. -/
  | operandA
  /-- `B` must be 0 for this command and is not. -/
  | operandB
  /-- `DST` must be 0 for this command and is not. -/
  | destination
  /-- A byte string that is not the 16 bytes of one descriptor (R65, R90). -/
  | length
deriving DecidableEq, Repr

/-- R95 for a command whose `B` and `DST` are operands: nothing but `RSV` must be 0. -/
def requireDst (d : Descriptor) (i : Instr) : Except Reject Instr :=
  if d.fieldDst ≠ 0 then .error .destination else .ok i

/-- R95 for a command with the one operand `A`: `B` and `DST` must be 0. -/
def requireBDst (d : Descriptor) (i : Instr) : Except Reject Instr :=
  if d.fieldB ≠ 0 then .error .operandB else requireDst d i

/-- R95 for a command with no operand in W0: `A`, `B` and `DST` must be 0. -/
def requireABDst (d : Descriptor) (i : Instr) : Except Reject Instr :=
  if d.fieldA ≠ 0 then .error .operandA else requireBDst d i

/-- R91 to R93: the destination operand of DECODE. -/
def Descriptor.dest (d : Descriptor) : Dest :=
  if d.fieldDst = 1 then .mem d.w3.toNat else .fb

/-- R94 to R97: the command a descriptor stands for, or why it is illegal. The check is made on W0 alone. -/
def decode (d : Descriptor) : Except Reject Instr :=
  if d.fieldRsv ≠ 0 then .error .reserved
  else
    match d.opc with
    | 1 => requireABDst d .clear
    | 2 => requireDst d (.gotochunk d.fieldA d.fieldB)
    | 3 => requireBDst d (.wrbyte (BitVec.ofNat 8 d.fieldA))
    | 4 => requireABDst d (.blitfull d.w1.toNat)
    | 5 => requireBDst d (.wrchar d.fieldA)
    | 6 => requireABDst d (.wrstr d.w1.toNat d.w2.toNat)
    | 7 => requireDst d (.gotochar d.fieldA d.fieldB)
    | 8 => requireABDst d .flush
    | 9 => requireBDst d (.init d.fieldA)
    | 10 => .ok (.decode d.fieldA d.fieldB d.dest d.w1.toNat d.w2.toNat)
    | _ => .error .opcode

/-- R65 (3): a 32-bit word carried as bytes, least significant byte first. -/
def wordOfBytes (bs : List Byte) : Word :=
  BitVec.ofNat 32 (bs.foldr (fun b acc => b.toNat + 256 * acc) 0)

/-- R65 (3): the four bytes of a word, least significant first. -/
def bytesOfWord (w : Word) : List Byte :=
  [BitVec.ofNat 8 w.toNat, BitVec.ofNat 8 (w.toNat / 256), BitVec.ofNat 8 (w.toNat / 65536),
    BitVec.ofNat 8 (w.toNat / 16777216)]

/-- The 16 bytes of a descriptor on a platform that carries it as bytes: W0 first, each word little-endian. That W0
comes first is the model's choice (log entry 16); R65 gives the order of the bytes inside a word. -/
def Descriptor.toBytes (d : Descriptor) : List Byte :=
  bytesOfWord d.w0 ++ bytesOfWord d.w1 ++ bytesOfWord d.w2 ++ bytesOfWord d.w3

/-- The descriptor that 16 bytes carry (R65, R90). -/
def Descriptor.ofBytes (bs : List Byte) : Descriptor where
  w0 := wordOfBytes (bs.take 4)
  w1 := wordOfBytes ((bs.drop 4).take 4)
  w2 := wordOfBytes ((bs.drop 8).take 4)
  w3 := wordOfBytes ((bs.drop 12).take 4)

/-- Decoding of any byte string: R90 knows one length, 16 bytes. -/
def decodeBytes (bs : List Byte) : Except Reject Instr :=
  if bs.length = 16 then decode (Descriptor.ofBytes bs) else .error .length

/-- The descriptor whose bits are `w`, numbered as the opcode table numbers them: W0 is bits 31..0, W1 bits 63..32,
and so on; every bit above `nbits` is 0. -/
def Descriptor.ofTableWord (nbits w : Nat) : Descriptor where
  w0 := BitVec.ofNat 32 (w % 2 ^ nbits)
  w1 := BitVec.ofNat 32 (w % 2 ^ nbits / 2 ^ 32)
  w2 := BitVec.ofNat 32 (w % 2 ^ nbits / 2 ^ 64)
  w3 := BitVec.ofNat 32 (w % 2 ^ nbits / 2 ^ 96)

/-- The command the decoder reads from a table word: the words laid out as the 16 bytes that carry them. -/
def decodeTableWord (nbits w : Nat) : Option Instr :=
  match decodeBytes (Descriptor.ofTableWord nbits w).toBytes with
  | .ok i => some i
  | .error _ => none

/-! The opcode table as data, for R98. -/

/-- One row of `spec/opcode_table.json`: match and mask apply to W0. -/
structure TableRow where
  mnemonic : String
  pattern : Word
  mask : Word
deriving DecidableEq, Repr

/-- R98, `spec/opcode_table.json`. -/
def opcodeTable : List TableRow :=
  [ ⟨"CLEAR", 0x00000001, 0xFFFFFFFF⟩, ⟨"GOTOCHUNK", 0x00000002, 0xFF0000FF⟩,
    ⟨"WRBYTE", 0x00000003, 0xFFFF00FF⟩, ⟨"BLITFULL", 0x00000004, 0xFFFFFFFF⟩,
    ⟨"WRCHAR", 0x00000005, 0xFFFF00FF⟩, ⟨"WRSTR", 0x00000006, 0xFFFFFFFF⟩,
    ⟨"GOTOCHAR", 0x00000007, 0xFF0000FF⟩, ⟨"FLUSH", 0x00000008, 0xFFFFFFFF⟩,
    ⟨"INIT", 0x00000009, 0xFFFF00FF⟩, ⟨"DECODE", 0x0000000A, 0xFE0000FF⟩ ]

/-! The encoder. -/

/-- The mnemonic of a command, as the opcode table spells it (R94, R99). -/
def Instr.mnemonic : Instr → String
  | .clear => "CLEAR"
  | .gotochunk _ _ => "GOTOCHUNK"
  | .wrbyte _ => "WRBYTE"
  | .blitfull _ => "BLITFULL"
  | .wrchar _ => "WRCHAR"
  | .wrstr _ _ => "WRSTR"
  | .gotochar _ _ => "GOTOCHAR"
  | .flush => "FLUSH"
  | .init _ => "INIT"
  | .decode _ _ _ _ _ => "DECODE"

/-- R91: W0 from its fields; `RSV` is 0. -/
def packW0 (opc a b dst : Nat) : Word := BitVec.ofNat 32 (opc + a * 2 ^ 8 + b * 2 ^ 16 + dst * 2 ^ 24)

/-- R99: the descriptor of a command; every field and word not named is 0. -/
def encode : Instr → Descriptor
  | .clear => ⟨packW0 1 0 0 0, 0, 0, 0⟩
  | .gotochunk x y => ⟨packW0 2 x y 0, 0, 0, 0⟩
  | .wrbyte value => ⟨packW0 3 value.toNat 0 0, 0, 0, 0⟩
  | .blitfull addr => ⟨packW0 4 0 0 0, BitVec.ofNat 32 addr, 0, 0⟩
  | .wrchar code => ⟨packW0 5 code 0 0, 0, 0, 0⟩
  | .wrstr addr len => ⟨packW0 6 0 0 0, BitVec.ofNat 32 addr, BitVec.ofNat 32 len, 0⟩
  | .gotochar x y => ⟨packW0 7 x y 0, 0, 0, 0⟩
  | .flush => ⟨packW0 8 0 0 0, 0, 0, 0⟩
  | .init contrast => ⟨packW0 9 contrast 0 0, 0, 0, 0⟩
  | .decode ox oy .fb addr len => ⟨packW0 10 ox oy 0, BitVec.ofNat 32 addr, BitVec.ofNat 32 len, 0⟩
  | .decode ox oy (.mem daddr) addr len =>
    ⟨packW0 10 ox oy 1, BitVec.ofNat 32 addr, BitVec.ofNat 32 len, BitVec.ofNat 32 daddr⟩

end Sys2Proof
end

