-- ==== Sys2Proof/Config.lean ====
section
/-! DEFINITION. What the platform fixes and the spec leaves open: the named parameters of R8 that are not held in
State, and the free values. Every constant here is opaque and has no body, so no proof can see a value of it (R9).

The FIXED values of R8's table are part of the hardware and stand as literals, as in the spec's own pseudocode:
`W` = 84 chunk-columns, `H` = 6 chunk-rows, `N` = 504 = 84·6 pixel bytes, 8 pixels a chunk, glyph codes 32..126
(95 entries of 5 columns, a cell of 6 columns), contrast at most 127, fields of at most 2 bytes, 32-bit host
addresses. The parameter `HOST_VALID` is the State field `hostMap` (log entry 3). -/

namespace Sys2Proof

/-- R8 `GLYPH(c, k)`: column `k` (0..4) of the glyph for code `c` (32..126). `State.reset` fills its table from it
(R32; log entry 5). Not in the source (N1). -/
opaque Config.glyph : Nat → Nat → Byte

/-- R8 `CMD_SETX(x)`: the command byte that positions the device at column `x` (log entry 5). -/
opaque Config.cmdSetX : Nat → Byte

/-- R8 `CMD_SETY(y)`: the command byte that positions the device at chunk-row `y` (log entry 5). -/
opaque Config.cmdSetY : Nat → Byte

/-- R8 `INIT_CMDS(c)`: the command bytes INIT sends for clamped contrast `c` (log entry 5). -/
opaque Config.initCmds : Nat → List Byte

/-- FREE VALUE (R40, U1; log entry 2): byte `i` of `FB` after the reset with draw number `n`:
`resetFb n i`. Each byte of each reset may be anything. -/
opaque Config.resetFb : Nat → Nat → Byte

/-- FREE VALUE (R11, R241, U3; log entry 4): whether the Transport answers `OK` to the transaction that has `n`
transactions before it in the run, where the state's own supply of answers has run out. -/
opaque Config.transportAccepts : Nat → Bool

/-- FREE VALUE (R72, U2; log entry 8): the byte FBCORE reads at host address `a` in a range that another agent writes
meanwhile: `racedRead n a` for draw number `n`. -/
opaque Config.racedRead : Nat → Nat → Byte

/-- FREE VALUE (R72, U2; log entry 8): the byte that is left at host address `a` after a command during which another
agent wrote `a`, or wrote a range the command names in which the command writes `a`: `racedLeft n a` for draw number
`n`. -/
opaque Config.racedLeft : Nat → Nat → Byte

end Sys2Proof
end

