-- ==== Sys2Proof/Machine/State.lean ====
section
/-! DEFINITION. Everything the machine holds, as plain data, and the machine right after reset. The first group of
State's fields is the architectural state, exactly the list of R20; the second is what stands around FBCORE and the
rules read or write (host memory, the Host's pending inputs, the Transport's answers); the third is what R12 says a
model observes of a run, and the counter the free values are drawn with. -/

namespace Sys2Proof.Machine

/-- R230: the nine result codes. The register and the port carry the number `ResultCode.code`. -/
inductive ResultCode where
  | ok
  | outOfRange
  | bufferFull
  | transportFailure
  | decodeError
  | invalidGlyph
  | notImplemented
  | illegalCommand
  | busError
deriving DecidableEq, Repr

/-- R26: the two defined bits of `DKIND`: bit 0 `R` (the range is pending) and bit 1 `A` (the Area flag, hardwired 0:
no command writes it). Bits 15:2 are reserved and read 0, so they are not stored. -/
structure DirtyKind where
  range : Bool
  area : Bool
deriving DecidableEq, Repr

/-- R111: the Transport's answer to one transaction. -/
inductive Answer where
  | ok
  | fail
deriving DecidableEq, Repr

/-- R110: a transaction FBCORE issues to the Transport. -/
inductive Transaction where
  /-- `CMD b`, one command byte. -/
  | cmd (b : Byte)
  /-- `DATA bs`, a burst of data bytes in list order. -/
  | data (bs : List Byte)
deriving DecidableEq, Repr

/-- R110: one entry of the transport trace, a transaction paired with its answer. -/
structure Exchange where
  tx : Transaction
  answer : Answer
deriving DecidableEq, Repr

/-- A range of backed host addresses, `size` bytes from `base` (R8 `HOST_VALID`; log entry 3). -/
structure HostRegion where
  base : Nat
  size : Nat
deriving DecidableEq, Repr

/-- What the Host does to FBCORE (R10, R30, R31, R63, R72, R260), one event at a time and only between commands. -/
inductive HostEvent where
  /-- The Host issues a command (R90). -/
  | command (d : Descriptor)
  /-- The Host reads the readback port at a byte offset (R30). -/
  | read (offset : BitVec 12)
  /-- The Host writes the readback port, which ignores it (R31). -/
  | write (offset : BitVec 12) (value : Word)
  /-- The Host stores one byte in its own memory, before it issues a command (R63, R75). -/
  | store (addr : Word) (value : Byte)
  /-- Against the Host's duty, another agent will write these host bytes while the next command runs (R72; log
  entry 8). -/
  | race (addrs : List Word)
  /-- The reset input, between commands (R260). -/
  | reset
  /-- The reset input while the command `d` runs, after the first `k` of its host-memory writes and transport
  transactions (R260, U17; log entry 9). -/
  | resetDuring (d : Descriptor) (k : Nat)
deriving DecidableEq, Repr

/-- R63: host memory as the list of its bytes that differ from what an unlisted address reads as, by rising address. -/
abbrev Memory := List Host.Cell

/-- The state of the machine. -/
structure State where
  /-- R21: the pixel memory `FB[0..503]`. -/
  fb : Vector Byte 504
  /-- R23: `CURSOR`. -/
  cursor : Reg16
  /-- R24: `DSTART`. -/
  dstart : Reg16
  /-- R24: `DEND`. -/
  dend : Reg16
  /-- R26: `DKIND`. -/
  dkind : DirtyKind
  /-- R28: `RESULT`. -/
  result : ResultCode
  /-- R29: `CONTRAST`. -/
  contrast : Byte
  /-- R32, R62: the read-only glyph table, byte `k` of code `c` at index `(c − 32)·5 + k`. -/
  glyph : Vector Byte 475
  /-- R63: host memory. -/
  hostMem : Memory
  /-- R8 `HOST_VALID`: the backed host addresses, fixed for a run. -/
  hostMap : List HostRegion
  /-- What the Host will do next, in order (R10, R70). -/
  port : List HostEvent
  /-- The Transport's next answers, in order; when it is empty the answers are free values (R11, R18, U3). -/
  answers : List Answer
  /-- The host addresses that another agent writes during the next command, against the Host's duty (R72, U2). -/
  races : List Nat
  /-- How many draws of reset bytes and raced bytes the run has made: the counter of those free values. -/
  draws : Nat
  /-- R110: the transactions issued so far, oldest first, each with its answer. -/
  trace : List Exchange
  /-- R12, R231: the result codes returned to the Host so far, oldest first. -/
  returned : List ResultCode
  /-- R12, R30: the values the Host has read through the readback port, oldest first. -/
  readLog : List Word
deriving DecidableEq, Repr

/-- FBCORE has no faults: every error is a result code of a completed command (R232, R239), and there are no traps
(R236, R237). The type has no constructor, so no step can answer with one: safe, since nothing stops here that the
hardware runs. -/
inductive Fault
deriving DecidableEq, Repr

/-- Why a step has no next state. -/
inductive Refusal where
  /-- An instruction of the table that has no meaning yet. Raised by `exec` alone; no arm does. Safe. -/
  | notModelled (mnemonic : String)
  /-- FLUSH in a state whose Area flag is set (R18, R181, R239, U7, U10): no merge rule exists and no command reaches
  the state. Raised by `execFlush`. Safe. -/
  | areaFlush
deriving DecidableEq, Repr

/-- R40: the pixel memory after the reset with draw number `n`: 504 independent free bytes. -/
def drawnFb (n : Nat) : Vector Byte 504 := Vector.ofFn fun i => Config.resetFb n i

/-- R32, R62: the glyph table the parameter `GLYPH` gives. -/
def glyphTable : Vector Byte 475 := Vector.ofFn fun i => Config.glyph (32 + i / 5) (i % 5)

/-- R40, R41, R260: the machine right after reset, before the Host has done anything. The registers hold the values
R41 gives; `FB` is a draw; `GLYPH` is its parameter. What stands around FBCORE is the model's own choice: nothing in
the port, no supply of answers, no races, no host byte listed, every host address backed (log entries 1, 3, 4, 6, 8). -/
def State.reset : State where
  fb := drawnFb 0
  cursor := 0
  dstart := 0
  dend := 0
  dkind := ⟨false, false⟩
  result := .ok
  contrast := 0
  glyph := glyphTable
  hostMem := []
  hostMap := [⟨0, 4294967296⟩]
  port := []
  answers := []
  races := []
  draws := 1
  trace := []
  returned := []
  readLog := []

end Sys2Proof.Machine
end

