-- ==== Sys2Proof/Machine/Flags.lean ====
section
/-! DEFINITION. The flags: the two bits of `DKIND`, the sync state they stand for, the register's 16-bit view, and the
numeric result codes. -/

namespace Sys2Proof.Machine

/-- R36: set the Range flag; `A` is never written (R26). -/
def DirtyKind.setRange (k : DirtyKind) : DirtyKind := { k with range := true }

/-- R180: clear the Range flag; `A` is never written (R26). -/
def DirtyKind.clearRange (k : DirtyKind) : DirtyKind := { k with range := false }

/-- R27: the source's sync state machine. -/
inductive SyncState where
  | idle
  | rangeDirty
  | areaDirty
  | bothDirty
deriving DecidableEq, Repr

/-- R27: the sync state is the pair (`R`, `A`). -/
def DirtyKind.syncState (k : DirtyKind) : SyncState :=
  match k.range, k.area with
  | false, false => .idle
  | true, false => .rangeDirty
  | false, true => .areaDirty
  | true, true => .bothDirty

/-- R26: `DKIND` as the 16-bit register reads: bit 0 `R`, bit 1 `A`, bits 15:2 zero. -/
def DirtyKind.word (k : DirtyKind) : Reg16 := BitVec.ofNat 16 (k.range.toNat + 2 * k.area.toNat)

/-- R230: the number of each result code, as `RESULT` holds it (R28). -/
def ResultCode.code : ResultCode → Byte
  | .ok => 0
  | .outOfRange => 1
  | .bufferFull => 2
  | .transportFailure => 3
  | .decodeError => 4
  | .invalidGlyph => 5
  | .notImplemented => 6
  | .illegalCommand => 7
  | .busError => 8

end Sys2Proof.Machine
end

