-- ==== Sys2Proof/Machine/Memory.lean ====
section
/-! DEFINITION. Host memory (R63): one byte an access (R64), held as the sorted list of the bytes that differ from
what an unlisted address reads as. And the pixel memory's write. -/

namespace Sys2Proof.Machine

/-- What a host byte that nothing has written reads as. DESIGN CHOICE (log entry 1): the spec gives host memory no
contents; 0x00 is what the conventions of 95_test_vectors.md take. -/
def unlistedByte : Byte := 0

/-- `MemRead(addr, 1)` on the stored contents. -/
def memRead : Memory → Nat → Byte
  | [], _ => unlistedByte
  | (b, v) :: m, a => if b = a then v else memRead m a

/-- `MemWrite(addr, 1, v)`, keeping the canonical form: cells in rising order, none that reads as if unlisted. -/
def memWrite : Memory → Nat → Byte → Memory
  | [], a, v => if v = unlistedByte then [] else [(a, v)]
  | (b, u) :: m, a, v =>
    if a < b then (if v = unlistedByte then (b, u) :: m else (a, v) :: (b, u) :: m)
    else if a = b then (if v = unlistedByte then m else (a, v) :: m)
    else (b, u) :: memWrite m a v

/-- The canonical form: addresses strictly rising and in the 32-bit space, no cell that reads as if unlisted. -/
abbrev Memory.wf (m : Memory) : Prop :=
  m.Pairwise (fun c d => c.1 < d.1) ∧ ∀ c ∈ m, c.1 < 4294967296 ∧ c.2 ≠ unlistedByte

/-- `FB[i] <- v`; an index that is not in 0..503 names no byte. -/
def fbWrite (fb : Vector Byte 504) (i : Nat) (v : Byte) : Vector Byte 504 :=
  ⟨(fb.toList.set i v).toArray, by simp⟩

/-- `FB[s..e)` (R16): the bytes at `s`, `s + 1`, …, `e − 1`; empty when `s = e`. -/
def fbSlice (fb : Vector Byte 504) (s e : Nat) : List Byte := (fb.toList.drop s).take (e - s)

end Sys2Proof.Machine
end

