-- ==== Sys2Proof/Machine/Operands.lean ====
section
/-! DEFINITION. What the commands compute from their operands alone: chunk coordinates and indices (R21, R22), the
character cell (R164), glyph validity and index (R62, R160), the contrast clamp (R184), the blank fill byte (R204), the
placement clamp (R206) and the host-memory ranges a command names (R67). All arithmetic is exact (R13). -/

namespace Sys2Proof.Machine

/-- R133: the chunk coordinate is on the canvas. -/
def chunkInRange (x y : Nat) : Bool := decide (x ≤ 83) && decide (y ≤ 5)

/-- R21: the flat index of chunk coordinate `(x, y)`. -/
def chunkIndex (x y : Nat) : Nat := x + 84 * y

/-- R164: the chunk-column at which character cell `x` begins, with no truncation. -/
def cellColumn (x : Nat) : Nat := 6 * x

/-- R182: the chunk-column of a flat index. -/
def chunkColumn (i : Nat) : Nat := i % 84

/-- R182: the chunk-row of a flat index. -/
def chunkRow (i : Nat) : Nat := i / 84

/-- R160: the code has a glyph. -/
def glyphValid (code : Nat) : Bool := decide (32 ≤ code) && decide (code ≤ 126)

/-- R62: where byte `k` of the glyph for `code` stands in the table. -/
def glyphIndex (code k : Nat) : Nat := (code - 32) * 5 + k

/-- R184: the contrast clamp; the lower bound never acts. -/
def clampContrast (contrast : Nat) : Nat := min contrast 127

/-- R204 `FILL`. -/
def fillByte (polarity : Nat) : Byte := if polarity = 0 then 0x00 else 0xFF

/-- R206 `PLACE`, one axis: shift the origin inward when origin and size would pass the canvas. -/
def placeAxis (origin size canvas : Nat) : Nat := if origin + size > canvas then canvas - size else origin

/-- R206 `PLACE`: each axis on its own, on the canvas of 84 by 6. -/
def place (ox oy w h : Nat) : Nat × Nat := (placeAxis ox w 84, placeAxis oy h 6)

/-- The address lies in the region `[base, base + size)`. -/
def inRegion (r : HostRegion) (a : Nat) : Bool := decide (r.base ≤ a) && decide (a < r.base + r.size)

/-- R201: the ranges DECODE names: the stream, and with `DST` = 1 the canvas. -/
def decodeRanges (dst : Dest) (addr len : Nat) : List HostRegion :=
  match dst with
  | .fb => [⟨addr, len⟩]
  | .mem daddr => [⟨addr, len⟩, ⟨daddr, 504⟩]

/-- R67, R135, R163, R201: the host-memory ranges a command names. -/
def namedRanges : Instr → List HostRegion
  | .clear => []
  | .gotochunk _ _ => []
  | .wrbyte _ => []
  | .blitfull addr => [⟨addr, 504⟩]
  | .wrchar _ => []
  | .wrstr addr len => [⟨addr, len⟩]
  | .gotochar _ _ => []
  | .flush => []
  | .init _ => []
  | .decode _ _ dst addr len => decodeRanges dst addr len

end Sys2Proof.Machine
end

