-- ==== Sys2Proof/Machine/Ops.lean ====
section
/-! DEFINITION. The operations the commands share. The end of a command (`finish`) is the one place a result code is
reported: FBCORE takes no exceptions, so there is no entry and no return (R232, R237). Then the tracker primitives
(R130, R131), host-memory access (R63 to R67, R72), the transport (R110, R240) and the readback port (R30). -/

namespace Sys2Proof.Machine

/-! The end of a command. -/

/-- R15 `raise E` and `finish OK`, R231: the command ends; its code is written into `RESULT` and returned to the
Host. No other state is saved and control goes nowhere (R232). -/
def finish (code : ResultCode) (s : State) : State :=
  { s with result := code, returned := s.returned ++ [code] }

/-- R96, R231: an illegal descriptor has no effect but its result code. -/
def illegalCommand (s : State) : State := finish .illegalCommand s

/-! The tracker. -/

/-- R130 `TRACK_GOTO(pos)`: the high bound becomes `max(DEND, pos)`, not `pos + 1` (C2). -/
def trackGoto (pos : Nat) (s : State) : State :=
  { s with
    cursor := BitVec.ofNat 16 pos
    dstart := BitVec.ofNat 16 (min s.dstart.toNat pos)
    dend := BitVec.ofNat 16 (max s.dend.toNat pos)
    dkind := s.dkind.setRange }

/-- R131, the write of a `PUT` that does not fail. -/
def storeAtCursor (v : Byte) (s : State) : State :=
  { s with
    fb := fbWrite s.fb s.cursor.toNat v
    cursor := BitVec.ofNat 16 (s.cursor.toNat + 1)
    dend := if s.cursor.toNat + 1 > s.dend.toNat then BitVec.ofNat 16 (s.cursor.toNat + 1) else s.dend
    dkind := s.dkind.setRange }

/-- R131 `PUT(v)`: no effect at all when the buffer is full. -/
def put (v : Byte) (s : State) : ResultCode × State :=
  if s.cursor.toNat ≥ 504 then (.bufferFull, s) else (.ok, storeAtCursor v s)

/-- R132, R135: the whole buffer is pending. -/
def markAll (s : State) : State :=
  { s with dstart := 0, dend := 504, dkind := s.dkind.setRange }

/-- R180: the range collapses to zero length at `DEND mod 504` (C4), and the state is Idle. -/
def collapseRange (s : State) : State :=
  { s with
    dstart := BitVec.ofNat 16 (s.dend.toNat % 504)
    dend := BitVec.ofNat 16 (s.dend.toNat % 504)
    dkind := s.dkind.clearRange }

/-! Host memory. -/

/-- R8 `HOST_VALID(a)`: the address is one of the 2^32 and is backed. -/
def hostValid (s : State) (a : Nat) : Bool :=
  decide (a < 4294967296) && s.hostMap.any fun r => inRegion r a

/-- R67: the range `[a, a + n)` is valid: empty, or inside the address space with every byte backed. -/
def validRange (s : State) (a n : Nat) : Bool :=
  decide (n = 0) || decide (a + n ≤ 4294967296) && (List.range n).all fun k => hostValid s (a + k)

/-- R72, U2: the duty is broken at `a`: the address lies in a range that the command names, of which another agent writes
some byte, whichever, while the command runs. -/
def racedAt (named : List HostRegion) (s : State) (a : Nat) : Bool :=
  named.any fun r => inRegion r a && s.races.any (inRegion r)

/-- `MemRead(a, 1)` of a command that names the ranges `named` (R15, R64): the stored byte; a free value anywhere in a
range written concurrently (R72, U2). -/
def hostRead (named : List HostRegion) (s : State) (a : Nat) : Byte :=
  if racedAt named s a then Config.racedRead s.draws a else memRead s.hostMem a

/-- The bytes at `a`, `a + 1`, …, `a + n − 1`, read one at a time by a command that names the ranges `named`. -/
def readBytes (named : List HostRegion) (s : State) : Nat → Nat → List Byte
  | _, 0 => []
  | a, n + 1 => hostRead named s a :: readBytes named s (a + 1) n

/-- The bytes of the range `[a, a + n)` for a command that names this range alone. -/
def hostBytes (s : State) (a n : Nat) : List Byte := readBytes [⟨a, n⟩] s a n

/-- What a command's write of `v` leaves at `a`: `v`; a free value anywhere in a range written concurrently, where the
byte may be overwritten (R72, U2). -/
def leftByte (named : List HostRegion) (s : State) (a : Nat) (v : Byte) : Byte :=
  if racedAt named s a then Config.racedLeft s.draws a else v

/-- `MemWrite(a, 1, v)` (R15, R64). -/
def hostWrite (a : Nat) (v : Byte) (s : State) : State := { s with hostMem := memWrite s.hostMem a v }

/-! The transport. -/

/-- R241, U3: the free answer to the transaction that has `n` before it in the run. -/
def freeAnswer (n : Nat) : Answer := if Config.transportAccepts n then .ok else .fail

/-- R11, R241: the answer the Transport gives to the transaction that is issued after `k` more: from the supply the
state holds, and where that has run out a free value, one for each transaction of the run (log entry 4). -/
def answerAt (s : State) (k : Nat) : Answer :=
  match s.answers[k]? with
  | some a => a
  | none => freeAnswer (s.trace.length + k)

/-- The answer to the next transaction. -/
def nextAnswer (s : State) : Answer := answerAt s 0

/-- R110, R240 `Send`: issue one transaction and wait for its answer. -/
def send (t : Transaction) (s : State) : Answer × State :=
  (nextAnswer s, { s with trace := s.trace ++ [⟨t, nextAnswer s⟩], answers := s.answers.tail })

/-- R71, R183, R184: issue transactions in order, each after the previous one's answer, and stop at the first `FAIL`. -/
def sendAll : List Transaction → State → Answer × State
  | [], s => (.ok, s)
  | t :: ts, s =>
    match send t s with
    | (.ok, s') => sendAll ts s'
    | (.fail, s') => (.fail, s')

/-! The readback port and the pixels. -/

/-- R30: the 32-bit value the readback port returns at a byte offset. -/
def readback (s : State) (offset : BitVec 12) : Word :=
  match offset.toNat with
  | 0x000 => s.result.code.setWidth 32
  | 0x004 => s.cursor.setWidth 32
  | 0x008 => s.dstart.setWidth 32
  | 0x00C => s.dend.setWidth 32
  | 0x010 => s.dkind.word.setWidth 32
  | 0x014 => s.contrast.setWidth 32
  | n => if h : 0x400 ≤ n ∧ n < 0x400 + 504 then (s.fb[n - 0x400]).setWidth 32 else 0

/-- R22: the pixel at display column `px` and display row `py`. -/
def pixel (s : State) (px py : Nat) : Bool :=
  (s.fb[chunkIndex px (py / 8)]?.getD 0).getLsbD (py % 8)

end Sys2Proof.Machine
end

