-- ==== Sys2Proof/Machine/FrameBuffer.lean ====
section
/-! DEFINITION. The FrameBuffer commands: CLEAR, GOTOCHUNK, WRBYTE, BLITFULL (40_framebuffer.md). -/

namespace Sys2Proof.Machine

/-- R132 CLEAR. -/
def execClear (s : State) : Host.Outcome State Fault Refusal :=
  .next (finish .ok (markAll { s with fb := Vector.replicate 504 0x00, cursor := 0 }))

/-- R133 GOTOCHUNK. -/
def execGotochunk (x y : Nat) (s : State) : Host.Outcome State Fault Refusal :=
  .next (if chunkInRange x y then finish .ok (trackGoto (chunkIndex x y) s) else finish .outOfRange s)

/-- R134 WRBYTE. -/
def execWrbyte (value : Byte) (s : State) : Host.Outcome State Fault Refusal :=
  .next (finish (put value s).1 (put value s).2)

/-- R135: the 504 bytes at `addr`, in index order. -/
def blitBuffer (addr : Nat) (s : State) : Vector Byte 504 := Vector.ofFn fun i =>
  hostRead (namedRanges (.blitfull addr)) s (addr + i)

/-- R135 BLITFULL. -/
def execBlitfull (addr : Nat) (s : State) : Host.Outcome State Fault Refusal :=
  .next (if validRange s addr 504 then finish .ok (markAll { s with fb := blitBuffer addr s })
    else finish .busError s)

end Sys2Proof.Machine
end

