-- ==== Sys2Proof/Machine/Image.lean ====
section
/-! DEFINITION. The ImageDecoder command DECODE (43_decoder.md), its stream format (30_encoding.md section 5), and the
encoder of that format, for the round-trip law (R212). A reader takes the bytes of the stream that are left and
answers what it read with the bytes after it, or nothing: the stream is truncated or malformed (`DECODE_ERROR`). -/

namespace Sys2Proof.Machine

/-! The decoder. -/

/-- R113, R202 `VARINT()`: one or two bytes, bit 7 of the first flags the second, low group first. -/
def readVarint : List Byte → Option (Nat × List Byte)
  | [] => none
  | b0 :: rest =>
    if b0.toNat < 0x80 then some (b0.toNat, rest)
    else
      match rest with
      | [] => none
      | b1 :: rest' => if b1.toNat < 0x80 then some (b0.toNat % 128 + 128 * b1.toNat, rest') else none

/-- R205, `E` times `BYTE()`: the literal columns of an explicit run. -/
def readLiterals : Nat → List Byte → Option (List Byte × List Byte)
  | 0, bs => some ([], bs)
  | _ + 1, [] => none
  | n + 1, b :: bs =>
    match readLiterals n bs with
    | some (lits, rest) => some (b :: lits, rest)
    | none => none

/-- What the header gives: the blank fill byte and the size in chunk-columns and chunk-rows. -/
structure ImageHeader where
  fill : Byte
  width : Nat
  height : Nat
deriving DecidableEq, Repr

/-- R203 `HEADER`: four varints, then `startOffset` must be 0 and the image must fit the canvas at some origin. -/
def readHeader (bs : List Byte) : Option (ImageHeader × List Byte) :=
  match readVarint bs with
  | none => none
  | some (polarity, bs1) =>
    match readVarint bs1 with
    | none => none
    | some (w, bs2) =>
      match readVarint bs2 with
      | none => none
      | some (h, bs3) =>
        match readVarint bs3 with
        | none => none
        | some (startOffset, bs4) =>
          if startOffset ≠ 0 then none
          else if w > 84 ∨ h > 6 then none
          else some (⟨fillByte polarity, w, h⟩, bs4)

/-- R205, one turn of `BODY`'s loop: an explicit run onto the columns so far, and, unless it completes the image, a
blank run. A run past `total` columns is an error. Answers the columns and the bytes that are left. -/
def readPair (fill : Byte) (total : Nat) (cols bs : List Byte) : Option (List Byte × List Byte) :=
  match readVarint bs with
  | none => none
  | some (e, bs1) =>
    if e > total - cols.length then none
    else
      match readLiterals e bs1 with
      | none => none
      | some (lits, bs2) =>
        if cols.length + e = total then some (cols ++ lits, bs2)
        else
          match readVarint bs2 with
          | none => none
          | some (blank, bs3) =>
            if blank > total - (cols.length + e) then none
            else some (cols ++ lits ++ List.replicate blank fill, bs3)

/-- R205 `BODY`: pairs of runs until `total` columns exist. A zero blank run does not stop the loop, and the blank
length after the explicit run that completes the image is not read. The first argument bounds the number of pairs:
each takes at least one byte, so the stream's length is always enough (`readBody_fuel` in Laws/Image.lean; log entry
14). -/
def readBody (fill : Byte) (total : Nat) : Nat → List Byte → List Byte → Option (List Byte × List Byte)
  | 0, cols, bs => if cols.length < total then none else some (cols, bs)
  | fuel + 1, cols, bs =>
    if cols.length < total then
      match readPair fill total cols bs with
      | none => none
      | some (cols', bs') => readBody fill total fuel cols' bs'
    else some (cols, bs)

/-- A decoded image: its size and its `width·height` columns in row-major order (R34). -/
structure Image where
  width : Nat
  height : Nat
  cols : List Byte
deriving DecidableEq, Repr

/-- R200, R209: the whole stream is parsed before anything is written. Answers the image and the bytes that were not
read. `len` is the stream's length, which bounds the pairs of the body. -/
def readImage (len : Nat) (bs : List Byte) : Option (Image × List Byte) :=
  match readHeader bs with
  | none => none
  | some (hd, bs1) =>
    match readBody hd.fill (hd.width * hd.height) len [] bs1 with
    | none => none
    | some (cols, rest) => some (⟨hd.width, hd.height, cols⟩, rest)

/-- R207: the canvas indices of an image of `w` by `h` at origin `(ox, oy)`, in increasing row, then column. -/
def blitIndices (w h ox oy : Nat) : List Nat :=
  (List.range h).flatMap fun r => (List.range w).map fun c => (oy + r) * 84 + ox + c

/-- R206, R207: the canvas writes of an image placed at the clamped origin, in order. -/
def blitWrites (img : Image) (ox oy : Nat) : List (Nat × Byte) :=
  (blitIndices img.width img.height (place ox oy img.width img.height).1 (place ox oy img.width img.height).2).zip
    img.cols

/-- What the canvas writes leave at `DADDR` (R72): the columns, or free values in a range written concurrently. -/
def leftWrites (named : List HostRegion) (daddr : Nat) (ws : List (Nat × Byte)) (s : State) : List (Nat × Byte) :=
  ws.map fun w => (w.1, leftByte named s (daddr + w.1) w.2)

/-- R207: make canvas writes: to `FB`, or to host memory with canvas index `i` at `DADDR + i`. No register of the
tracker changes (R208). `named` are the ranges the command names (R72). -/
def blit (named : List HostRegion) (dst : Dest) (ws : List (Nat × Byte)) (s : State) : State :=
  match dst with
  | .fb => { s with fb := ws.foldl (fun fb w => fbWrite fb w.1 w.2) s.fb }
  | .mem daddr =>
    { s with
      hostMem := (leftWrites named daddr ws s).foldl (fun m w => memWrite m (daddr + w.1) w.2) s.hostMem }

/-- R201: the canvas range is valid; with `DST` = 0 there is none to check. -/
def destValid (s : State) : Dest → Bool
  | .fb => true
  | .mem daddr => validRange s daddr 504

/-- R201: both ranges DECODE names. -/
def decodeRangesValid (dst : Dest) (addr len : Nat) (s : State) : Bool :=
  validRange s addr len && destValid s dst

/-- R200, R202: the image DECODE to `dst` reads from the stream of `len` bytes at `addr`, if it is well formed. -/
def imageAt (dst : Dest) (addr len : Nat) (s : State) : Option Image :=
  match readImage len (readBytes (decodeRanges dst addr len) s addr len) with
  | some (img, _) => some img
  | none => none

/-- R200 DECODE. -/
def execDecode (ox oy : Nat) (dst : Dest) (addr len : Nat) (s : State) : Host.Outcome State Fault Refusal :=
  .next (
    if decodeRangesValid dst addr len s then
      match imageAt dst addr len s with
      | some img => finish .ok (blit (decodeRanges dst addr len) dst (blitWrites img ox oy) s)
      | none => finish .decodeError s
    else finish .busError s)

/-! The encoder of the stream format, as R113 and R212 describe it. -/

/-- R113: the canonical varint of a value up to 16383: one byte up to 127, two above. -/
def writeVarint (v : Nat) : List Byte :=
  if v ≤ 127 then [BitVec.ofNat 8 v] else [BitVec.ofNat 8 (128 + v % 128), BitVec.ofNat 8 (v / 128)]

/-- R115: one pair of the body: the explicit columns and the number of blank ones. -/
structure RunPair where
  explicit : List Byte
  blank : Nat
deriving DecidableEq, Repr

/-- R115: the bytes of one pair. -/
def writePair (p : RunPair) : List Byte :=
  writeVarint p.explicit.length ++ p.explicit ++ writeVarint p.blank

/-- The columns one pair stands for. -/
def RunPair.columns (fill : Byte) (p : RunPair) : List Byte := p.explicit ++ List.replicate p.blank fill

/-- R212: the stream of header `(polarity, w, h, 0)` and the given pairs, every field canonical. -/
def writeImage (polarity w h : Nat) (pairs : List RunPair) : List Byte :=
  writeVarint polarity ++ writeVarint w ++ writeVarint h ++ writeVarint 0 ++ pairs.flatMap writePair

end Sys2Proof.Machine
end

