-- ==== Sys2Proof/Machine/Sync.lean ====
section
/-! DEFINITION. The SyncEngine and transport commands: FLUSH, INIT (42_sync.md). -/

namespace Sys2Proof.Machine

/-- R180, R182: the transactions of a FLUSH in RangeDirty: X position, Y position, one burst of `FB[DSTART..DEND)`,
sent even when it is empty. -/
def flushTransactions (s : State) : List Transaction :=
  [ .cmd (Config.cmdSetX (chunkColumn s.dstart.toNat)),
    .cmd (Config.cmdSetY (chunkRow s.dstart.toNat)),
    .data (fbSlice s.fb s.dstart.toNat s.dend.toNat) ]

/-- R180, R183: FLUSH in RangeDirty. -/
def flushRange (s : State) : State :=
  match sendAll (flushTransactions s) s with
  | (.ok, s') => finish .ok (collapseRange s')
  | (.fail, s') => finish .transportFailure s'

/-- R180 FLUSH, a case on the sync state (R27). R181, R18: a model refuses it where the Area flag is set. -/
def execFlush (s : State) : Host.Outcome State Fault Refusal :=
  match s.dkind.syncState with
  | .idle => .next (finish .ok s)
  | .rangeDirty => .next (flushRange s)
  | .areaDirty => .refused .areaFlush
  | .bothDirty => .refused .areaFlush

/-- R184: the transactions of INIT for a contrast operand: one `CMD` for each byte of `INIT_CMDS` of the clamped value. -/
def initTransactions (contrast : Nat) : List Transaction :=
  (Config.initCmds (clampContrast contrast)).map .cmd

/-- R184: INIT's effect: `CONTRAST` is written only when every transaction was answered `OK`. -/
def initDevice (contrast : Nat) (s : State) : State :=
  match sendAll (initTransactions contrast) s with
  | (.ok, s') => finish .ok { s' with contrast := BitVec.ofNat 8 (clampContrast contrast) }
  | (.fail, s') => finish .transportFailure s'

/-- R184 INIT. -/
def execInit (contrast : Nat) (s : State) : Host.Outcome State Fault Refusal := .next (initDevice contrast s)

end Sys2Proof.Machine
end

