-- ==== Sys2Proof/Machine/Text.lean ====
section
/-! DEFINITION. The TextRenderer commands: WRCHAR, WRSTR, GOTOCHAR (41_text.md). -/

namespace Sys2Proof.Machine

/-- R32, R62: `GLYPH(code, k)` from the machine's table. No index outside 0..474 is ever read: `putChar` rejects the
code first (R160). -/
def glyphByte (s : State) (code k : Nat) : Byte := s.glyph[glyphIndex code k]?.getD 0

/-- R161: the six columns of a character cell: five glyph columns and one zero column. -/
def cellColumns (s : State) (code : Nat) : List Byte :=
  (List.range 5).map (glyphByte s code) ++ [0x00]

/-- R161: the cursor writes of a character, one `PUT` a column. -/
def putColumns : List Byte → State → State
  | [], s => s
  | v :: vs, s => putColumns vs (put v s).2

/-- R161 `CHAR(c)`: no effect unless all six writes fit. -/
def putChar (code : Nat) (s : State) : ResultCode × State :=
  if glyphValid code = false then (.invalidGlyph, s)
  else if s.cursor.toNat + 6 > 504 then (.bufferFull, s)
  else (.ok, putColumns (cellColumns s code) s)

/-- R162 WRCHAR. -/
def execWrchar (code : Nat) (s : State) : Host.Outcome State Fault Refusal :=
  .next (finish (putChar code s).1 (putChar code s).2)

/-- R163: the loop of WRSTR over the `n` bytes at `addr` of the ranges it names: a 0x00 ends the string, and the first character that fails
ends it with its code, the characters before it kept. -/
def putString (named : List HostRegion) (addr : Nat) : Nat → State → ResultCode × State
  | 0, s => (.ok, s)
  | n + 1, s =>
    if hostRead named s addr = 0x00 then (.ok, s)
    else
      match putChar (hostRead named s addr).toNat s with
      | (.ok, s') => putString named (addr + 1) n s'
      | (code, s') => (code, s')

/-- R163 WRSTR: the whole of `len` is checked before anything is read. -/
def execWrstr (addr len : Nat) (s : State) : Host.Outcome State Fault Refusal :=
  .next (
    if validRange s addr len then
      finish (putString (namedRanges (.wrstr addr len)) addr len s).1
        (putString (namedRanges (.wrstr addr len)) addr len s).2
    else finish .busError s)

/-- R164 GOTOCHAR. -/
def execGotochar (x y : Nat) (s : State) : Host.Outcome State Fault Refusal :=
  .next (if chunkInRange (cellColumn x) y then finish .ok (trackGoto (chunkIndex (cellColumn x) y) s)
    else finish .outOfRange s)

end Sys2Proof.Machine
end

