-- ==== Sys2Proof/Machine/Dispatch.lean ====
section
/-! DEFINITION. One arm per command of R94, each a direct call of the command's meaning. -/

namespace Sys2Proof.Machine

def exec (i : Instr) (s : State) : Host.Outcome State Fault Refusal :=
  match i with
  | .clear => Sys2Proof.Machine.execClear s
  | .gotochunk x y => Sys2Proof.Machine.execGotochunk x y s
  | .wrbyte value => Sys2Proof.Machine.execWrbyte value s
  | .blitfull addr => Sys2Proof.Machine.execBlitfull addr s
  | .wrchar code => Sys2Proof.Machine.execWrchar code s
  | .wrstr addr len => Sys2Proof.Machine.execWrstr addr len s
  | .gotochar x y => Sys2Proof.Machine.execGotochar x y s
  | .flush => Sys2Proof.Machine.execFlush s
  | .init contrast => Sys2Proof.Machine.execInit contrast s
  | .decode ox oy dst addr len => Sys2Proof.Machine.execDecode ox oy dst addr len s

end Sys2Proof.Machine
end

