-- ==== Sys2Proof/Machine/Events.lean ====
section
/-! DEFINITION. What one event of the Host does (R10, R31, R260), around the commands' meanings. -/

namespace Sys2Proof.Machine

/-! Races (R72). -/

/-- R72, U2: a byte that another agent wrote during a command holds any value after it. -/
def raceOne (s : State) (m : Memory) (a : Nat) : Memory :=
  if hostValid s a then memWrite m a (Config.racedLeft s.draws a) else m

/-- R72, U2: what the races of the command that just ran leave. With none, nothing. -/
def settleRaces (s : State) : State :=
  match s.races with
  | [] => s
  | a :: as => { s with hostMem := (a :: as).foldl (raceOne s) s.hostMem, races := [], draws := s.draws + 1 }

/-- The races settle when the command has returned. -/
def settleOutcome : Host.Outcome State Fault Refusal → Host.Outcome State Fault Refusal
  | .next s => .next (settleRaces s)
  | .fault r => .fault r
  | .refused r => .refused r

/-! Commands. -/

/-- R90, R96: the descriptor is decoded first; an illegal one ends with `ILLEGAL_COMMAND`, a legal one runs. -/
def issue (d : Descriptor) (s : State) : Host.Outcome State Fault Refusal :=
  match decode d with
  | .ok i => exec i s
  | .error _ => .next (illegalCommand s)

/-- R10, R72: a command runs to completion; where another agent wrote host memory meanwhile, the races then settle. -/
def runCommand (d : Descriptor) (s : State) : Host.Outcome State Fault Refusal :=
  match s.races with
  | [] => issue d s
  | _ :: _ => settleOutcome (issue d s)

/-! Reset. -/

/-- R260, R41, R40: every register at its reset value and `FB` unspecified, drawn afresh. R261: nothing else changes;
no result is returned. -/
def resetCore (s : State) : State :=
  { s with
    fb := drawnFb s.draws
    cursor := 0
    dstart := 0
    dend := 0
    dkind := ⟨false, false⟩
    result := .ok
    contrast := 0
    draws := s.draws + 1 }

/-- R260, U17: what a command that a reset abandons has already done outside FBCORE: its first `k` transactions or
host-memory writes, in order. Only FLUSH and INIT issue transactions (R110) and only DECODE with `DST` = 1 writes host
memory (R63). What it did to FBCORE's own state does not matter: the reset overwrites it. -/
def runAbandoned (i : Instr) (k : Nat) (s : State) : State :=
  match i with
  | .clear => s
  | .gotochunk _ _ => s
  | .wrbyte _ => s
  | .blitfull _ => s
  | .wrchar _ => s
  | .wrstr _ _ => s
  | .gotochar _ _ => s
  | .flush =>
    match s.dkind.syncState with
    | .rangeDirty => (sendAll ((flushTransactions s).take k) s).2
    | .idle => s
    | .areaDirty => s
    | .bothDirty => s
  | .init contrast => (sendAll ((initTransactions contrast).take k) s).2
  | .decode ox oy dst addr len =>
    match dst with
    | .fb => s
    | .mem daddr =>
      if decodeRangesValid (.mem daddr) addr len s then
        match imageAt (.mem daddr) addr len s with
        | some img =>
          blit (decodeRanges (.mem daddr) addr len) (.mem daddr) ((blitWrites img ox oy).take k) s
        | none => s
      else s

/-- R260: a reset that arrives while the command `d` runs. No result is returned. -/
def resetDuring (d : Descriptor) (k : Nat) (s : State) : State :=
  match decode d with
  | .ok i => resetCore (settleRaces (runAbandoned i k s))
  | .error _ => resetCore (settleRaces s)

/-! The events. -/

/-- R63, R75: the Host's own store. Where no memory is backed there is nothing to store to (log entry 13). -/
def hostStore (a : Word) (v : Byte) (s : State) : State :=
  if hostValid s a.toNat then hostWrite a.toNat v s else s

/-- R30, R31: a readback read has no effect on FBCORE; its value goes to the Host. -/
def readPort (offset : BitVec 12) (s : State) : State := { s with readLog := s.readLog ++ [readback s offset] }

/-- R72, U2: from here to the end of the next command another agent writes these bytes. -/
def startRaces (addrs : List Word) (s : State) : State := { s with races := s.races ++ addrs.map (·.toNat) }

/-- R10, R31, R72, R260: one event of the Host. A write to the readback port is ignored. -/
def runEvent (e : HostEvent) (s : State) : Host.Outcome State Fault Refusal :=
  match e with
  | .command d => runCommand d s
  | .read offset => .next (readPort offset s)
  | .write _ _ => .next s
  | .store a v => .next (hostStore a v s)
  | .race addrs => .next (startRaces addrs s)
  | .reset => .next (resetCore s)
  | .resetDuring d k => .next (resetDuring d k s)

end Sys2Proof.Machine
end

