-- ==== Sys2Proof/Machine/Step.lean ====
section
/-! DEFINITION. One step: FBCORE takes the next event of the Host from the port. FBCORE has no program counter and
fetches nothing (R33, R75): the command sequence is the Host's. -/

namespace Sys2Proof.Machine

/-- R10, R70: the next event runs to completion. R260, R271: with no event pending FBCORE waits and keeps its state. -/
def step (s : State) : Host.Outcome State Fault Refusal :=
  match s.port with
  | [] => .next s
  | e :: rest => runEvent e { s with port := rest }

/-- The Host issues the command whose table word is `w` next (R90): the descriptor stands first in the port. -/
def State.withFetchWord (s : State) (nbits w : Nat) : State :=
  { s with port := .command (Descriptor.ofTableWord nbits w) :: s.port }

end Sys2Proof.Machine
end

