-- ==== Sys2Proof/Machine/Assembler.lean ====
section
/-! DEFINITION. The assembler syntax of R99: one command per line, a mnemonic and operands separated by commas, a
comment from `;` to the end of the line. It is host-side text, no part of the machine; it ends in the encoder, so an
operand that does not fit its field is refused and everything not named is 0. There are no pseudo-instructions (R100).
What R99 leaves open of spacing, letter case, numbers and quotes is the model's choice (log entry 17). -/

namespace Sys2Proof.Machine

/-- The tokens of a line. -/
inductive Token where
  | word (cs : List Char)
  | literal (c : Char)
  | comma
deriving DecidableEq, Repr

/-- The word read so far (its letters in reverse), if any, and then the tokens after it. -/
def pushWord (acc : List Char) (ts : List Token) : List Token :=
  if acc = [] then ts else .word acc.reverse :: ts

/-- R99: split a line into tokens. A character literal is a character between two quotes, and a comment runs from `;` to
the end of the line. DESIGN CHOICE (log entry 17): R99 does not say which characters separate tokens. Here space, tab,
carriage return and newline are blanks wherever they stand, any number of them or none; a comma or a character literal
ends a word without one; `;` inside a character literal begins no comment; and a quote that opens no character literal is
a character of a word, so that the line is refused. -/
def tokens : List Char → List Char → List Token
  | [], acc => pushWord acc []
  | '\'' :: c :: '\'' :: rest, acc => pushWord acc (.literal c :: tokens rest [])
  | c :: rest, acc =>
    if c = ';' then pushWord acc []
    else if c = ',' then pushWord acc (.comma :: tokens rest [])
    else if c = ' ' ∨ c = '\t' ∨ c = '\r' ∨ c = '\n' then pushWord acc (tokens rest [])
    else tokens rest (c :: acc)

/-- The value of a hexadecimal digit. -/
def digitValue (c : Char) : Option Nat :=
  if '0'.toNat ≤ c.toNat ∧ c.toNat ≤ '9'.toNat then some (c.toNat - '0'.toNat)
  else if 'a'.toNat ≤ c.toNat ∧ c.toNat ≤ 'f'.toNat then some (c.toNat - 'a'.toNat + 10)
  else if 'A'.toNat ≤ c.toNat ∧ c.toNat ≤ 'F'.toNat then some (c.toNat - 'A'.toNat + 10)
  else none

/-- The digits that are left, read in the given base onto the value so far. -/
def digits (base : Nat) : Nat → List Char → Option Nat
  | n, [] => some n
  | n, c :: cs =>
    match digitValue c with
    | some d => if d < base then digits base (n * base + d) cs else none
    | none => none

/-- R99: a numeric operand is decimal or `0x` hexadecimal. DESIGN CHOICE (log entry 17): the `x` is a small letter, the
digits after it are of either case, and leading zeros are allowed. -/
def parseNumber : List Char → Option Nat
  | '0' :: 'x' :: c :: cs => digits 16 0 (c :: cs)
  | c :: cs => digits 10 0 (c :: cs)
  | [] => none

/-- An operand: a number, a character literal, or one of the names `FB` and `MEM`. -/
inductive Operand where
  | number (n : Nat)
  | character (code : Nat)
  | nameFb
  | nameMem
deriving DecidableEq, Repr

/-- R99: one operand. A character literal stands for the ASCII code of a printable character: 32 to 126,
PRESUMED (log entry 17). -/
def parseOperand : Token → Option Operand
  | .literal c => if 32 ≤ c.toNat ∧ c.toNat ≤ 126 then some (.character c.toNat) else none
  | .word cs =>
    if cs = ['F', 'B'] then some .nameFb
    else if cs = ['M', 'E', 'M'] then some .nameMem
    else (parseNumber cs).map .number
  | .comma => none

/-- R99: operands separated by commas. -/
def parseOperands : List Token → Option (List Operand)
  | [] => some []
  | [t] => (parseOperand t).map ([·])
  | t :: .comma :: u :: rest =>
    match parseOperand t, parseOperands (u :: rest) with
    | some o, some os => some (o :: os)
    | _, _ => none
  | _ :: _ => none

/-- R99: the two numeric operands of a goto. -/
def twoNumbers (f : Nat → Nat → Instr) : List Operand → Option Instr
  | [.number x, .number y] => some (f x y)
  | _ => none

/-- R99: the one numeric operand of a command. -/
def oneNumber (f : Nat → Instr) : List Operand → Option Instr
  | [.number n] => some (f n)
  | _ => none

/-- R99: a command with no operand. -/
def noOperand (i : Instr) : List Operand → Option Instr
  | [] => some i
  | _ => none

/-- R99: `WRBYTE value`; the value must fit its field. -/
def wrbyteOperand : List Operand → Option Instr
  | [.number n] => if fitsByte n then some (.wrbyte (BitVec.ofNat 8 n)) else none
  | _ => none

/-- R99: `WRCHAR code`, a number or a character literal. -/
def wrcharOperand : List Operand → Option Instr
  | [.number n] => some (.wrchar n)
  | [.character n] => some (.wrchar n)
  | _ => none

/-- R99: the two forms of `DECODE`. -/
def decodeOperands : List Operand → Option Instr
  | [.number ox, .number oy, .nameFb, .number addr, .number len] => some (.decode ox oy .fb addr len)
  | [.number ox, .number oy, .nameMem, .number addr, .number len, .number daddr] =>
    some (.decode ox oy (.mem daddr) addr len)
  | _ => none

/-- R99: the command a mnemonic and its operands name. DESIGN CHOICE (log entry 17): capitals only. -/
def parseCommand (cs : List Char) (os : List Operand) : Option Instr :=
  if cs = ['C', 'L', 'E', 'A', 'R'] then noOperand .clear os
  else if cs = ['G', 'O', 'T', 'O', 'C', 'H', 'U', 'N', 'K'] then twoNumbers .gotochunk os
  else if cs = ['W', 'R', 'B', 'Y', 'T', 'E'] then wrbyteOperand os
  else if cs = ['B', 'L', 'I', 'T', 'F', 'U', 'L', 'L'] then oneNumber .blitfull os
  else if cs = ['W', 'R', 'C', 'H', 'A', 'R'] then wrcharOperand os
  else if cs = ['W', 'R', 'S', 'T', 'R'] then twoNumbers .wrstr os
  else if cs = ['G', 'O', 'T', 'O', 'C', 'H', 'A', 'R'] then twoNumbers .gotochar os
  else if cs = ['F', 'L', 'U', 'S', 'H'] then noOperand .flush os
  else if cs = ['I', 'N', 'I', 'T'] then oneNumber .init os
  else if cs = ['D', 'E', 'C', 'O', 'D', 'E'] then decodeOperands os
  else none

/-- What one line assembles to. -/
inductive Assembled where
  /-- Nothing but blanks and a comment: DESIGN CHOICE (log entry 17). -/
  | blank
  | descriptor (d : Descriptor)
  /-- No command of R99, or an operand that does not fit its field. -/
  | refused
deriving DecidableEq, Repr

/-- R99: assemble one line. -/
def assembleLine (line : List Char) : Assembled :=
  match tokens line [] with
  | [] => .blank
  | .word cs :: ts =>
    match parseOperands ts with
    | none => .refused
    | some os =>
      match parseCommand cs os with
      | none => .refused
      | some i => if i.wellFormed then .descriptor (encode i) else .refused
  | .literal _ :: _ => .refused
  | .comma :: _ => .refused

end Sys2Proof.Machine
end

