-- ==== Sys2Proof/Safety.lean ====
section
/-! DEFINITION. What holds of every state a run reaches: the legal values of R20's table and the invariants the spec
states (R25, R26, R29, R37, R38), with the canonical form of host memory. -/

namespace Sys2Proof.Machine

/-- The invariant of the machine. -/
structure State.Inv (s : State) : Prop where
  /-- R38. -/
  cursor_le : s.cursor.toNat ≤ 504
  /-- R25: FBCORE also keeps `DSTART ≤ 503`. -/
  dstart_le : s.dstart.toNat ≤ 503
  /-- R25. -/
  range_ordered : s.dstart.toNat ≤ s.dend.toNat
  /-- R25. -/
  dend_le : s.dend.toNat ≤ 504
  /-- R26: `A` is hardwired to 0. -/
  area_zero : s.dkind.area = false
  /-- R37. -/
  idle_empty : s.dkind.range = false → s.dstart = s.dend
  /-- R29. -/
  contrast_le : s.contrast.toNat ≤ 127
  /-- R230: no command can cause `NOT_IMPLEMENTED`. -/
  result_raised : s.result ≠ .notImplemented
  /-- The canonical form of host memory. -/
  hostMem_wf : Memory.wf s.hostMem

/-! The terms the statements about WRSTR use (R163), read off the string's bytes. -/

/-- The characters of the string: the bytes before the first 0x00. -/
def stringBody (bs : List Byte) : List Byte := bs.takeWhile fun b => b != 0x00

/-- How many characters stand before the first one that has no glyph (R160). -/
def stringGood (bs : List Byte) : Nat := ((stringBody bs).takeWhile fun b => glyphValid b.toNat).length

/-- How many characters are written from a cursor: those before the first that has no glyph, as far as cells of six
columns fit (R161). -/
def stringWritten (bs : List Byte) (cursor : Nat) : Nat := min (stringGood bs) ((504 - cursor) / 6)

/-- R163, R234: the result of the first character that fails, or `OK`. -/
def stringResult (bs : List Byte) (cursor : Nat) : ResultCode :=
  if stringWritten bs cursor < stringGood bs then .bufferFull
  else if stringGood bs < (stringBody bs).length then .invalidGlyph
  else .ok

/-- The pixel byte at `j` after `n` characters of the string `bs` are written from cursor `p` (R161). -/
def stringPixel (s : State) (bs : List Byte) (p n j : Nat) (before : Byte) : Byte :=
  if p ≤ j ∧ j < p + 6 * n then
    if (j - p) % 6 < 5 then glyphByte s (bs.getD ((j - p) / 6) 0).toNat ((j - p) % 6) else 0x00
  else before

end Sys2Proof.Machine
end

