-- ==== Sys2Proof/Certificates/Slice0/Obligations.lean ====
section
/-! DEFINITION. The statements for the provers. A frame is written as an equation between states: `t` is `s` with the
named fields changed, so every field that is not named is as before, host memory included. Where a field's new value is
described byte by byte it stands as `t`'s own field in that equation and the description follows. -/

open Sys2Proof Sys2Proof.Machine

/-! Encoding. -/

/-- R90 to R95, R99: no bit of a well-formed command is dropped between its descriptor and the decoder. -/
def Obligations.DecodeOfEncodeIsTheCommand : Prop :=
  ∀ i : Instr, i.wellFormed = true → decode (encode i) = .ok i

/-- The other direction (R91, R93, R97): a legal W0 stands for exactly one command, whose own W0 is that word, and whose
operands fit their fields. -/
def Obligations.LegalWordIsItsCommandsWord : Prop :=
  ∀ (d : Descriptor) (i : Instr), decode d = .ok i → i.wellFormed = true ∧ (encode i).w0 = d.w0

/-- R98: a descriptor is legal exactly when its W0 under the mask of the one row whose opcode it has gives that row's
match, and it is then that row's command. -/
def Obligations.LegalExactlyByTheOpcodeTable : Prop :=
  opcodeTable.map TableRow.mask =
      [0xFFFFFFFF, 0xFF0000FF, 0xFFFF00FF, 0xFFFFFFFF, 0xFFFF00FF, 0xFFFFFFFF, 0xFF0000FF, 0xFFFFFFFF, 0xFFFF00FF,
        0xFE0000FF] ∧
    opcodeTable.Pairwise (fun p q => field p.pattern 7 0 ≠ field q.pattern 7 0) ∧
    (∀ (d : Descriptor) (i : Instr), decode d = .ok i →
      ∃ row ∈ opcodeTable, row.mnemonic = i.mnemonic ∧ field row.pattern 7 0 = field d.w0 7 0 ∧
        d.w0 &&& row.mask = row.pattern) ∧
    ∀ (d : Descriptor) (row : TableRow), row ∈ opcodeTable → field row.pattern 7 0 = field d.w0 7 0 →
      d.w0 &&& row.mask = row.pattern → ∃ i, decode d = .ok i ∧ i.mnemonic = row.mnemonic

/-- R90, R94: a word a command does not use is ignored. -/
def Obligations.UnusedWordsAreIgnored : Prop :=
  ∀ w0 w1 w2 w3 v1 v2 v3 : Word,
    (field w0 7 0 ∈ [1, 2, 3, 5, 7, 8, 9] → decode ⟨w0, w1, w2, w3⟩ = decode ⟨w0, v1, v2, v3⟩) ∧
      (field w0 7 0 = 4 → decode ⟨w0, w1, w2, w3⟩ = decode ⟨w0, w1, v2, v3⟩) ∧
      (field w0 7 0 = 6 → decode ⟨w0, w1, w2, w3⟩ = decode ⟨w0, w1, w2, v3⟩) ∧
      (field w0 7 0 = 10 → field w0 24 24 = 0 → decode ⟨w0, w1, w2, w3⟩ = decode ⟨w0, w1, w2, v3⟩)

/-- R96 (with R95): which descriptors are illegal, read off W0 alone, and that an illegal one does nothing but report
`ILLEGAL_COMMAND`. Where another agent writes host memory meanwhile (R72), see `RacedBytesAreFree`. -/
def Obligations.IllegalDescriptorOnlyReports : Prop :=
  ∀ (d : Descriptor) (s : State) (rest : List HostEvent), s.port = .command d :: rest →
    ((field d.w0 7 0 = 0 ∨ 0x0B ≤ field d.w0 7 0 ∨ field d.w0 31 25 ≠ 0 ∨
        (field d.w0 7 0 ∈ [1, 4, 6, 8] ∧ (field d.w0 15 8 ≠ 0 ∨ field d.w0 23 16 ≠ 0 ∨ field d.w0 24 24 ≠ 0)) ∨
        (field d.w0 7 0 ∈ [3, 5, 9] ∧ (field d.w0 23 16 ≠ 0 ∨ field d.w0 24 24 ≠ 0)) ∨
        (field d.w0 7 0 ∈ [2, 7] ∧ field d.w0 24 24 ≠ 0)) ↔
      ∃ r, decode d = .error r) ∧
    ((∃ r, decode d = .error r) → s.races = [] →
      step s = .next
        { s with port := rest, result := .illegalCommand, returned := s.returned ++ [.illegalCommand] })

/-- R101: the encoding examples: what each line assembles to, and the command its words decode to. -/
def Obligations.EncodingExamplesOfTheSpec : Prop :=
  (assembleLine "CLEAR".toList = .descriptor ⟨0x00000001, 0, 0, 0⟩ ∧
    assembleLine "GOTOCHUNK 10, 1".toList = .descriptor ⟨0x00010A02, 0, 0, 0⟩ ∧
    assembleLine "WRBYTE 0x55".toList = .descriptor ⟨0x00005503, 0, 0, 0⟩ ∧
    assembleLine "WRCHAR 'A'".toList = .descriptor ⟨0x00004105, 0, 0, 0⟩ ∧
    assembleLine "GOTOCHAR 13, 5".toList = .descriptor ⟨0x00050D07, 0, 0, 0⟩ ∧
    assembleLine "FLUSH".toList = .descriptor ⟨0x00000008, 0, 0, 0⟩ ∧
    assembleLine "INIT 200".toList = .descriptor ⟨0x0000C809, 0, 0, 0⟩ ∧
    assembleLine "DECODE 83, 5, FB, 0x1000, 9".toList =
      .descriptor ⟨0x0005530A, 0x00001000, 0x00000009, 0⟩ ∧
    assembleLine "DECODE 5, 2, MEM, 0x1000, 7, 0x3000".toList =
      .descriptor ⟨0x0102050A, 0x00001000, 0x00000007, 0x00003000⟩) ∧
    decode ⟨0x00000001, 0, 0, 0⟩ = .ok .clear ∧
    decode ⟨0x00010A02, 0, 0, 0⟩ = .ok (.gotochunk 10 1) ∧
    decode ⟨0x00005503, 0, 0, 0⟩ = .ok (.wrbyte 0x55) ∧
    decode ⟨0x00004105, 0, 0, 0⟩ = .ok (.wrchar 65) ∧
    decode ⟨0x00050D07, 0, 0, 0⟩ = .ok (.gotochar 13 5) ∧
    decode ⟨0x00000008, 0, 0, 0⟩ = .ok .flush ∧
    decode ⟨0x0000C809, 0, 0, 0⟩ = .ok (.init 200) ∧
    decode ⟨0x0005530A, 0x00001000, 0x00000009, 0⟩ = .ok (.decode 83 5 .fb 0x1000 9) ∧
    decode ⟨0x0102050A, 0x00001000, 0x00000007, 0x00003000⟩ = .ok (.decode 5 2 (.mem 0x3000) 0x1000 7)

/-- R99: whatever a line of text assembles to is a legal descriptor, that of a command whose operands fit their fields; an
operand that does not fit is refused; one that fits but is out of the command's range assembles. The details of spacing,
letter case, numbers and quotes are the model's choice (log entry 17); no clause here depends on them. -/
def Obligations.AssemblerOutputIsLegal : Prop :=
  (∀ (line : List Char) (d : Descriptor), assembleLine line = .descriptor d →
      ∃ i : Instr, i.wellFormed = true ∧ d = encode i ∧ decode d = .ok i) ∧
    assembleLine "GOTOCHUNK 300, 0".toList = .refused ∧
    assembleLine "GOTOCHUNK 84, 0".toList = .descriptor ⟨0x00005402, 0, 0, 0⟩

/-- R65 (3): descriptor words carried as bytes are little-endian. That W0 comes first, and that only a string of 16
bytes is a descriptor on such a platform, is the model's choice (log entry 16). -/
def Obligations.DescriptorBytesAreLittleEndian : Prop :=
  (∀ d : Descriptor, decodeBytes d.toBytes = decode d) ∧
    (∀ (w : Word) (k : Nat), k < 4 → (bytesOfWord w)[k]? = some (BitVec.ofNat 8 (w.toNat / 2 ^ (8 * k)))) ∧
    ∀ bs : List Byte, bs.length ≠ 16 → decodeBytes bs = .error .length

/-! The step. -/

/-- R10, R70, R90: a step runs the command the next descriptor stands for, on the state with the descriptor taken from
the port. Where other agents wrote host memory during it (R72), the races settle after it; where none did, `exec` is
the whole step. -/
def Obligations.StepRunsTheDecodedCommand : Prop :=
  ∀ (s : State) (d : Descriptor) (rest : List HostEvent) (i : Instr),
    s.port = .command d :: rest → decode d = .ok i →
      (s.races = [] → step s = exec i { s with port := rest }) ∧
        (∀ t, exec i { s with port := rest } = .next t → step s = .next (settleRaces t)) ∧
        ∀ r, exec i { s with port := rest } = .refused r → step s = .refused r

/-- R31, R260, R271: what a step does that runs no command. With nothing pending FBCORE keeps its state (that this is a
step is the model's choice, log entry 6); a readback read gives its value to the Host and changes nothing of FBCORE; a
write to the readback port is ignored; and that another agent is going to write host memory during the next command
changes nothing by itself (log entry 8). -/
def Obligations.NoCommandNoEffect : Prop :=
  ∀ (s : State) (rest : List HostEvent),
    (s.port = [] → step s = .next s) ∧
      (∀ off, s.port = .read off :: rest →
        step s = .next { s with port := rest, readLog := s.readLog ++ [readback s off] }) ∧
      (∀ off v, s.port = .write off v :: rest → step s = .next { s with port := rest }) ∧
      ∀ addrs, s.port = .race addrs :: rest →
        step s = .next { s with port := rest, races := s.races ++ addrs.map (·.toNat) }

/-- R30: the readback map. Offset 0x000 gives `RESULT` as the number R230 gives each code. -/
def Obligations.ReadbackPortMap : Prop :=
  ∀ s : State,
    readback s 0x000 = s.result.code.setWidth 32 ∧
      (readback s 0x000).toNat =
        (match s.result with
        | .ok => 0
        | .outOfRange => 1
        | .bufferFull => 2
        | .transportFailure => 3
        | .decodeError => 4
        | .invalidGlyph => 5
        | .notImplemented => 6
        | .illegalCommand => 7
        | .busError => 8) ∧
      (readback s 0x004).toNat = s.cursor.toNat ∧
      (readback s 0x008).toNat = s.dstart.toNat ∧
      (readback s 0x00C).toNat = s.dend.toNat ∧
      (readback s 0x010).toNat = (if s.dkind.range then 1 else 0) + (if s.dkind.area then 2 else 0) ∧
      (readback s 0x014).toNat = s.contrast.toNat ∧
      (∀ (i : Nat) (h : i < 504), (readback s (BitVec.ofNat 12 (0x400 + i))).toNat = (s.fb[i]).toNat) ∧
      ∀ off : BitVec 12, off.toNat ∉ [0x000, 0x004, 0x008, 0x00C, 0x010, 0x014] →
        ¬ (0x400 ≤ off.toNat ∧ off.toNat ≤ 0x5F7) → readback s off = 0

/-! Reset. -/

/-- R41: the registers right after reset; and `GLYPH`, which is constant, is no part of it. -/
def Obligations.RegistersAfterReset : Prop :=
  State.reset.cursor = 0 ∧ State.reset.dstart = 0 ∧ State.reset.dend = 0 ∧ State.reset.dkind.word = 0 ∧
    State.reset.dkind.syncState = .idle ∧ State.reset.result.code = 0 ∧ State.reset.contrast = 0 ∧
    ∀ s : State, (resetCore s).glyph = s.glyph

/-- R260 (between commands), R261, R40: the reset input sets every register, leaves each byte of `FB` a free value of
its own, and touches nothing else: no host memory, no transaction, no glyph, no result. The free bytes are counted by
the model's own field `draws` (log entry 2). -/
def Obligations.ResetTouchesOnlyFbcore : Prop :=
  ∀ (s : State) (rest : List HostEvent), s.port = .reset :: rest →
    ∃ t, step s = .next t ∧
      t = { s with
        port := rest, fb := t.fb, cursor := 0, dstart := 0, dend := 0, dkind := ⟨false, false⟩, result := .ok,
        contrast := 0, draws := s.draws + 1 } ∧
      ∀ (i : Nat) (h : i < 504), t.fb[i] = Config.resetFb s.draws i

/-- R260, R261, R40, U17: a reset that arrives while a command runs abandons it with no result, keeps the transactions or
host-memory writes it had already made, which are a prefix in order and stop where the command would have stopped (R183,
R184), sets the reset values, and leaves each byte of `FB` a free value of its own. Three things are the model's choice:
that `k` counts answered transactions, one in flight and unanswered being no entry of the trace (log entry 9: every
clause about the trace rests on it); the counter `draws` of the free bytes (log entry 2); and the supply of answers (log
entry 4). Where another agent writes host memory meanwhile (R72, R63), that each listed and backed byte is left free and
every other byte is as the abandoned command left it is log entry 8's reading (DEDUCED). -/
def Obligations.ResetDuringCommandKeepsAPrefix : Prop :=
  ∀ (s : State) (d : Descriptor) (k : Nat) (rest : List HostEvent), s.port = .resetDuring d k :: rest →
    ∃ t, step s = .next t ∧
      t = { s with
        port := rest, fb := t.fb, cursor := 0, dstart := 0, dend := 0, dkind := ⟨false, false⟩, result := .ok,
        contrast := 0, hostMem := t.hostMem, trace := t.trace, races := [],
        answers := s.answers.drop (t.trace.length - s.trace.length),
        draws := s.draws + if s.races = [] then 1 else 2 } ∧
      (∀ (i : Nat) (h : i < 504), t.fb[i] = Config.resetFb (t.draws - 1) i) ∧
      (decode d = .ok .flush → s.dkind = ⟨false, false⟩ → t.trace = s.trace) ∧
      (decode d = .ok .flush → s.dkind = ⟨true, false⟩ → (∀ j < min k 3, answerAt s j = .ok) →
        t.trace = s.trace ++ ((flushTransactions s).take k).map (fun x => ⟨x, .ok⟩)) ∧
      (∀ n x, decode d = .ok .flush → s.dkind = ⟨true, false⟩ → n < k → (flushTransactions s)[n]? = some x →
        (∀ j < n, answerAt s j = .ok) → answerAt s n = .fail →
        t.trace = s.trace ++ ((flushTransactions s).take n).map (fun y => ⟨y, .ok⟩) ++ [⟨x, .fail⟩]) ∧
      (∀ c, decode d = .ok (.init c) → (∀ j < min k (Config.initCmds (min c 127)).length, answerAt s j = .ok) →
        t.trace = s.trace ++ ((Config.initCmds (min c 127)).take k).map (fun b => ⟨.cmd b, .ok⟩)) ∧
      (∀ c n, decode d = .ok (.init c) → n < k → (∀ j < n, answerAt s j = .ok) → answerAt s n = .fail →
        t.trace = s.trace ++ ((Config.initCmds (min c 127)).take n).map (fun b => ⟨.cmd b, .ok⟩) ++
          match (Config.initCmds (min c 127))[n]? with
          | some b => [⟨.cmd b, .fail⟩]
          | none => []) ∧
      ((∀ c, decode d ≠ .ok (.init c)) → decode d ≠ .ok .flush → t.trace = s.trace) ∧
      (∀ ox oy daddr addr len img, decode d = .ok (.decode ox oy (.mem daddr) addr len) → s.races = [] →
        validRange s addr len = true → validRange s daddr 504 = true → imageAt (.mem daddr) addr len s = some img →
        t.hostMem =
          ((blitWrites img ox oy).take k).foldl (fun m w => memWrite m (daddr + w.1) w.2) s.hostMem) ∧
      (∀ ox oy daddr addr len, decode d = .ok (.decode ox oy (.mem daddr) addr len) → s.races = [] →
        validRange s addr len = false ∨ validRange s daddr 504 = false ∨ imageAt (.mem daddr) addr len s = none →
        t.hostMem = s.hostMem) ∧
      (s.races = [] → (∀ ox oy daddr addr len, decode d ≠ .ok (.decode ox oy (.mem daddr) addr len)) →
        t.hostMem = s.hostMem) ∧
      (s.Inv →
        (∀ a ∈ s.races, hostValid s a = true → memRead t.hostMem a = Config.racedLeft s.draws a) ∧
          ∀ a, a ∉ s.races →
            (∀ ox oy daddr addr len, decode d = .ok (.decode ox oy (.mem daddr) addr len) →
              a < daddr ∨ daddr + 504 ≤ a) →
            memRead t.hostMem a = memRead s.hostMem a)

/-! The invariant. -/

/-- R25, R26, R29, R37, R38, R230 (a result code that a command can raise), with the canonical form of host memory (the
model's own, log entry 1): the invariant holds after reset. -/
def Obligations.InvariantHoldsAtReset : Prop := State.reset.Inv

/-- R25, R26, R29, R37, R38, R230, with the canonical form of host memory (the model's own, log entry 1): whatever the
Host does next, from every state that meets the invariant a step gives a state that meets it. -/
def Obligations.StepKeepsTheInvariant : Prop :=
  ∀ s t : State, s.Inv → step s = .next t → t.Inv

/-- R232, R270: nothing stops the machine: from every state that meets the invariant a step has a next state, whatever
the event, the command, its operands and the result before it. -/
def Obligations.StepAlwaysCompletes : Prop :=
  ∀ s : State, s.Inv → ∃ t, step s = .next t

/-- R239, R18: the one refusal of the machine is FLUSH with the Area flag set; no command ends in a fault. -/
def Obligations.TheOneRefusalIsFlushInArea : Prop :=
  (∀ s : State, s.dkind.area = true → exec .flush s = .refused .areaFlush) ∧
    (∀ (i : Instr) (s : State) (r : Refusal), exec i s = .refused r →
      i = .flush ∧ s.dkind.area = true ∧ r = .areaFlush) ∧
    ∀ (i : Instr) (s : State) (f : Fault), exec i s ≠ .fault f

/-- R231: every command, legal or illegal, writes its result code into `RESULT` and returns the same code, once; nothing
else writes `RESULT` but a reset, which sets 0. -/
def Obligations.EveryCommandReturnsItsResult : Prop :=
  (∀ (s t : State) (d : Descriptor) (rest : List HostEvent), s.port = .command d :: rest → step s = .next t →
      t.returned = s.returned ++ [t.result]) ∧
    (∀ (s t : State), (∀ d rest, s.port ≠ .command d :: rest) → step s = .next t →
      t.returned = s.returned ∧
        (t.result = s.result ∨ t.result.code = 0 ∧
          ((∃ rest, s.port = .reset :: rest) ∨ ∃ d k rest, s.port = .resetDuring d k :: rest))) ∧
    State.reset.result.code = 0

/-! The FrameBuffer commands. -/

/-- R130 `TRACK_GOTO(pos)`. -/
def Obligations.TrackGotoExtendsTheRange : Prop :=
  ∀ (s : State) (pos : Nat), pos ≤ 503 →
    (trackGoto pos s).cursor.toNat = pos ∧
      (trackGoto pos s).dstart.toNat = min s.dstart.toNat pos ∧
      (trackGoto pos s).dend.toNat = max s.dend.toNat pos ∧
      (trackGoto pos s).dkind.range = true ∧
      (s.dstart.toNat ≤ s.dend.toNat → s.dend.toNat ≤ 504 →
        (trackGoto pos s).dstart.toNat ≤ (trackGoto pos s).dend.toNat ∧ (trackGoto pos s).dend.toNat ≤ 504) ∧
      trackGoto pos s =
        { s with
          cursor := (trackGoto pos s).cursor, dstart := (trackGoto pos s).dstart, dend := (trackGoto pos s).dend,
          dkind := { s.dkind with range := true } }

/-- R131 `PUT(v)`. -/
def Obligations.PutStoresOrFails : Prop :=
  ∀ (s : State) (v : Byte),
    (504 ≤ s.cursor.toNat → put v s = (.bufferFull, s)) ∧
      (∀ h : s.cursor.toNat < 504, ∃ t, put v s = (.ok, t) ∧
        t = { s with fb := t.fb, cursor := t.cursor, dend := t.dend, dkind := { s.dkind with range := true } } ∧
        t.fb[s.cursor.toNat] = v ∧
        (∀ (j : Nat) (hj : j < 504), j ≠ s.cursor.toNat → t.fb[j] = s.fb[j]) ∧
        t.cursor.toNat = s.cursor.toNat + 1 ∧
        (s.cursor.toNat + 1 > s.dend.toNat → t.dend = t.cursor) ∧
        (s.cursor.toNat + 1 ≤ s.dend.toNat → t.dend = s.dend))

/-- R132: CLEAR from any state, with its frame. -/
def Obligations.ClearZeroesAndMarksAll : Prop :=
  ∀ s : State, ∃ t, exec .clear s = .next t ∧
    (∀ (i : Nat) (h : i < 504), t.fb[i] = 0x00) ∧
    t.cursor.toNat = 0 ∧ t.dstart.toNat = 0 ∧ t.dend.toNat = 504 ∧ t.dkind.range = true ∧ t.result = .ok ∧
    t = { s with
      fb := t.fb, cursor := t.cursor, dstart := t.dstart, dend := t.dend,
      dkind := { s.dkind with range := true }, result := .ok, returned := s.returned ++ [.ok] }

/-- R133: GOTOCHUNK, in range and out of range, each with its frame. -/
def Obligations.GotochunkMovesOrReports : Prop :=
  ∀ (s : State) (x y : Nat),
    (x ≤ 83 → y ≤ 5 → ∃ t, exec (.gotochunk x y) s = .next t ∧
      t.cursor.toNat = x + 84 * y ∧
      t.dstart.toNat = min s.dstart.toNat (x + 84 * y) ∧
      t.dend.toNat = max s.dend.toNat (x + 84 * y) ∧
      t = { s with
        cursor := t.cursor, dstart := t.dstart, dend := t.dend, dkind := { s.dkind with range := true },
        result := .ok, returned := s.returned ++ [.ok] }) ∧
    (83 < x ∨ 5 < y → exec (.gotochunk x y) s =
      .next { s with result := .outOfRange, returned := s.returned ++ [.outOfRange] })

/-- R134, R131: WRBYTE, with room and with none, each with its frame. -/
def Obligations.WrbyteStoresOrReports : Prop :=
  ∀ (s : State) (v : Byte),
    (∀ h : s.cursor.toNat < 504, ∃ t, exec (.wrbyte v) s = .next t ∧
      t.fb[s.cursor.toNat] = v ∧
      (∀ (j : Nat) (hj : j < 504), j ≠ s.cursor.toNat → t.fb[j] = s.fb[j]) ∧
      t.cursor.toNat = s.cursor.toNat + 1 ∧
      t.dend.toNat = max s.dend.toNat (s.cursor.toNat + 1) ∧
      t = { s with
        fb := t.fb, cursor := t.cursor, dend := t.dend, dkind := { s.dkind with range := true },
        result := .ok, returned := s.returned ++ [.ok] }) ∧
    (504 ≤ s.cursor.toNat → exec (.wrbyte v) s =
      .next { s with result := .bufferFull, returned := s.returned ++ [.bufferFull] })

/-- R135: BLITFULL copies the 504 host bytes, marks everything, and leaves `CURSOR` and host memory alone. Its invalid
range is in `InvalidRangeIsBusError`; what `hostRead` gives where another agent writes the range (R72) is in
`ConcurrentlyWrittenRangeIsFree`. -/
def Obligations.BlitfullCopiesAndMarksAll : Prop :=
  ∀ (s : State) (addr : Nat), validRange s addr 504 = true →
    ∃ t, exec (.blitfull addr) s = .next t ∧
      (∀ (i : Nat) (h : i < 504), t.fb[i] = hostRead (namedRanges (.blitfull addr)) s (addr + i)) ∧
      t.dstart.toNat = 0 ∧ t.dend.toNat = 504 ∧
      t = { s with
        fb := t.fb, dstart := t.dstart, dend := t.dend, dkind := { s.dkind with range := true },
        result := .ok, returned := s.returned ++ [.ok] }

/-- R22, R131: the byte a cursor write stores at index `c` is the column of eight pixels at display column `c mod 84` of
chunk-row `c div 84`, bit 0 topmost. -/
def Obligations.WrittenByteIsAPixelColumn : Prop :=
  ∀ (s t : State) (v : Byte) (k : Nat), s.cursor.toNat < 504 → exec (.wrbyte v) s = .next t → k < 8 →
    pixel t (s.cursor.toNat % 84) (8 * (s.cursor.toNat / 84) + k) = v.getLsbD k

/-! The TextRenderer commands. -/

/-- R161 `CHAR(c)`: the glyph check, then the room check, each with no effect; else the net effect. -/
def Obligations.CharWritesACellOrNothing : Prop :=
  ∀ (s : State) (c : Nat),
    (c < 32 ∨ 126 < c → putChar c s = (.invalidGlyph, s)) ∧
      (32 ≤ c → c ≤ 126 → 504 < s.cursor.toNat + 6 → putChar c s = (.bufferFull, s)) ∧
      (32 ≤ c → c ≤ 126 → s.cursor.toNat + 6 ≤ 504 → ∃ t, putChar c s = (.ok, t) ∧
        (∀ k < 5, t.fb[s.cursor.toNat + k]? = s.glyph[(c - 32) * 5 + k]?) ∧
        t.fb[s.cursor.toNat + 5]? = some 0x00 ∧
        (∀ (j : Nat) (hj : j < 504), j < s.cursor.toNat ∨ s.cursor.toNat + 6 ≤ j → t.fb[j] = s.fb[j]) ∧
        t.cursor.toNat = s.cursor.toNat + 6 ∧
        t.dend.toNat = max s.dend.toNat (s.cursor.toNat + 6) ∧
        t = { s with fb := t.fb, cursor := t.cursor, dend := t.dend, dkind := { s.dkind with range := true } })

/-- R162, R160, R234: WRCHAR on every code, the bad code before the full buffer, with its frame. -/
def Obligations.WrcharWritesACellOrReports : Prop :=
  ∀ (s : State) (c : Nat),
    (c < 32 ∨ 126 < c → exec (.wrchar c) s =
      .next { s with result := .invalidGlyph, returned := s.returned ++ [.invalidGlyph] }) ∧
    (32 ≤ c → c ≤ 126 → 498 < s.cursor.toNat → exec (.wrchar c) s =
      .next { s with result := .bufferFull, returned := s.returned ++ [.bufferFull] }) ∧
    (32 ≤ c → c ≤ 126 → s.cursor.toNat ≤ 498 → ∃ t, exec (.wrchar c) s = .next t ∧
      (∀ k < 5, t.fb[s.cursor.toNat + k]? = s.glyph[(c - 32) * 5 + k]?) ∧
      t.fb[s.cursor.toNat + 5]? = some 0x00 ∧
      (∀ (j : Nat) (hj : j < 504), j < s.cursor.toNat ∨ s.cursor.toNat + 6 ≤ j → t.fb[j] = s.fb[j]) ∧
      t.cursor.toNat = s.cursor.toNat + 6 ∧
      t.dend.toNat = max s.dend.toNat (s.cursor.toNat + 6) ∧
      t = { s with
        fb := t.fb, cursor := t.cursor, dend := t.dend, dkind := { s.dkind with range := true },
        result := .ok, returned := s.returned ++ [.ok] })

/-- R163: WRSTR on every valid range, whatever its bytes: how many characters are written and where, the cursor, the
high bound, `R`, the result, and the frame. `stringWritten`, `stringResult` and `stringPixel` (Safety.lean) read these
off the string's bytes. -/
def Obligations.WrstrWritesUpToTheFirstFailure : Prop :=
  ∀ (s : State) (addr len : Nat), validRange s addr len = true →
    ∃ t n, exec (.wrstr addr len) s = .next t ∧
      n = stringWritten (hostBytes s addr len) s.cursor.toNat ∧
      t.result = stringResult (hostBytes s addr len) s.cursor.toNat ∧
      (∀ (j : Nat) (hj : j < 504),
        t.fb[j] = stringPixel s (hostBytes s addr len) s.cursor.toNat n j s.fb[j]) ∧
      t.cursor.toNat = s.cursor.toNat + 6 * n ∧
      (n = 0 → t.dend = s.dend ∧ t.dkind = s.dkind) ∧
      (0 < n → t.dend.toNat = max s.dend.toNat (s.cursor.toNat + 6 * n) ∧
        t.dkind = { s.dkind with range := true }) ∧
      t = { s with
        fb := t.fb, cursor := t.cursor, dend := t.dend, dkind := t.dkind, result := t.result,
        returned := s.returned ++ [t.result] }

/-- R166: a string of `L` valid characters written at the origin. -/
def Obligations.StringAtTheOrigin : Prop :=
  ∀ (s : State) (addr len L : Nat), s.Inv → validRange s addr len = true →
    (stringBody (hostBytes s addr len)).length = L →
    (∀ b ∈ stringBody (hostBytes s addr len), 32 ≤ b.toNat ∧ b.toNat ≤ 126) →
    ∃ t u, exec (.gotochunk 0 0) s = .next t ∧ exec (.wrstr addr len) t = .next u ∧
      u.cursor.toNat = 6 * min L 84 ∧ u.dstart.toNat = 0 ∧
      u.dend.toNat = max s.dend.toNat (6 * min L 84) ∧
      (s.dend.toNat ≤ 6 * L → L ≤ 84 → u.dend.toNat = 6 * L) ∧
      (L ≤ 84 → u.result = .ok) ∧ (84 < L → u.result = .bufferFull)

/-- R164, R100: GOTOCHAR, in range and out of range, each with its frame; and its effect is that of GOTOCHUNK at
`(6·x, y)`. -/
def Obligations.GotocharMovesByCells : Prop :=
  ∀ (s : State) (x y : Nat),
    (x ≤ 13 → y ≤ 5 → ∃ t, exec (.gotochar x y) s = .next t ∧
      t.cursor.toNat = 6 * x + 84 * y ∧
      t.dstart.toNat = min s.dstart.toNat (6 * x + 84 * y) ∧
      t.dend.toNat = max s.dend.toNat (6 * x + 84 * y) ∧
      t = { s with
        cursor := t.cursor, dstart := t.dstart, dend := t.dend, dkind := { s.dkind with range := true },
        result := .ok, returned := s.returned ++ [.ok] }) ∧
    (13 < x ∨ 5 < y → exec (.gotochar x y) s =
      .next { s with result := .outOfRange, returned := s.returned ++ [.outOfRange] }) ∧
    exec (.gotochar x y) s = exec (.gotochunk (6 * x) y) s

/-! The range over several commands. -/

/-- R136: between two FLUSHes that complete with `OK` the range grows in both bounds; only such a FLUSH moves it up. -/
def Obligations.RangeGrowsUntilFlush : Prop :=
  ∀ (i : Instr) (s t : State), s.Inv → exec i s = .next t → (i = .flush → t.result ≠ .ok ∨ s.dkind.range = false) →
    t.dstart.toNat ≤ s.dstart.toNat ∧ s.dend.toNat ≤ t.dend.toNat

/-- R137: a goto, by chunk or by character cell, to a position `pos` at or past the high bound leaves `pos` outside the
range, which is then `[min(DSTART, pos), pos)`; and a cursor write that follows brings it inside. -/
def Obligations.GotoLeavesItsPositionOutside : Prop :=
  ∀ (i : Instr) (s t u : State) (x y pos : Nat) (v : Byte),
    (i = .gotochunk x y ∧ x ≤ 83 ∧ y ≤ 5 ∧ pos = x + 84 * y) ∨
      (i = .gotochar x y ∧ x ≤ 13 ∧ y ≤ 5 ∧ pos = 6 * x + 84 * y) →
    s.dend.toNat ≤ pos → exec i s = .next t → exec (.wrbyte v) t = .next u →
      (t.dstart.toNat = min s.dstart.toNat pos ∧ t.dend.toNat = pos) ∧
      ¬ (t.dstart.toNat ≤ pos ∧ pos < t.dend.toNat) ∧ u.dstart.toNat ≤ pos ∧ pos < u.dend.toNat

/-- R264: two gotos, to `p` and then to `q`, mark `[p, q)` with no pixel byte written; and no goto brings index 503
inside the range. -/
def Obligations.TwoGotosMarkTheBytesBetween : Prop :=
  (∀ (s : State) (p q : Nat), p ≤ q → q ≤ 503 →
      ∃ t u, exec (.gotochunk (p % 84) (p / 84)) s = .next t ∧ exec (.gotochunk (q % 84) (q / 84)) t = .next u ∧
        u.dstart.toNat ≤ p ∧ q ≤ u.dend.toNat ∧ u.dkind.range = true ∧ u.cursor.toNat = q ∧ u.fb = s.fb ∧
        u.dstart.toNat = min s.dstart.toNat p ∧ u.dend.toNat = max s.dend.toNat q) ∧
    ∀ (i : Instr) (s t : State), exec i s = .next t →
      ((∃ x y, i = .gotochunk x y) ∨ ∃ x y, i = .gotochar x y) → s.dend.toNat ≤ 503 → t.dend.toNat ≤ 503

/-- R138: a cursor write at `c` leaves `c` inside the range exactly when the low bound was at or below `c`; a goto,
CLEAR or BLITFULL that completes makes the low bound at or below the cursor, and every command but FLUSH keeps it
so. -/
def Obligations.CursorWriteIsCovered : Prop :=
  (∀ (s t : State) (v : Byte), s.cursor.toNat < 504 → exec (.wrbyte v) s = .next t →
      (t.dstart.toNat ≤ s.cursor.toNat ∧ s.cursor.toNat < t.dend.toNat ↔ s.dstart.toNat ≤ s.cursor.toNat)) ∧
    (∀ (i : Instr) (s t : State), exec i s = .next t → t.result = .ok →
      (i = .clear ∨ (∃ x y, i = .gotochunk x y) ∨ (∃ x y, i = .gotochar x y) ∨ ∃ a, i = .blitfull a) →
      t.dstart.toNat ≤ t.cursor.toNat) ∧
    ∀ (i : Instr) (s t : State), exec i s = .next t → i ≠ .flush → s.dstart.toNat ≤ s.cursor.toNat →
      t.dstart.toNat ≤ t.cursor.toNat

/-- R36: what sets the Range flag and what clears it. -/
def Obligations.WhatChangesTheRangeFlag : Prop :=
  ∀ (i : Instr) (s t : State), s.Inv → exec i s = .next t →
    (t.result = .ok →
      (i = .clear ∨ (∃ x y, i = .gotochunk x y) ∨ (∃ x y, i = .gotochar x y) ∨ (∃ v, i = .wrbyte v) ∨
        (∃ c, i = .wrchar c) ∨ ∃ a, i = .blitfull a) → t.dkind.range = true) ∧
      (∀ addr len, i = .wrstr addr len →
        t.dkind.range = (s.dkind.range || (t.result != .busError &&
          decide (0 < stringWritten (hostBytes s addr len) s.cursor.toNat)))) ∧
      (s.dkind.range = true → t.dkind.range = false → i = .flush ∧ t.result = .ok) ∧
      (i = .flush → s.dkind.range = true → (∀ k < 3, answerAt s k = .ok) → t.dkind.range = false) ∧
      (i = .flush → (∃ k < 3, answerAt s k = .fail) → t.dkind = s.dkind) ∧
      (i = .flush → s.dkind.range = false → t.dkind = s.dkind) ∧
      (((∃ c, i = .init c) ∨ ∃ ox oy d addr len, i = .decode ox oy d addr len) → t.dkind = s.dkind) ∧
      (t.result ≠ .ok → (∀ addr len, i ≠ .wrstr addr len) → t.dkind = s.dkind)

/-! The SyncEngine commands. -/

/-- R180, R182: FLUSH in Idle does nothing; in RangeDirty with every answer `OK` it issues the X command, the Y command
and one burst of the range's bytes in index order, empties the range at `DEND mod 504`, and goes to Idle. -/
def Obligations.FlushSendsTheRange : Prop :=
  ∀ s : State,
    (s.dkind = ⟨false, false⟩ → exec .flush s =
      .next { s with result := .ok, returned := s.returned ++ [.ok] }) ∧
    (s.dkind = ⟨true, false⟩ → s.dend.toNat ≤ 504 → (∀ k < 3, answerAt s k = .ok) →
      ∃ t bs, exec .flush s = .next t ∧
        t.trace = s.trace ++
          [⟨.cmd (Config.cmdSetX (s.dstart.toNat % 84)), .ok⟩, ⟨.cmd (Config.cmdSetY (s.dstart.toNat / 84)), .ok⟩,
            ⟨.data bs, .ok⟩] ∧
        bs.length = s.dend.toNat - s.dstart.toNat ∧
        (∀ k < s.dend.toNat - s.dstart.toNat, bs[k]? = s.fb[s.dstart.toNat + k]?) ∧
        t.dstart.toNat = s.dend.toNat % 504 ∧ t.dend.toNat = s.dend.toNat % 504 ∧
        t = { s with
          dstart := t.dstart, dend := t.dend, dkind := ⟨false, false⟩, result := .ok,
          returned := s.returned ++ [.ok], trace := t.trace, answers := s.answers.drop 3 })

/-- R183: FLUSH stops at the first transaction answered `FAIL`, issues none after it, changes no register but `RESULT`,
and a later FLUSH has the whole range to send again. -/
def Obligations.FlushStopsAtTheFirstFailure : Prop :=
  ∀ (s : State) (k : Nat) (x : Transaction), s.dkind = ⟨true, false⟩ → (flushTransactions s)[k]? = some x →
    (∀ j < k, answerAt s j = .ok) → answerAt s k = .fail →
    ∃ t, exec .flush s = .next t ∧
      t = { s with
        result := .transportFailure, returned := s.returned ++ [.transportFailure],
        trace := s.trace ++ ((flushTransactions s).take k).map (fun y => ⟨y, .ok⟩) ++ [⟨x, .fail⟩],
        answers := s.answers.drop (k + 1) } ∧
      flushTransactions t = flushTransactions s

/-- R185: of two FLUSHes with nothing between them, the second issues nothing when the first returned `OK`; when the first
returned `TRANSPORT_FAILURE` the second transmits the same range again: where its three answers are `OK` it issues the
transactions the first had to issue, completes with `OK` and leaves the range empty. -/
def Obligations.SecondFlushIsANoOp : Prop :=
  ∀ s t : State, s.Inv → s.dkind.range = true → exec .flush s = .next t →
    (t.result = .ok → exec .flush t = .next { t with result := .ok, returned := t.returned ++ [.ok] }) ∧
      (t.result = .transportFailure → t.dkind.range = true ∧ flushTransactions t = flushTransactions s ∧
        ((∀ k < 3, answerAt t k = .ok) → ∃ u, exec .flush t = .next u ∧ u.result = .ok ∧
          u.trace = t.trace ++ (flushTransactions s).map (fun x => ⟨x, .ok⟩) ∧
          u.dkind.range = false ∧ u.dstart = u.dend))

/-- R186: how many transactions a FLUSH issues. -/
def Obligations.FlushTransactionCount : Prop :=
  ∀ s t : State, s.Inv → exec .flush s = .next t →
    (s.dkind.range = false → t.trace = s.trace) ∧
      (s.dkind.range = true → t.result = .ok → ∃ b0 b1 bs,
        t.trace = s.trace ++ [⟨.cmd b0, .ok⟩, ⟨.cmd b1, .ok⟩, ⟨.data bs, .ok⟩] ∧
          bs.length = s.dend.toNat - s.dstart.toNat ∧ bs.length ≤ 504) ∧
      (t.result = .transportFailure → ∃ sent x,
        t.trace = s.trace ++ sent ++ [⟨x, .fail⟩] ∧ sent.length < 3 ∧ ∀ e ∈ sent, e.answer = .ok)

/-- R184: INIT sends the sequence of the clamped contrast and records it; an empty sequence sends nothing. -/
def Obligations.InitSendsAndRecordsContrast : Prop :=
  ∀ (s : State) (c : Nat), (∀ k < (Config.initCmds (min c 127)).length, answerAt s k = .ok) →
    ∃ t, exec (.init c) s = .next t ∧
      t.contrast.toNat = min c 127 ∧
      t = { s with
        contrast := t.contrast, result := .ok, returned := s.returned ++ [.ok],
        trace := s.trace ++ (Config.initCmds (min c 127)).map (fun b => ⟨.cmd b, .ok⟩),
        answers := s.answers.drop (Config.initCmds (min c 127)).length }

/-- R184: INIT against answers of which the one at `k` is the first `FAIL`. Where the sequence has a byte at `k`, INIT
stops there: later bytes are not sent and `CONTRAST` is unchanged. Where it has none, every byte of the sequence is
answered `OK` and INIT completes. (`INIT_CMDS` is a parameter, R8: no model can say how long it is.) -/
def Obligations.InitStopsAtTheFirstFailure : Prop :=
  ∀ (s : State) (c k : Nat), (∀ j < k, answerAt s j = .ok) → answerAt s k = .fail →
    exec (.init c) s = .next
      (match (Config.initCmds (min c 127))[k]? with
      | some b => { s with
          result := .transportFailure, returned := s.returned ++ [.transportFailure],
          trace := s.trace ++ ((Config.initCmds (min c 127)).take k).map (fun b => ⟨.cmd b, .ok⟩) ++ [⟨.cmd b, .fail⟩],
          answers := s.answers.drop (k + 1) }
      | none => { s with
          contrast := BitVec.ofNat 8 (min c 127), result := .ok, returned := s.returned ++ [.ok],
          trace := s.trace ++ (Config.initCmds (min c 127)).map (fun b => ⟨.cmd b, .ok⟩),
          answers := s.answers.drop (Config.initCmds (min c 127)).length })

/-- R262: the boot order INIT, CLEAR, FLUSH from any state, with every transaction answered `OK`. -/
def Obligations.BootSequence : Prop :=
  ∀ (s : State) (c : Nat), s.dkind.area = false →
    (∀ k < (Config.initCmds (min c 127)).length + 3, answerAt s k = .ok) →
    ∃ t u v, exec (.init c) s = .next t ∧ exec .clear t = .next u ∧ exec .flush u = .next v ∧
      t.result = .ok ∧ u.result = .ok ∧ v.result = .ok ∧
      v.dstart.toNat = 0 ∧ v.dend.toNat = 0 ∧ v.dkind.range = false ∧ v.cursor.toNat = 0 ∧
      v.contrast.toNat = min c 127 ∧ v.trace = s.trace ++
        ((Config.initCmds (min c 127)).map (fun b => ⟨.cmd b, .ok⟩) ++
          [⟨.cmd (Config.cmdSetX 0), .ok⟩, ⟨.cmd (Config.cmdSetY 0), .ok⟩, ⟨.data (List.replicate 504 0x00), .ok⟩])

/-- R263: a cursor write below the dirty range is stored but not sent by the FLUSH that follows. -/
def Obligations.WriteBelowTheRangeIsNotSent : Prop :=
  ∀ (s : State) (v : Byte), s.Inv → s.cursor.toNat < s.dstart.toNat → s.dstart = s.dend →
    (∀ k < 3, answerAt s k = .ok) →
    ∃ t u, exec (.wrbyte v) s = .next t ∧ exec .flush t = .next u ∧
      t.fb[s.cursor.toNat]? = some v ∧
      u.trace = s.trace ++
        [⟨.cmd (Config.cmdSetX (s.dstart.toNat % 84)), .ok⟩, ⟨.cmd (Config.cmdSetY (s.dstart.toNat / 84)), .ok⟩,
          ⟨.data [], .ok⟩] ∧
      u.dkind.range = false

/-! The ImageDecoder command. -/

/-- R113: the fields of the stream, read and written. -/
def Obligations.VarintFormat : Prop :=
  readVarint [] = none ∧
    (∀ (b0 : Byte) (rest : List Byte), b0.toNat < 128 → readVarint (b0 :: rest) = some (b0.toNat, rest)) ∧
    (∀ b0 : Byte, 128 ≤ b0.toNat → readVarint [b0] = none) ∧
    (∀ (b0 b1 : Byte) (rest : List Byte), 128 ≤ b0.toNat → b1.toNat < 128 →
      readVarint (b0 :: b1 :: rest) = some (b0.toNat % 128 + 128 * b1.toNat, rest)) ∧
    (∀ (b0 b1 : Byte) (rest : List Byte), 128 ≤ b0.toNat → 128 ≤ b1.toNat → readVarint (b0 :: b1 :: rest) = none) ∧
    ∀ (v : Nat) (rest : List Byte), v ≤ 16383 →
      readVarint (writeVarint v ++ rest) = some (v, rest) ∧ (writeVarint v).length = if v ≤ 127 then 1 else 2

/-- R203: the header is four fields, each in any form R113 allows; a nonzero `startOffset`, a width above 84 or a height
above 6 is an error, and any other header is accepted with the fill byte of its polarity (R204). A header of which a field
is missing or malformed is refused, whichever field it is. -/
def Obligations.HeaderValidation : Prop :=
  ∀ (polarityField widthField heightField offsetField : List Byte) (polarity w h startOffset : Nat),
    readVarint polarityField = some (polarity, []) → readVarint widthField = some (w, []) →
    readVarint heightField = some (h, []) → readVarint offsetField = some (startOffset, []) →
    (∀ rest : List Byte,
      readHeader (polarityField ++ widthField ++ heightField ++ offsetField ++ rest) =
        if startOffset = 0 ∧ w ≤ 84 ∧ h ≤ 6 then some (⟨if polarity = 0 then 0x00 else 0xFF, w, h⟩, rest) else none) ∧
    ∀ bad : List Byte, readVarint bad = none →
      readHeader bad = none ∧ readHeader (polarityField ++ bad) = none ∧
        readHeader (polarityField ++ widthField ++ bad) = none ∧
        readHeader (polarityField ++ widthField ++ heightField ++ bad) = none

/-- R206: the placement clamp. -/
def Obligations.PlacementClamp : Prop :=
  ∀ ox oy w h : Nat,
    place ox oy w h = (if ox + w > 84 then 84 - w else ox, if oy + h > 6 then 6 - h else oy) ∧
      (w ≤ 84 → h ≤ 6 → (place ox oy w h).1 + w ≤ 84 ∧ (place ox oy w h).2 + h ≤ 6)

/-- R67: when a host range is valid, and that a command which names one that is not raises `BUS_ERROR` and changes
nothing else (R135, R163, R201). -/
def Obligations.InvalidRangeIsBusError : Prop :=
  (∀ (s : State) (a n : Nat), validRange s a n = true ↔
      n = 0 ∨ a + n ≤ 4294967296 ∧ ∀ b, a ≤ b → b < a + n → hostValid s b = true) ∧
    (∀ (s : State) (addr : Nat), validRange s addr 504 = false →
      exec (.blitfull addr) s = .next { s with result := .busError, returned := s.returned ++ [.busError] }) ∧
    (∀ (s : State) (addr len : Nat), validRange s addr len = false →
      exec (.wrstr addr len) s = .next { s with result := .busError, returned := s.returned ++ [.busError] }) ∧
    (∀ (s : State) (ox oy addr len : Nat) (dst : Dest), validRange s addr len = false →
      exec (.decode ox oy dst addr len) s =
        .next { s with result := .busError, returned := s.returned ++ [.busError] }) ∧
    ∀ (s : State) (ox oy addr len daddr : Nat), validRange s daddr 504 = false →
      exec (.decode ox oy (.mem daddr) addr len) s =
        .next { s with result := .busError, returned := s.returned ++ [.busError] }

/-- R209, R233: a stream that does not parse ends DECODE with `DECODE_ERROR` and nothing written, to either
destination. So does a run that would pass the image's `w·h` columns (R205), explicit or blank: the pairs before it are
any whose columns do not fill the image, its lengths may have any form R113 allows, and what follows them may be
anything. -/
def Obligations.BadStreamWritesNothing : Prop :=
  (∀ (s : State) (ox oy addr len : Nat) (dst : Dest), validRange s addr len = true →
      (∀ daddr, dst = .mem daddr → validRange s daddr 504 = true) → imageAt dst addr len s = none →
      exec (.decode ox oy dst addr len) s =
        .next { s with result := .decodeError, returned := s.returned ++ [.decodeError] }) ∧
    ∀ (s : State) (polarity w h ox oy addr len : Nat) (dst : Dest) (pairs : List RunPair) (columns explicit : Nat)
        (run rest : List Byte),
      polarity ≤ 16383 → w ≤ 84 → h ≤ 6 → validRange s addr len = true →
      (∀ daddr, dst = .mem daddr → validRange s daddr 504 = true) →
      readBytes (namedRanges (.decode ox oy dst addr len)) s addr len = writeImage polarity w h pairs ++ run →
      columns = (pairs.flatMap (RunPair.columns 0x00)).length → columns < w * h →
      readVarint run = some (explicit, rest) →
      w * h - columns < explicit ∨
        (∃ literals blankField blank tail, rest = literals ++ blankField ++ tail ∧ literals.length = explicit ∧
          columns + explicit < w * h ∧ readVarint blankField = some (blank, []) ∧
          w * h - (columns + explicit) < blank) →
      exec (.decode ox oy dst addr len) s =
        .next { s with result := .decodeError, returned := s.returned ++ [.decodeError] }

/-- R207, R208: DECODE to `FB` puts each column at its canvas index, changes no other pixel byte, and changes no register
but `RESULT`: not the range, not `DKIND`, not `CURSOR`. -/
def Obligations.DecodeBlitsToFb : Prop :=
  ∀ (s : State) (ox oy addr len : Nat) (img : Image), validRange s addr len = true →
    imageAt .fb addr len s = some img →
    ∃ t, exec (.decode ox oy .fb addr len) s = .next t ∧
      (∀ r < img.height, ∀ c < img.width,
        ((place ox oy img.width img.height).2 + r) * 84 + (place ox oy img.width img.height).1 + c < 504 ∧
          t.fb[((place ox oy img.width img.height).2 + r) * 84 + (place ox oy img.width img.height).1 + c]? =
            img.cols[r * img.width + c]?) ∧
      (∀ (j : Nat) (hj : j < 504),
        (∀ r < img.height, ∀ c < img.width,
          j ≠ ((place ox oy img.width img.height).2 + r) * 84 + (place ox oy img.width img.height).1 + c) →
        t.fb[j] = s.fb[j]) ∧
      t = { s with fb := t.fb, result := .ok, returned := s.returned ++ [.ok] }

/-- R207: DECODE to the external canvas puts each column at the host address of its canvas index and changes no other
host byte, no pixel byte and no register but `RESULT`. Where another agent writes a range the command names that holds the
address, the byte may be overwritten (R72): `leftByte` is the column, and there a free value. -/
def Obligations.DecodeBlitsToHostMemory : Prop :=
  ∀ (s : State) (ox oy addr len daddr : Nat) (img : Image), Memory.wf s.hostMem → validRange s addr len = true →
    validRange s daddr 504 = true → imageAt (.mem daddr) addr len s = some img →
    ∃ t, exec (.decode ox oy (.mem daddr) addr len) s = .next t ∧
      (∀ r < img.height, ∀ c < img.width,
        some (memRead t.hostMem
          (daddr + (((place ox oy img.width img.height).2 + r) * 84 + (place ox oy img.width img.height).1 + c))) =
            (img.cols[r * img.width + c]?).map
              (leftByte (namedRanges (.decode ox oy (.mem daddr) addr len)) s
                (daddr + (((place ox oy img.width img.height).2 + r) * 84 +
                  (place ox oy img.width img.height).1 + c)))) ∧
      (s.races = [] → ∀ r < img.height, ∀ c < img.width,
        some (memRead t.hostMem
          (daddr + (((place ox oy img.width img.height).2 + r) * 84 + (place ox oy img.width img.height).1 + c))) =
            img.cols[r * img.width + c]?) ∧
      (∀ a : Nat,
        (∀ r < img.height, ∀ c < img.width,
          a ≠ daddr + (((place ox oy img.width img.height).2 + r) * 84 +
            (place ox oy img.width img.height).1 + c)) →
        memRead t.hostMem a = memRead s.hostMem a) ∧
      t = { s with hostMem := t.hostMem, result := .ok, returned := s.returned ++ [.ok] }

/-- R210: the canvas indices of an image that fits are `w·h` in number, all distinct and all on the canvas. -/
def Obligations.CanvasIndicesAreDistinct : Prop :=
  ∀ w h ox oy : Nat, w ≤ 84 → h ≤ 6 →
    (blitIndices w h (place ox oy w h).1 (place ox oy w h).2).length = w * h ∧
      (blitIndices w h (place ox oy w h).1 (place ox oy w h).2).Nodup ∧
      ∀ i ∈ blitIndices w h (place ox oy w h).1 (place ox oy w h).2, i < 504

/-- R115, R118, R205, R210, R202: a stream is read to its image's last column and not beyond. First, of a stream that
parses: its image fits the canvas and has all its columns; whatever stands in the place of the bytes that were not read,
nothing or anything, it parses to the same image and leaves that unread; and cut short before its last byte that is read
it does not parse. Then, where the reading ends: after the header of an image with no column; after the literals of an
explicit run that completes the image, whose blank length is not read and may be absent; and after the length of a blank
run that completes it. In each the bytes that follow are left unread, whatever they are. -/
def Obligations.StreamIsReadToItsLastColumn : Prop :=
  (∀ (bs rest : List Byte) (img : Image), readImage bs.length bs = some (img, rest) →
      (img.width ≤ 84 ∧ img.height ≤ 6 ∧ img.cols.length = img.width * img.height) ∧
        (∀ tail : List Byte, readImage (bs ++ tail).length (bs ++ tail) = some (img, rest ++ tail)) ∧
        (∀ stream tail : List Byte, stream = bs.take (bs.length - rest.length) ++ tail →
          readImage stream.length stream = some (img, tail)) ∧
        ∀ k < bs.length - rest.length, readImage (bs.take k).length (bs.take k) = none) ∧
    ∀ (polarity w h : Nat) (fill : Byte) (pairs : List RunPair) (columns stream tail : List Byte),
      polarity ≤ 16383 → w ≤ 84 → h ≤ 6 → fill = (if polarity = 0 then 0x00 else 0xFF) →
      columns = pairs.flatMap (RunPair.columns fill) →
      (w * h = 0 → stream = writeImage polarity w h [] ++ tail →
          readImage stream.length stream = some (⟨w, h, []⟩, tail)) ∧
        (∀ lengthField literals : List Byte, readVarint lengthField = some (literals.length, []) →
          columns.length < w * h → columns.length + literals.length = w * h →
          stream = writeImage polarity w h pairs ++ lengthField ++ literals ++ tail →
          readImage stream.length stream = some (⟨w, h, columns ++ literals⟩, tail)) ∧
        ∀ (lengthField literals blankField : List Byte) (blank : Nat),
          readVarint lengthField = some (literals.length, []) → readVarint blankField = some (blank, []) →
          columns.length + literals.length < w * h → columns.length + literals.length + blank = w * h →
          stream = writeImage polarity w h pairs ++ lengthField ++ literals ++ blankField ++ tail →
          readImage stream.length stream = some (⟨w, h, columns ++ literals ++ List.replicate blank fill⟩, tail)

/-- R211: the 1 by 1 image of the source writes exactly one byte. -/
def Obligations.OneByOneImage : Prop :=
  ∀ (s : State) (ox oy addr : Nat), oy ≤ 5 → validRange s addr 7 = true →
    hostBytes s addr 7 = [0x00, 0x01, 0x01, 0x00, 0x01, 0xAA, 0x00] →
    ∃ t, exec (.decode ox oy .fb addr 7) s = .next t ∧
      (ox ≤ 83 → t.fb[oy * 84 + ox]? = some 0xAA ∧
        ∀ (j : Nat) (hj : j < 504), j ≠ oy * 84 + ox → t.fb[j] = s.fb[j]) ∧
      (84 ≤ ox → t.fb[oy * 84 + 83]? = some 0xAA ∧
        ∀ (j : Nat) (hj : j < 504), j ≠ oy * 84 + 83 → t.fb[j] = s.fb[j]) ∧
      t = { s with fb := t.fb, result := .ok, returned := s.returned ++ [.ok] }

/-- R212: the round-trip law, for both destinations. A stream of header `(polarity, w, h, 0)` and pairs whose runs carry a
matrix of `w·h` bytes in row-major order, every field canonical, decodes to that matrix, placed by R206. The blank length
of the pair whose explicit run completes the image may stand in the stream or be absent, and any bytes may follow the
image (R115, R118). -/
def Obligations.ImageRoundTrip : Prop :=
  ∀ (s : State) (polarity w h ox oy addr len : Nat) (dst : Dest) (pairs : List RunPair)
      (literals tail matrix : List Byte) (fill : Byte),
    polarity ≤ 16383 → w ≤ 84 → h ≤ 6 → matrix.length = w * h → fill = (if polarity = 0 then 0x00 else 0xFF) →
    validRange s addr len = true →
    (pairs.flatMap (RunPair.columns fill) = matrix ∧
        readBytes (namedRanges (.decode ox oy dst addr len)) s addr len = writeImage polarity w h pairs ++ tail ∨
      pairs.flatMap (RunPair.columns fill) ++ literals = matrix ∧ literals ≠ [] ∧
        readBytes (namedRanges (.decode ox oy dst addr len)) s addr len =
          writeImage polarity w h pairs ++ writeVarint literals.length ++ literals ++ tail) →
    imageAt dst addr len s = some ⟨w, h, matrix⟩ ∧
      (dst = .fb → ∃ t, exec (.decode ox oy .fb addr len) s = .next t ∧ t.result = .ok ∧
        ∀ r < h, ∀ c < w,
          t.fb[((place ox oy w h).2 + r) * 84 + (place ox oy w h).1 + c]? = matrix[r * w + c]?) ∧
      ∀ daddr, dst = .mem daddr → validRange s daddr 504 = true → Memory.wf s.hostMem → s.races = [] →
        ∃ t, exec (.decode ox oy (.mem daddr) addr len) s = .next t ∧ t.result = .ok ∧
          ∀ r < h, ∀ c < w,
            some (memRead t.hostMem (daddr + (((place ox oy w h).2 + r) * 84 + (place ox oy w h).1 + c))) =
              matrix[r * w + c]?

/-! Whole-machine rules. -/

/-- R63, R110, R61, R8, R32: over every command, what is written where. Only DECODE with `DST` = 1 writes host memory,
only in its canvas; only FLUSH and INIT issue transactions; no command changes the glyph table, the backed addresses,
or what the Host has pending. -/
def Obligations.OnlyTheseCommandsReachOutside : Prop :=
  ∀ (i : Instr) (s t : State), s.Inv → exec i s = .next t →
    ((∀ ox oy daddr addr len, i ≠ .decode ox oy (.mem daddr) addr len) → t.hostMem = s.hostMem) ∧
      (∀ ox oy daddr addr len, i = .decode ox oy (.mem daddr) addr len →
        ∀ a, a < daddr ∨ daddr + 504 ≤ a → memRead t.hostMem a = memRead s.hostMem a) ∧
      (i ≠ .flush → (∀ c, i ≠ .init c) → t.trace = s.trace ∧ t.answers = s.answers) ∧
      (∃ sent, t.trace = s.trace ++ sent ∧ ∀ e ∈ sent, ∀ bs, e.tx = .data bs → bs.length ≤ 504) ∧
      t.glyph = s.glyph ∧ t.hostMap = s.hostMap ∧ t.port = s.port ∧ t.races = s.races ∧ t.readLog = s.readLog

/-- R9, R32, R67: the parameters that State holds are fixed for a run: no step of any kind changes them. -/
def Obligations.ParametersAreFixed : Prop :=
  ∀ s t : State, step s = .next t → t.glyph = s.glyph ∧ t.hostMap = s.hostMap

/-- R72, U2, R63, read through log entry 8: a host byte that another agent writes during a command, in a range the command
names or outside every one, holds a free value after it, if it is backed; every other host byte is what the command alone
leaves. R72 itself frees only what the command reads from, and leaves of its own writes in, a range written concurrently,
which is in `ConcurrentlyWrittenRangeIsFree`. The model's own, all of log entry 8: that a listed byte is free in or out of
a named range, and that every unlisted byte keeps what the command leaves (both DEDUCED from R63, the second unsafe for a
reader who holds that the other agent may write bytes outside the list); and that an illegal descriptor ends the races as
a command does (DESIGN CHOICE). -/
def Obligations.RacedBytesAreFree : Prop :=
  ∀ (s t : State) (d : Descriptor) (rest : List HostEvent), s.Inv → s.port = .command d :: rest →
    ((∃ i, decode d = .ok i ∧ exec i { s with port := rest } = .next t) ∨
      (∃ r, decode d = .error r) ∧
        t = { s with port := rest, result := .illegalCommand, returned := s.returned ++ [.illegalCommand] }) →
    ∃ u, step s = .next u ∧
      u = { t with hostMem := u.hostMem, races := [], draws := u.draws } ∧
      (∀ a, a ∉ s.races → memRead u.hostMem a = memRead t.hostMem a) ∧
      ∀ a, a ∈ s.races → hostValid s a = true → memRead u.hostMem a = Config.racedLeft s.draws a

/-- R63, R64: the Host's own store, one byte, where the address is backed, is what FBCORE reads next, and changes no
other byte. Storing where nothing is backed has no effect: the model's choice (log entry 13). -/
def Obligations.HostStoreIsReadBack : Prop :=
  ∀ (s : State) (a : Word) (v : Byte) (rest : List HostEvent), s.Inv → s.port = .store a v :: rest →
    ∃ t, step s = .next t ∧
      (hostValid s a.toNat = true → memRead t.hostMem a.toNat = v) ∧
      (∀ b, b ≠ a.toNat ∨ hostValid s a.toNat = false → memRead t.hostMem b = memRead s.hostMem b) ∧
      t = { s with port := rest, hostMem := t.hostMem }

/-- R72, U2: where another agent writes any byte of a range that the command names, every byte the command reads from that
range is a free value, and every byte it writes there may be overwritten: a free value too. In ranges that no other agent
writes, and everywhere else, a read gives the stored byte and a write leaves the byte written. By command: BLITFULL fills
`FB` with free values; WRSTR's string is free bytes; DECODE's stream is free bytes, wherever the stream range is written
concurrently, and where the canvas is, free in the part of the stream it overlaps; and what DECODE writes to the canvas is
left free. The model's own, of log entry 8: that an address two named ranges hold is free when either is written, and that
elsewhere a read gives the stored byte and a write leaves the byte written (DEDUCED from R72 and R63); and that the field
`draws` counts the free bytes (DESIGN CHOICE). -/
def Obligations.ConcurrentlyWrittenRangeIsFree : Prop :=
  (∀ (named : List HostRegion) (s : State) (a : Nat) (v : Byte),
      ((∃ r ∈ named, (r.base ≤ a ∧ a < r.base + r.size) ∧ ∃ b ∈ s.races, r.base ≤ b ∧ b < r.base + r.size) →
        hostRead named s a = Config.racedRead s.draws a ∧ leftByte named s a v = Config.racedLeft s.draws a) ∧
      ((∀ r ∈ named, r.base ≤ a → a < r.base + r.size → ∀ b ∈ s.races, ¬ (r.base ≤ b ∧ b < r.base + r.size)) →
        hostRead named s a = memRead s.hostMem a ∧ leftByte named s a v = v)) ∧
    (∀ (s : State) (addr b : Nat), validRange s addr 504 = true → b ∈ s.races → addr ≤ b → b < addr + 504 →
      ∃ t, exec (.blitfull addr) s = .next t ∧
        ∀ (i : Nat) (h : i < 504), t.fb[i] = Config.racedRead s.draws (addr + i)) ∧
    (∀ (s : State) (addr len b : Nat), b ∈ s.races → addr ≤ b → b < addr + len →
      ∀ k < len, (hostBytes s addr len)[k]? = some (Config.racedRead s.draws (addr + k))) ∧
    (∀ (s : State) (dst : Dest) (addr len b : Nat), b ∈ s.races → addr ≤ b → b < addr + len →
      imageAt dst addr len s =
        (readImage len ((List.range len).map fun k => Config.racedRead s.draws (addr + k))).map (·.1)) ∧
    (∀ (s : State) (addr len daddr b k : Nat), b ∈ s.races → daddr ≤ b → b < daddr + 504 → k < len →
      daddr ≤ addr + k → addr + k < daddr + 504 →
      (readBytes (decodeRanges (.mem daddr) addr len) s addr len)[k]? =
        some (Config.racedRead s.draws (addr + k))) ∧
    ∀ (s : State) (ox oy addr len daddr b : Nat) (img : Image), Memory.wf s.hostMem → validRange s addr len = true →
      validRange s daddr 504 = true → imageAt (.mem daddr) addr len s = some img → b ∈ s.races → daddr ≤ b →
      b < daddr + 504 →
      ∃ t, exec (.decode ox oy (.mem daddr) addr len) s = .next t ∧
        ∀ i ∈ blitIndices img.width img.height (place ox oy img.width img.height).1
            (place ox oy img.width img.height).2,
          memRead t.hostMem (daddr + i) = Config.racedLeft s.draws (daddr + i)
end

