-- ==== Sys2Proof/Laws/Decode.lean ====
section
/-! SUPPORT. The descriptor's fields: what the encoder packs is what the decoder's fields read, W0 is its fields, and what
a legal descriptor's fields are, said once for every later proof. -/

namespace Sys2Proof

/-- R91: each field of a packed W0 is the operand that was packed there, and `RSV` is 0. -/
theorem packW0_fields {o a b d : Nat} (ho : o < 256) (ha : a < 256) (hb : b < 256) (hd : d < 2) :
    field (packW0 o a b d) 7 0 = o ∧ field (packW0 o a b d) 15 8 = a ∧ field (packW0 o a b d) 23 16 = b ∧
      field (packW0 o a b d) 24 24 = d ∧ field (packW0 o a b d) 31 25 = 0 := by
  simp only [field, packW0, BitVec.toNat_ofNat]
  norm_num
  omega

theorem opc_lt (d : Descriptor) : d.opc < 256 := Nat.mod_lt _ (by norm_num)
theorem fieldA_lt (d : Descriptor) : d.fieldA < 256 := Nat.mod_lt _ (by norm_num)
theorem fieldB_lt (d : Descriptor) : d.fieldB < 256 := Nat.mod_lt _ (by norm_num)
theorem fieldDst_lt (d : Descriptor) : d.fieldDst < 2 := Nat.mod_lt _ (by norm_num)
theorem fieldRsv_lt (d : Descriptor) : d.fieldRsv < 128 := Nat.mod_lt _ (by norm_num)

/-- R91: W0 is the sum of its five fields at their places. -/
theorem w0_toNat (d : Descriptor) :
    d.w0.toNat = d.opc + d.fieldA * 2 ^ 8 + d.fieldB * 2 ^ 16 + d.fieldDst * 2 ^ 24 + d.fieldRsv * 2 ^ 25 := by
  have := d.w0.isLt
  simp only [Descriptor.opc, Descriptor.fieldA, Descriptor.fieldB, Descriptor.fieldDst, Descriptor.fieldRsv, field]
  norm_num at *
  omega

/-- R91, R95: a W0 whose `RSV` is 0 is the packing of its fields. -/
theorem w0_eq_packW0 (d : Descriptor) (h : d.fieldRsv = 0) : d.w0 = packW0 d.opc d.fieldA d.fieldB d.fieldDst := by
  apply BitVec.eq_of_toNat_eq
  have h1 := w0_toNat d
  have h2 := d.w0.isLt
  rw [h] at h1
  simp only [packW0, BitVec.toNat_ofNat]
  norm_num at *
  omega

/-- R94, R95: what a legal descriptor's fields are, by command. -/
theorem decode_ok {d : Descriptor} {i : Instr} (h : decode d = .ok i) :
    d.fieldRsv = 0 ∧
      ((d.opc = 1 ∧ d.fieldA = 0 ∧ d.fieldB = 0 ∧ d.fieldDst = 0 ∧ i = .clear) ∨
        (d.opc = 2 ∧ d.fieldDst = 0 ∧ i = .gotochunk d.fieldA d.fieldB) ∨
        (d.opc = 3 ∧ d.fieldB = 0 ∧ d.fieldDst = 0 ∧ i = .wrbyte (BitVec.ofNat 8 d.fieldA)) ∨
        (d.opc = 4 ∧ d.fieldA = 0 ∧ d.fieldB = 0 ∧ d.fieldDst = 0 ∧ i = .blitfull d.w1.toNat) ∨
        (d.opc = 5 ∧ d.fieldB = 0 ∧ d.fieldDst = 0 ∧ i = .wrchar d.fieldA) ∨
        (d.opc = 6 ∧ d.fieldA = 0 ∧ d.fieldB = 0 ∧ d.fieldDst = 0 ∧ i = .wrstr d.w1.toNat d.w2.toNat) ∨
        (d.opc = 7 ∧ d.fieldDst = 0 ∧ i = .gotochar d.fieldA d.fieldB) ∨
        (d.opc = 8 ∧ d.fieldA = 0 ∧ d.fieldB = 0 ∧ d.fieldDst = 0 ∧ i = .flush) ∨
        (d.opc = 9 ∧ d.fieldB = 0 ∧ d.fieldDst = 0 ∧ i = .init d.fieldA) ∨
        (d.opc = 10 ∧ i = .decode d.fieldA d.fieldB d.dest d.w1.toNat d.w2.toNat)) := by
  unfold decode at h
  split at h
  · cases h
  · next hr =>
    refine ⟨by simpa using hr, ?_⟩
    split at h <;> (try simp only [requireABDst, requireBDst, requireDst] at h) <;>
      (try split at h) <;> (try split at h) <;> (try split at h) <;> cases h
    all_goals simp_all

/-- R14: a field equals a number when it has that number's bits. -/
theorem field_eq_iff (w : Word) (hi lo n : Nat) (hn : n < 2 ^ (hi + 1 - lo)) :
    field w hi lo = n ↔ ∀ i < hi + 1 - lo, w.getLsbD (lo + i) = n.testBit i := by
  constructor
  · rintro rfl i hi'
    simp [field, Nat.testBit_mod_two_pow, hi', Nat.testBit_div_two_pow, BitVec.getLsbD, Nat.add_comm]
  · intro h
    apply Nat.eq_of_testBit_eq
    intro i
    by_cases hi' : i < hi + 1 - lo
    · rw [← h i hi']
      simp [field, Nat.testBit_mod_two_pow, hi', Nat.testBit_div_two_pow, BitVec.getLsbD, Nat.add_comm]
    · rw [Nat.testBit_lt_two_pow (Nat.lt_of_lt_of_le hn (Nat.pow_le_pow_right (by norm_num) (by omega)))]
      simp [field, Nat.testBit_mod_two_pow, hi']

/-- R98: a word under a mask equals a pattern when their bits do. -/
theorem masked_eq_iff (w m p : Word) : w &&& m = p ↔ ∀ i < 32, (w.getLsbD i && m.getLsbD i) = p.getLsbD i := by
  constructor
  · rintro rfl i _; simp
  · intro h
    apply BitVec.eq_of_getLsbD_eq
    intro i hi
    rw [BitVec.getLsbD_and]
    exact h i hi

end Sys2Proof
end

