-- ==== Sys2Proof/Laws/Host.lean ====
section
/-! SUPPORT. What a command reads from and leaves in host memory (R64, R67, R72): the stored byte, and a free value
anywhere in a named range that another agent writes meanwhile. -/

namespace Sys2Proof.Machine

theorem inRegion_iff (r : HostRegion) (a : Nat) : inRegion r a = true ↔ r.base ≤ a ∧ a < r.base + r.size := by
  simp [inRegion]

/-- R72: a broken duty is one range that holds the address and a byte another agent writes. -/
theorem racedAt_iff (named : List HostRegion) (s : State) (a : Nat) :
    racedAt named s a = true ↔
      ∃ r ∈ named, (r.base ≤ a ∧ a < r.base + r.size) ∧ ∃ b ∈ s.races, r.base ≤ b ∧ b < r.base + r.size := by
  simp [racedAt, inRegion_iff]

/-- R72: with no other agent writing, no range is raced. -/
theorem racedAt_calm {s : State} (h : s.races = []) (named : List HostRegion) (a : Nat) : racedAt named s a = false := by
  simp [racedAt, h]

theorem hostRead_calm {s : State} (h : s.races = []) (named : List HostRegion) (a : Nat) :
    hostRead named s a = memRead s.hostMem a := by
  simp [hostRead, racedAt_calm h]

theorem leftByte_calm {s : State} (h : s.races = []) (named : List HostRegion) (a : Nat) (v : Byte) :
    leftByte named s a v = v := by
  simp [leftByte, racedAt_calm h]

theorem leftWrites_calm {s : State} (h : s.races = []) (named : List HostRegion) (d : Nat) (ws : List (Nat × Byte)) :
    leftWrites named d ws s = ws := by
  simp [leftWrites, leftByte_calm h]

/-- What a race leaves of canvas writes is at the same indices. -/
@[simp] theorem leftWrites_indices (named : List HostRegion) (d : Nat) (ws : List (Nat × Byte)) (s : State) :
    (leftWrites named d ws s).map (·.1) = ws.map (·.1) := by
  simp [leftWrites]

theorem mem_leftWrites {named : List HostRegion} {d : Nat} {ws : List (Nat × Byte)} {s : State} {w : Nat × Byte} :
    w ∈ leftWrites named d ws s ↔ ∃ v ∈ ws, w = (v.1, leftByte named s (d + v.1) v.2) := by
  simp [leftWrites, eq_comm]

theorem readBytes_length (named : List HostRegion) (s : State) (a n : Nat) : (readBytes named s a n).length = n := by
  induction n generalizing a with
  | zero => rfl
  | succ n ih => simp [readBytes, ih]

theorem readBytes_getElem (named : List HostRegion) (s : State) (a n k : Nat) (h : k < n) :
    (readBytes named s a n)[k]? = some (hostRead named s (a + k)) := by
  induction n generalizing a k with
  | zero => omega
  | succ n ih =>
    cases k with
    | zero => simp [readBytes]
    | succ k =>
      simp only [readBytes, List.getElem?_cons_succ]
      rw [ih (a + 1) k (by omega)]
      congr 2; omega

theorem hostBytes_length (s : State) (a n : Nat) : (hostBytes s a n).length = n := readBytes_length _ s a n

theorem hostBytes_getElem (s : State) (a n k : Nat) (h : k < n) :
    (hostBytes s a n)[k]? = some (hostRead [⟨a, n⟩] s (a + k)) := readBytes_getElem _ s a n k h

end Sys2Proof.Machine
end

