-- ==== Sys2Proof/Laws/Memory.lean ====
section
/-! SUPPORT. Host memory: a read after a write, every other address unchanged, and the canonical form kept. And the
pixel memory's write, read back byte by byte. -/

namespace Sys2Proof.Machine

/-- Reading the address just written gives the byte written. -/
@[simp] theorem memRead_memWrite_same (m : Memory) (a : Nat) (v : Byte) (h : Memory.wf m) :
    memRead (memWrite m a v) a = v := by
  induction m with
  | nil => by_cases hv : v = unlistedByte <;> simp [memWrite, memRead, hv]
  | cons c m ih =>
    obtain ⟨b, u⟩ := c
    have hp := List.pairwise_cons.1 h.1
    have hm : Memory.wf m := ⟨hp.2, fun c hc => h.2 c (List.mem_cons_of_mem _ hc)⟩
    have above : ∀ x : Nat, x ≤ b → memRead m x = unlistedByte := by
      intro x hx
      have : ∀ (l : Memory), (∀ c ∈ l, b < c.1) → memRead l x = unlistedByte := by
        intro l
        induction l with
        | nil => intro _; rfl
        | cons d l ihl =>
          intro hl
          have hd : b < d.1 := hl d (by simp)
          have : d.1 ≠ x := by omega
          simp [memRead, this, ihl fun c hc => hl c (by simp [hc])]
      exact this m hp.1
    rcases Nat.lt_trichotomy a b with hlt | heq | hgt
    · by_cases hv : v = unlistedByte
      · have : ¬ b = a := by omega
        simp [memWrite, memRead, hv, hlt, this, above a (by omega)]
      · simp [memWrite, memRead, hv, hlt]
    · subst heq
      by_cases hv : v = unlistedByte
      · simp [memWrite, hv, above a (by omega)]
      · simp [memWrite, memRead, hv]
    · have h1 : ¬ a < b := by omega
      have h2 : ¬ a = b := by omega
      have h3 : ¬ b = a := by omega
      simp [memWrite, memRead, h1, h2, h3, ih hm]

/-- Reading any other address gives what it gave before. -/
theorem memRead_memWrite_other (m : Memory) (a x : Nat) (v : Byte) (h : Memory.wf m) (hx : x ≠ a) :
    memRead (memWrite m a v) x = memRead m x := by
  induction m with
  | nil =>
    have : a ≠ x := fun e => hx e.symm
    by_cases hv : v = unlistedByte <;> simp [memWrite, memRead, hv, this]
  | cons c m ih =>
    obtain ⟨b, u⟩ := c
    have hp := List.pairwise_cons.1 h.1
    have hm : Memory.wf m := ⟨hp.2, fun c hc => h.2 c (List.mem_cons_of_mem _ hc)⟩
    have hax : a ≠ x := fun e => hx e.symm
    rcases Nat.lt_trichotomy a b with hlt | heq | hgt
    · by_cases hv : v = unlistedByte <;> simp [memWrite, memRead, hv, hlt, hax]
    · subst heq
      by_cases hv : v = unlistedByte <;> simp [memWrite, memRead, hv, hax]
    · have h1 : ¬ a < b := by omega
      have h2 : ¬ a = b := by omega
      have hw : memWrite ((b, u) :: m) a v = (b, u) :: memWrite m a v := by simp [memWrite, h1, h2]
      rw [hw]
      by_cases hb : b = x <;> simp [memRead, hb, ih hm]

/-- Every cell of a memory after a write was there before or is the cell written. -/
theorem mem_memWrite (m : Memory) (a : Nat) (v : Byte) (c : Host.Cell) (h : c ∈ memWrite m a v) :
    c ∈ m ∨ c = (a, v) ∧ v ≠ unlistedByte := by
  induction m with
  | nil =>
    by_cases hv : v = unlistedByte
    · simp [memWrite, hv] at h
    · simp [memWrite, hv] at h; exact .inr ⟨h, hv⟩
  | cons d m ih =>
    obtain ⟨b, u⟩ := d
    rcases Nat.lt_trichotomy a b with hlt | heq | hgt
    · by_cases hv : v = unlistedByte
      · simp [memWrite, hv, hlt] at h; simp [h]
      · simp [memWrite, hv, hlt] at h
        rcases h with h | h | h
        · exact .inr ⟨h, hv⟩
        · simp [h]
        · simp [h]
    · subst heq
      by_cases hv : v = unlistedByte
      · simp [memWrite, hv] at h; simp [h]
      · simp [memWrite, hv] at h
        rcases h with h | h
        · exact .inr ⟨h, hv⟩
        · simp [h]
    · have h1 : ¬ a < b := by omega
      have h2 : ¬ a = b := by omega
      simp [memWrite, h1, h2] at h
      rcases h with h | h
      · simp [h]
      · rcases ih h with h | h
        · simp [h]
        · exact .inr h

/-- A write inside the 32-bit space keeps the canonical form. -/
theorem memWrite_wf (m : Memory) (a : Nat) (v : Byte) (h : Memory.wf m) (ha : a < 4294967296) :
    Memory.wf (memWrite m a v) := by
  constructor
  · have hs := h.1
    clear h
    induction m with
    | nil => by_cases hv : v = unlistedByte <;> simp [memWrite, hv]
    | cons d m ih =>
      obtain ⟨b, u⟩ := d
      have hp := List.pairwise_cons.1 hs
      rcases Nat.lt_trichotomy a b with hlt | heq | hgt
      · by_cases hv : v = unlistedByte
        · simpa [memWrite, hv, hlt] using hs
        · simp only [memWrite, hlt, if_true, if_neg hv]
          refine List.pairwise_cons.2 ⟨?_, hs⟩
          intro c hc
          rcases List.mem_cons.1 hc with rfl | hc
          · exact hlt
          · exact Nat.lt_trans hlt (hp.1 c hc)
      · subst heq
        by_cases hv : v = unlistedByte
        · simpa [memWrite, hv] using hp.2
        · simp only [memWrite, Nat.lt_irrefl, if_false, if_true, if_neg hv]
          exact List.pairwise_cons.2 ⟨hp.1, hp.2⟩
      · have h1 : ¬ a < b := by omega
        have h2 : ¬ a = b := by omega
        simp only [memWrite, if_neg h1, if_neg h2]
        refine List.pairwise_cons.2 ⟨?_, ih hp.2⟩
        intro c hc
        rcases mem_memWrite m a v c hc with hc | ⟨rfl, -⟩
        · exact hp.1 c hc
        · exact hgt
  · intro c hc
    rcases mem_memWrite m a v c hc with hc | ⟨rfl, hv⟩
    · exact h.2 c hc
    · exact ⟨ha, hv⟩

/-- The empty memory is in canonical form. -/
theorem wf_nil : Memory.wf [] := ⟨List.Pairwise.nil, fun _ h => nomatch h⟩

/-- `fbWrite` is the library's write that ignores an index out of range. -/
theorem fbWrite_eq (fb : Vector Byte 504) (i : Nat) (v : Byte) : fbWrite fb i v = fb.setIfInBounds i v := by
  apply Vector.toList_inj.1
  simp [fbWrite, Vector.toList]

/-- The byte at `j` after a write at `i`. -/
@[simp] theorem fbWrite_getElem (fb : Vector Byte 504) (i j : Nat) (v : Byte) (hj : j < 504) :
    (fbWrite fb i v)[j] = if i = j then v else fb[j] := by
  simp [fbWrite_eq, Vector.getElem_setIfInBounds]

/-- A slice has as many bytes as its range, where the range is inside the pixel memory. -/
theorem fbSlice_length (fb : Vector Byte 504) (s e : Nat) (he : e ≤ 504) : (fbSlice fb s e).length = e - s := by
  simp [fbSlice]; omega

/-- Byte `k` of a slice is the pixel byte at `s + k`. -/
theorem fbSlice_getElem (fb : Vector Byte 504) (s e k : Nat) (h : k < e - s) (hk : s + k < 504) :
    (fbSlice fb s e)[k]? = some fb[s + k] := by
  simp [fbSlice, h, hk]

end Sys2Proof.Machine
end

