-- ==== Sys2Proof/Laws/State.lean ====
section
/-! SUPPORT. One lemma per field for each operation that updates the state and each of its results, so that no later proof
unfolds a record update. -/

namespace Sys2Proof.Machine

/-! `finish`. -/

@[simp] theorem finish_fb (code : ResultCode) (s : State) : (finish code s).fb = s.fb := rfl
@[simp] theorem finish_cursor (code : ResultCode) (s : State) : (finish code s).cursor = s.cursor := rfl
@[simp] theorem finish_dstart (code : ResultCode) (s : State) : (finish code s).dstart = s.dstart := rfl
@[simp] theorem finish_dend (code : ResultCode) (s : State) : (finish code s).dend = s.dend := rfl
@[simp] theorem finish_dkind (code : ResultCode) (s : State) : (finish code s).dkind = s.dkind := rfl
@[simp] theorem finish_result (code : ResultCode) (s : State) : (finish code s).result = code := rfl
@[simp] theorem finish_contrast (code : ResultCode) (s : State) : (finish code s).contrast = s.contrast := rfl
@[simp] theorem finish_glyph (code : ResultCode) (s : State) : (finish code s).glyph = s.glyph := rfl
@[simp] theorem finish_hostMem (code : ResultCode) (s : State) : (finish code s).hostMem = s.hostMem := rfl
@[simp] theorem finish_hostMap (code : ResultCode) (s : State) : (finish code s).hostMap = s.hostMap := rfl
@[simp] theorem finish_port (code : ResultCode) (s : State) : (finish code s).port = s.port := rfl
@[simp] theorem finish_answers (code : ResultCode) (s : State) : (finish code s).answers = s.answers := rfl
@[simp] theorem finish_races (code : ResultCode) (s : State) : (finish code s).races = s.races := rfl
@[simp] theorem finish_draws (code : ResultCode) (s : State) : (finish code s).draws = s.draws := rfl
@[simp] theorem finish_trace (code : ResultCode) (s : State) : (finish code s).trace = s.trace := rfl
@[simp] theorem finish_returned (code : ResultCode) (s : State) :
    (finish code s).returned = s.returned ++ [code] := rfl
@[simp] theorem finish_readLog (code : ResultCode) (s : State) : (finish code s).readLog = s.readLog := rfl

/-! `trackGoto`. -/

@[simp] theorem trackGoto_fb (pos : Nat) (s : State) : (trackGoto pos s).fb = s.fb := rfl
@[simp] theorem trackGoto_cursor (pos : Nat) (s : State) : (trackGoto pos s).cursor = BitVec.ofNat 16 pos := rfl
@[simp] theorem trackGoto_dstart (pos : Nat) (s : State) :
    (trackGoto pos s).dstart = BitVec.ofNat 16 (min s.dstart.toNat pos) := rfl
@[simp] theorem trackGoto_dend (pos : Nat) (s : State) :
    (trackGoto pos s).dend = BitVec.ofNat 16 (max s.dend.toNat pos) := rfl
@[simp] theorem trackGoto_dkind (pos : Nat) (s : State) : (trackGoto pos s).dkind = s.dkind.setRange := rfl
@[simp] theorem trackGoto_result (pos : Nat) (s : State) : (trackGoto pos s).result = s.result := rfl
@[simp] theorem trackGoto_contrast (pos : Nat) (s : State) : (trackGoto pos s).contrast = s.contrast := rfl
@[simp] theorem trackGoto_glyph (pos : Nat) (s : State) : (trackGoto pos s).glyph = s.glyph := rfl
@[simp] theorem trackGoto_hostMem (pos : Nat) (s : State) : (trackGoto pos s).hostMem = s.hostMem := rfl
@[simp] theorem trackGoto_hostMap (pos : Nat) (s : State) : (trackGoto pos s).hostMap = s.hostMap := rfl
@[simp] theorem trackGoto_port (pos : Nat) (s : State) : (trackGoto pos s).port = s.port := rfl
@[simp] theorem trackGoto_answers (pos : Nat) (s : State) : (trackGoto pos s).answers = s.answers := rfl
@[simp] theorem trackGoto_races (pos : Nat) (s : State) : (trackGoto pos s).races = s.races := rfl
@[simp] theorem trackGoto_draws (pos : Nat) (s : State) : (trackGoto pos s).draws = s.draws := rfl
@[simp] theorem trackGoto_trace (pos : Nat) (s : State) : (trackGoto pos s).trace = s.trace := rfl
@[simp] theorem trackGoto_returned (pos : Nat) (s : State) : (trackGoto pos s).returned = s.returned := rfl
@[simp] theorem trackGoto_readLog (pos : Nat) (s : State) : (trackGoto pos s).readLog = s.readLog := rfl

/-! `storeAtCursor`. -/

@[simp] theorem storeAtCursor_fb (v : Byte) (s : State) :
    (storeAtCursor v s).fb = fbWrite s.fb s.cursor.toNat v := rfl
@[simp] theorem storeAtCursor_cursor (v : Byte) (s : State) :
    (storeAtCursor v s).cursor = BitVec.ofNat 16 (s.cursor.toNat + 1) := rfl
@[simp] theorem storeAtCursor_dstart (v : Byte) (s : State) : (storeAtCursor v s).dstart = s.dstart := rfl
@[simp] theorem storeAtCursor_dend (v : Byte) (s : State) :
    (storeAtCursor v s).dend = if s.cursor.toNat + 1 > s.dend.toNat then BitVec.ofNat 16 (s.cursor.toNat + 1) else s.dend := rfl
@[simp] theorem storeAtCursor_dkind (v : Byte) (s : State) : (storeAtCursor v s).dkind = s.dkind.setRange := rfl
@[simp] theorem storeAtCursor_result (v : Byte) (s : State) : (storeAtCursor v s).result = s.result := rfl
@[simp] theorem storeAtCursor_contrast (v : Byte) (s : State) : (storeAtCursor v s).contrast = s.contrast := rfl
@[simp] theorem storeAtCursor_glyph (v : Byte) (s : State) : (storeAtCursor v s).glyph = s.glyph := rfl
@[simp] theorem storeAtCursor_hostMem (v : Byte) (s : State) : (storeAtCursor v s).hostMem = s.hostMem := rfl
@[simp] theorem storeAtCursor_hostMap (v : Byte) (s : State) : (storeAtCursor v s).hostMap = s.hostMap := rfl
@[simp] theorem storeAtCursor_port (v : Byte) (s : State) : (storeAtCursor v s).port = s.port := rfl
@[simp] theorem storeAtCursor_answers (v : Byte) (s : State) : (storeAtCursor v s).answers = s.answers := rfl
@[simp] theorem storeAtCursor_races (v : Byte) (s : State) : (storeAtCursor v s).races = s.races := rfl
@[simp] theorem storeAtCursor_draws (v : Byte) (s : State) : (storeAtCursor v s).draws = s.draws := rfl
@[simp] theorem storeAtCursor_trace (v : Byte) (s : State) : (storeAtCursor v s).trace = s.trace := rfl
@[simp] theorem storeAtCursor_returned (v : Byte) (s : State) : (storeAtCursor v s).returned = s.returned := rfl
@[simp] theorem storeAtCursor_readLog (v : Byte) (s : State) : (storeAtCursor v s).readLog = s.readLog := rfl

/-! `markAll`. -/

@[simp] theorem markAll_fb (s : State) : (markAll s).fb = s.fb := rfl
@[simp] theorem markAll_cursor (s : State) : (markAll s).cursor = s.cursor := rfl
@[simp] theorem markAll_dstart (s : State) : (markAll s).dstart = 0 := rfl
@[simp] theorem markAll_dend (s : State) : (markAll s).dend = 504 := rfl
@[simp] theorem markAll_dkind (s : State) : (markAll s).dkind = s.dkind.setRange := rfl
@[simp] theorem markAll_result (s : State) : (markAll s).result = s.result := rfl
@[simp] theorem markAll_contrast (s : State) : (markAll s).contrast = s.contrast := rfl
@[simp] theorem markAll_glyph (s : State) : (markAll s).glyph = s.glyph := rfl
@[simp] theorem markAll_hostMem (s : State) : (markAll s).hostMem = s.hostMem := rfl
@[simp] theorem markAll_hostMap (s : State) : (markAll s).hostMap = s.hostMap := rfl
@[simp] theorem markAll_port (s : State) : (markAll s).port = s.port := rfl
@[simp] theorem markAll_answers (s : State) : (markAll s).answers = s.answers := rfl
@[simp] theorem markAll_races (s : State) : (markAll s).races = s.races := rfl
@[simp] theorem markAll_draws (s : State) : (markAll s).draws = s.draws := rfl
@[simp] theorem markAll_trace (s : State) : (markAll s).trace = s.trace := rfl
@[simp] theorem markAll_returned (s : State) : (markAll s).returned = s.returned := rfl
@[simp] theorem markAll_readLog (s : State) : (markAll s).readLog = s.readLog := rfl

/-! `collapseRange`. -/

@[simp] theorem collapseRange_fb (s : State) : (collapseRange s).fb = s.fb := rfl
@[simp] theorem collapseRange_cursor (s : State) : (collapseRange s).cursor = s.cursor := rfl
@[simp] theorem collapseRange_dstart (s : State) :
    (collapseRange s).dstart = BitVec.ofNat 16 (s.dend.toNat % 504) := rfl
@[simp] theorem collapseRange_dend (s : State) : (collapseRange s).dend = BitVec.ofNat 16 (s.dend.toNat % 504) := rfl
@[simp] theorem collapseRange_dkind (s : State) : (collapseRange s).dkind = s.dkind.clearRange := rfl
@[simp] theorem collapseRange_result (s : State) : (collapseRange s).result = s.result := rfl
@[simp] theorem collapseRange_contrast (s : State) : (collapseRange s).contrast = s.contrast := rfl
@[simp] theorem collapseRange_glyph (s : State) : (collapseRange s).glyph = s.glyph := rfl
@[simp] theorem collapseRange_hostMem (s : State) : (collapseRange s).hostMem = s.hostMem := rfl
@[simp] theorem collapseRange_hostMap (s : State) : (collapseRange s).hostMap = s.hostMap := rfl
@[simp] theorem collapseRange_port (s : State) : (collapseRange s).port = s.port := rfl
@[simp] theorem collapseRange_answers (s : State) : (collapseRange s).answers = s.answers := rfl
@[simp] theorem collapseRange_races (s : State) : (collapseRange s).races = s.races := rfl
@[simp] theorem collapseRange_draws (s : State) : (collapseRange s).draws = s.draws := rfl
@[simp] theorem collapseRange_trace (s : State) : (collapseRange s).trace = s.trace := rfl
@[simp] theorem collapseRange_returned (s : State) : (collapseRange s).returned = s.returned := rfl
@[simp] theorem collapseRange_readLog (s : State) : (collapseRange s).readLog = s.readLog := rfl

/-! `hostWrite`. -/

@[simp] theorem hostWrite_fb (a : Nat) (v : Byte) (s : State) : (hostWrite a v s).fb = s.fb := rfl
@[simp] theorem hostWrite_cursor (a : Nat) (v : Byte) (s : State) : (hostWrite a v s).cursor = s.cursor := rfl
@[simp] theorem hostWrite_dstart (a : Nat) (v : Byte) (s : State) : (hostWrite a v s).dstart = s.dstart := rfl
@[simp] theorem hostWrite_dend (a : Nat) (v : Byte) (s : State) : (hostWrite a v s).dend = s.dend := rfl
@[simp] theorem hostWrite_dkind (a : Nat) (v : Byte) (s : State) : (hostWrite a v s).dkind = s.dkind := rfl
@[simp] theorem hostWrite_result (a : Nat) (v : Byte) (s : State) : (hostWrite a v s).result = s.result := rfl
@[simp] theorem hostWrite_contrast (a : Nat) (v : Byte) (s : State) : (hostWrite a v s).contrast = s.contrast := rfl
@[simp] theorem hostWrite_glyph (a : Nat) (v : Byte) (s : State) : (hostWrite a v s).glyph = s.glyph := rfl
@[simp] theorem hostWrite_hostMem (a : Nat) (v : Byte) (s : State) :
    (hostWrite a v s).hostMem = memWrite s.hostMem a v := rfl
@[simp] theorem hostWrite_hostMap (a : Nat) (v : Byte) (s : State) : (hostWrite a v s).hostMap = s.hostMap := rfl
@[simp] theorem hostWrite_port (a : Nat) (v : Byte) (s : State) : (hostWrite a v s).port = s.port := rfl
@[simp] theorem hostWrite_answers (a : Nat) (v : Byte) (s : State) : (hostWrite a v s).answers = s.answers := rfl
@[simp] theorem hostWrite_races (a : Nat) (v : Byte) (s : State) : (hostWrite a v s).races = s.races := rfl
@[simp] theorem hostWrite_draws (a : Nat) (v : Byte) (s : State) : (hostWrite a v s).draws = s.draws := rfl
@[simp] theorem hostWrite_trace (a : Nat) (v : Byte) (s : State) : (hostWrite a v s).trace = s.trace := rfl
@[simp] theorem hostWrite_returned (a : Nat) (v : Byte) (s : State) : (hostWrite a v s).returned = s.returned := rfl
@[simp] theorem hostWrite_readLog (a : Nat) (v : Byte) (s : State) : (hostWrite a v s).readLog = s.readLog := rfl

/-! `send`. -/

@[simp] theorem send_fb (t : Transaction) (s : State) : (send t s).2.fb = s.fb := rfl
@[simp] theorem send_cursor (t : Transaction) (s : State) : (send t s).2.cursor = s.cursor := rfl
@[simp] theorem send_dstart (t : Transaction) (s : State) : (send t s).2.dstart = s.dstart := rfl
@[simp] theorem send_dend (t : Transaction) (s : State) : (send t s).2.dend = s.dend := rfl
@[simp] theorem send_dkind (t : Transaction) (s : State) : (send t s).2.dkind = s.dkind := rfl
@[simp] theorem send_result (t : Transaction) (s : State) : (send t s).2.result = s.result := rfl
@[simp] theorem send_contrast (t : Transaction) (s : State) : (send t s).2.contrast = s.contrast := rfl
@[simp] theorem send_glyph (t : Transaction) (s : State) : (send t s).2.glyph = s.glyph := rfl
@[simp] theorem send_hostMem (t : Transaction) (s : State) : (send t s).2.hostMem = s.hostMem := rfl
@[simp] theorem send_hostMap (t : Transaction) (s : State) : (send t s).2.hostMap = s.hostMap := rfl
@[simp] theorem send_port (t : Transaction) (s : State) : (send t s).2.port = s.port := rfl
@[simp] theorem send_answers (t : Transaction) (s : State) : (send t s).2.answers = s.answers.tail := rfl
@[simp] theorem send_races (t : Transaction) (s : State) : (send t s).2.races = s.races := rfl
@[simp] theorem send_draws (t : Transaction) (s : State) : (send t s).2.draws = s.draws := rfl
@[simp] theorem send_trace (t : Transaction) (s : State) : (send t s).2.trace = s.trace ++ [⟨t, nextAnswer s⟩] := rfl
@[simp] theorem send_returned (t : Transaction) (s : State) : (send t s).2.returned = s.returned := rfl
@[simp] theorem send_readLog (t : Transaction) (s : State) : (send t s).2.readLog = s.readLog := rfl

/-! `readPort`. -/

@[simp] theorem readPort_fb (offset : BitVec 12) (s : State) : (readPort offset s).fb = s.fb := rfl
@[simp] theorem readPort_cursor (offset : BitVec 12) (s : State) : (readPort offset s).cursor = s.cursor := rfl
@[simp] theorem readPort_dstart (offset : BitVec 12) (s : State) : (readPort offset s).dstart = s.dstart := rfl
@[simp] theorem readPort_dend (offset : BitVec 12) (s : State) : (readPort offset s).dend = s.dend := rfl
@[simp] theorem readPort_dkind (offset : BitVec 12) (s : State) : (readPort offset s).dkind = s.dkind := rfl
@[simp] theorem readPort_result (offset : BitVec 12) (s : State) : (readPort offset s).result = s.result := rfl
@[simp] theorem readPort_contrast (offset : BitVec 12) (s : State) : (readPort offset s).contrast = s.contrast := rfl
@[simp] theorem readPort_glyph (offset : BitVec 12) (s : State) : (readPort offset s).glyph = s.glyph := rfl
@[simp] theorem readPort_hostMem (offset : BitVec 12) (s : State) : (readPort offset s).hostMem = s.hostMem := rfl
@[simp] theorem readPort_hostMap (offset : BitVec 12) (s : State) : (readPort offset s).hostMap = s.hostMap := rfl
@[simp] theorem readPort_port (offset : BitVec 12) (s : State) : (readPort offset s).port = s.port := rfl
@[simp] theorem readPort_answers (offset : BitVec 12) (s : State) : (readPort offset s).answers = s.answers := rfl
@[simp] theorem readPort_races (offset : BitVec 12) (s : State) : (readPort offset s).races = s.races := rfl
@[simp] theorem readPort_draws (offset : BitVec 12) (s : State) : (readPort offset s).draws = s.draws := rfl
@[simp] theorem readPort_trace (offset : BitVec 12) (s : State) : (readPort offset s).trace = s.trace := rfl
@[simp] theorem readPort_returned (offset : BitVec 12) (s : State) : (readPort offset s).returned = s.returned := rfl
@[simp] theorem readPort_readLog (offset : BitVec 12) (s : State) :
    (readPort offset s).readLog = s.readLog ++ [readback s offset] := rfl

/-! `startRaces`. -/

@[simp] theorem startRaces_fb (addrs : List Word) (s : State) : (startRaces addrs s).fb = s.fb := rfl
@[simp] theorem startRaces_cursor (addrs : List Word) (s : State) : (startRaces addrs s).cursor = s.cursor := rfl
@[simp] theorem startRaces_dstart (addrs : List Word) (s : State) : (startRaces addrs s).dstart = s.dstart := rfl
@[simp] theorem startRaces_dend (addrs : List Word) (s : State) : (startRaces addrs s).dend = s.dend := rfl
@[simp] theorem startRaces_dkind (addrs : List Word) (s : State) : (startRaces addrs s).dkind = s.dkind := rfl
@[simp] theorem startRaces_result (addrs : List Word) (s : State) : (startRaces addrs s).result = s.result := rfl
@[simp] theorem startRaces_contrast (addrs : List Word) (s : State) : (startRaces addrs s).contrast = s.contrast := rfl
@[simp] theorem startRaces_glyph (addrs : List Word) (s : State) : (startRaces addrs s).glyph = s.glyph := rfl
@[simp] theorem startRaces_hostMem (addrs : List Word) (s : State) : (startRaces addrs s).hostMem = s.hostMem := rfl
@[simp] theorem startRaces_hostMap (addrs : List Word) (s : State) : (startRaces addrs s).hostMap = s.hostMap := rfl
@[simp] theorem startRaces_port (addrs : List Word) (s : State) : (startRaces addrs s).port = s.port := rfl
@[simp] theorem startRaces_answers (addrs : List Word) (s : State) : (startRaces addrs s).answers = s.answers := rfl
@[simp] theorem startRaces_races (addrs : List Word) (s : State) :
    (startRaces addrs s).races = s.races ++ addrs.map (·.toNat) := rfl
@[simp] theorem startRaces_draws (addrs : List Word) (s : State) : (startRaces addrs s).draws = s.draws := rfl
@[simp] theorem startRaces_trace (addrs : List Word) (s : State) : (startRaces addrs s).trace = s.trace := rfl
@[simp] theorem startRaces_returned (addrs : List Word) (s : State) : (startRaces addrs s).returned = s.returned := rfl
@[simp] theorem startRaces_readLog (addrs : List Word) (s : State) : (startRaces addrs s).readLog = s.readLog := rfl

/-! `resetCore`. -/

@[simp] theorem resetCore_fb (s : State) : (resetCore s).fb = drawnFb s.draws := by simp only [resetCore]
@[simp] theorem resetCore_cursor (s : State) : (resetCore s).cursor = 0 := by simp only [resetCore]
@[simp] theorem resetCore_dstart (s : State) : (resetCore s).dstart = 0 := by simp only [resetCore]
@[simp] theorem resetCore_dend (s : State) : (resetCore s).dend = 0 := by simp only [resetCore]
@[simp] theorem resetCore_dkind (s : State) : (resetCore s).dkind = ⟨false, false⟩ := by simp only [resetCore]
@[simp] theorem resetCore_result (s : State) : (resetCore s).result = .ok := by simp only [resetCore]
@[simp] theorem resetCore_contrast (s : State) : (resetCore s).contrast = 0 := by simp only [resetCore]
@[simp] theorem resetCore_glyph (s : State) : (resetCore s).glyph = s.glyph := by simp only [resetCore]
@[simp] theorem resetCore_hostMem (s : State) : (resetCore s).hostMem = s.hostMem := by simp only [resetCore]
@[simp] theorem resetCore_hostMap (s : State) : (resetCore s).hostMap = s.hostMap := by simp only [resetCore]
@[simp] theorem resetCore_port (s : State) : (resetCore s).port = s.port := by simp only [resetCore]
@[simp] theorem resetCore_answers (s : State) : (resetCore s).answers = s.answers := by simp only [resetCore]
@[simp] theorem resetCore_races (s : State) : (resetCore s).races = s.races := by simp only [resetCore]
@[simp] theorem resetCore_draws (s : State) : (resetCore s).draws = s.draws + 1 := by simp only [resetCore]
@[simp] theorem resetCore_trace (s : State) : (resetCore s).trace = s.trace := by simp only [resetCore]
@[simp] theorem resetCore_returned (s : State) : (resetCore s).returned = s.returned := by simp only [resetCore]
@[simp] theorem resetCore_readLog (s : State) : (resetCore s).readLog = s.readLog := by simp only [resetCore]

/-! The two flags under the operations of `DKIND`. -/

@[simp] theorem setRange_range (k : DirtyKind) : k.setRange.range = true := rfl
@[simp] theorem setRange_area (k : DirtyKind) : k.setRange.area = k.area := rfl
@[simp] theorem clearRange_range (k : DirtyKind) : k.clearRange.range = false := rfl
@[simp] theorem clearRange_area (k : DirtyKind) : k.clearRange.area = k.area := rfl
@[simp] theorem setRange_setRange (k : DirtyKind) : k.setRange.setRange = k.setRange := rfl

/-- The answer a transaction gets is the next one. -/
@[simp] theorem send_answer (t : Transaction) (s : State) : (send t s).1 = nextAnswer s := rfl

end Sys2Proof.Machine
end

