-- ==== Sys2Proof/Laws/Image.lean ====
section
/-! SUPPORT. The readers of the image stream (R202 to R205), the canonical fields (R113) and the canvas writes (R207),
each described once. -/

namespace Sys2Proof.Machine

/-- A field takes at least one byte. -/
theorem readVarint_length {bs rest : List Byte} {v : Nat} (h : readVarint bs = some (v, rest)) :
    rest.length < bs.length := by
  unfold readVarint at h
  split at h
  · cases h
  · split at h
    · cases h; simp
    · split at h
      · cases h
      · split at h
        · cases h; simp only [List.length_cons]; omega
        · cases h

/-- Literals are the next bytes of the stream, as they stand. -/
theorem readLiterals_some {n : Nat} {bs lits rest : List Byte} (h : readLiterals n bs = some (lits, rest)) :
    lits.length = n ∧ bs = lits ++ rest := by
  induction n generalizing bs lits rest with
  | zero => simp [readLiterals] at h; obtain ⟨rfl, rfl⟩ := h; simp
  | succ n ih =>
    cases bs with
    | nil => simp [readLiterals] at h
    | cons b bs =>
      simp only [readLiterals] at h
      split at h
      · next l r hr =>
        cases h
        obtain ⟨h1, h2⟩ := ih hr
        simp [h1, h2]
      · cases h

theorem readLiterals_append (lits rest : List Byte) : readLiterals lits.length (lits ++ rest) = some (lits, rest) := by
  induction lits with
  | nil => rfl
  | cons b lits ih => simp [readLiterals, ih]

/-- A field that is read is read the same whatever follows it. -/
theorem readVarint_append {bs rest : List Byte} {v : Nat} (h : readVarint bs = some (v, rest)) (tail : List Byte) :
    readVarint (bs ++ tail) = some (v, rest ++ tail) := by
  unfold readVarint at h
  split at h
  · cases h
  · next b0 r =>
    split at h
    · next h0 => cases h; simp [readVarint, h0]
    · next h0 =>
      split at h
      · cases h
      · next b1 r' =>
        split at h
        · next h1 => cases h; simp [readVarint, h0, h1]
        · cases h

/-- R113: a canonical field reads back as its value, up to 16383. -/
theorem readVarint_writeVarint (v : Nat) (hv : v ≤ 16383) (rest : List Byte) :
    readVarint (writeVarint v ++ rest) = some (v, rest) := by
  unfold writeVarint
  by_cases h : v ≤ 127
  · have h1 : (BitVec.ofNat 8 v).toNat = v := by simp; omega
    rw [if_pos h]
    simp only [List.cons_append, List.nil_append, readVarint, h1]
    rw [if_pos (by omega)]
  · have h1 : (BitVec.ofNat 8 (128 + v % 128)).toNat = 128 + v % 128 := by simp; omega
    have h2 : (BitVec.ofNat 8 (v / 128)).toNat = v / 128 := by simp; omega
    rw [if_neg h]
    simp only [List.cons_append, List.nil_append, readVarint, h1, h2]
    rw [if_neg (by omega), if_pos (by omega)]
    congr 2; omega

/-- A pair takes at least one byte, and adds columns without passing the image's end. -/
theorem readPair_some {fill : Byte} {total : Nat} {cols bs out rest : List Byte}
    (h : readPair fill total cols bs = some (out, rest)) (hc : cols.length ≤ total) :
    rest.length < bs.length ∧ out.length ≤ total := by
  unfold readPair at h
  split at h
  · cases h
  · next e bs1 h1 =>
    have l1 := readVarint_length h1
    split at h
    · cases h
    · split at h
      · cases h
      · next lits bs2 h2 =>
        obtain ⟨l2, l3⟩ := readLiterals_some h2
        have l4 : bs1.length = lits.length + bs2.length := by rw [l3, List.length_append]
        split at h
        · cases h; simp only [List.length_append]; omega
        · split at h
          · cases h
          · next blank bs3 h3 =>
            have l5 := readVarint_length h3
            split at h
            · cases h
            · cases h; simp only [List.length_append, List.length_replicate]; omega

/-- A pair that is read is read the same whatever follows it. -/
theorem readPair_append {fill : Byte} {total : Nat} {cols bs out rest : List Byte}
    (h : readPair fill total cols bs = some (out, rest)) (tail : List Byte) :
    readPair fill total cols (bs ++ tail) = some (out, rest ++ tail) := by
  unfold readPair at h
  split at h
  · cases h
  · next e bs1 h1 =>
    have a1 := readVarint_append h1 tail
    split at h
    · cases h
    · next he =>
      split at h
      · cases h
      · next lits bs2 h2 =>
        obtain ⟨l2, l3⟩ := readLiterals_some h2
        have a2 : readLiterals e (bs1 ++ tail) = some (lits, bs2 ++ tail) := by
          rw [← l2, l3, List.append_assoc]; exact readLiterals_append _ _
        split at h
        · next hd => cases h; simp [readPair, a1, he, a2, hd]
        · next hd =>
          split at h
          · cases h
          · next blank bs3 h3 =>
            have a3 := readVarint_append h3 tail
            split at h
            · cases h
            · next hb => cases h; simp [readPair, a1, he, a2, hd, a3, hb]

/-- The bound on the number of pairs is never what ends the body: any bound of at least the stream's length gives the
same answer (log entry 14). -/
theorem readBody_fuel (fill : Byte) (total : Nat) (f g : Nat) (cols bs : List Byte) (hc : cols.length ≤ total)
    (hf : bs.length ≤ f) (hg : bs.length ≤ g) : readBody fill total f cols bs = readBody fill total g cols bs := by
  have dry : readPair fill total cols [] = none := rfl
  induction f generalizing g cols bs with
  | zero =>
    have : bs = [] := List.length_eq_zero_iff.1 (by omega)
    subst this
    cases g with
    | zero => rfl
    | succ g => simp [readBody, dry]
  | succ f ih =>
    cases g with
    | zero =>
      have : bs = [] := List.length_eq_zero_iff.1 (by omega)
      subst this
      simp [readBody, dry]
    | succ g =>
      simp only [readBody]
      split
      · rcases hp : readPair fill total cols bs with _ | ⟨cols', bs'⟩
        · rfl
        · obtain ⟨l1, l2⟩ := readPair_some hp hc
          exact ih g cols' bs' l2 (by omega) (by omega) rfl
      · rfl

/-- A body that is read has exactly `total` columns. -/
theorem readBody_length {fill : Byte} {total fuel : Nat} {cols bs out rest : List Byte}
    (h : readBody fill total fuel cols bs = some (out, rest)) (hc : cols.length ≤ total) : out.length = total := by
  induction fuel generalizing cols bs with
  | zero =>
    simp only [readBody] at h
    split at h
    · cases h
    · cases h; omega
  | succ fuel ih =>
    simp only [readBody] at h
    split at h
    · split at h
      · cases h
      · next hp => exact ih h (readPair_some hp hc).2
    · cases h; omega

/-- A body that is read is read the same whatever follows it, and with a larger bound. -/
theorem readBody_append {fill : Byte} {total fuel : Nat} {cols bs out rest : List Byte}
    (h : readBody fill total fuel cols bs = some (out, rest)) (tail : List Byte) (k : Nat) :
    readBody fill total (fuel + k) cols (bs ++ tail) = some (out, rest ++ tail) := by
  induction fuel generalizing cols bs with
  | zero =>
    simp only [readBody] at h
    split at h
    · cases h
    · next hc => cases h; cases k <;> simp [readBody, hc]
  | succ fuel ih =>
    simp only [readBody] at h
    rw [Nat.succ_add]
    split at h
    · next hc =>
      split at h
      · cases h
      · next hp => simp [readBody, hc, readPair_append hp tail, ih h]
    · next hc => cases h; simp [readBody, hc]

/-! What a reader takes is a front part of the stream, and reading that part does not depend on what follows it. -/

theorem readVarint_split {bs rest : List Byte} {v : Nat} (h : readVarint bs = some (v, rest)) :
    ∃ front, bs = front ++ rest ∧ ∀ tail, readVarint (front ++ tail) = some (v, tail) := by
  unfold readVarint at h
  split at h
  · cases h
  · next b0 r =>
    split at h
    · next h0 => cases h; exact ⟨[b0], rfl, fun tail => by simp [readVarint, h0]⟩
    · next h0 =>
      split at h
      · cases h
      · next b1 r' =>
        split at h
        · next h1 => cases h; exact ⟨[b0, b1], rfl, fun tail => by simp [readVarint, h0, h1]⟩
        · cases h

theorem readHeader_split {bs rest : List Byte} {hd : ImageHeader} (h : readHeader bs = some (hd, rest)) :
    ∃ front, bs = front ++ rest ∧ ∀ tail, readHeader (front ++ tail) = some (hd, tail) := by
  unfold readHeader at h
  split at h
  · cases h
  · next polarity bs1 h1 =>
    split at h
    · cases h
    · next w bs2 h2 =>
      split at h
      · cases h
      · next ht bs3 h3 =>
        split at h
        · cases h
        · next startOffset bs4 h4 =>
          split at h
          · cases h
          · next c1 =>
            split at h
            · cases h
            · next c2 =>
              cases h
              obtain ⟨f1, rfl, g1⟩ := readVarint_split h1
              obtain ⟨f2, rfl, g2⟩ := readVarint_split h2
              obtain ⟨f3, rfl, g3⟩ := readVarint_split h3
              obtain ⟨f4, rfl, g4⟩ := readVarint_split h4
              exact ⟨f1 ++ f2 ++ f3 ++ f4, by simp, fun tail => by
                simp only [readHeader, List.append_assoc, g1, g2, g3, g4, if_neg c1, if_neg c2]⟩

theorem readPair_split {fill : Byte} {total : Nat} {cols bs out rest : List Byte}
    (h : readPair fill total cols bs = some (out, rest)) :
    ∃ front, bs = front ++ rest ∧ ∀ tail, readPair fill total cols (front ++ tail) = some (out, tail) := by
  unfold readPair at h
  split at h
  · cases h
  · next e bs1 h1 =>
    obtain ⟨f1, rfl, g1⟩ := readVarint_split h1
    split at h
    · cases h
    · next he =>
      split at h
      · cases h
      · next lits bs2 h2 =>
        obtain ⟨l2, rfl⟩ := readLiterals_some h2
        subst l2
        split at h
        · next hd =>
          cases h
          exact ⟨f1 ++ lits, by simp, fun tail => by
            simp only [readPair, List.append_assoc, g1, if_neg he, readLiterals_append, if_pos hd]⟩
        · next hd =>
          split at h
          · cases h
          · next blank bs3 h3 =>
            obtain ⟨f3, rfl, g3⟩ := readVarint_split h3
            split at h
            · cases h
            · next hb =>
              cases h
              exact ⟨f1 ++ lits ++ f3, by simp, fun tail => by
                simp only [readPair, List.append_assoc, g1, if_neg he, readLiterals_append, if_neg hd, g3,
                  if_neg hb]⟩

/-- The same of the body, with any bound of at least the length of what it reads. -/
theorem readBody_split {fill : Byte} {total fuel : Nat} {cols bs out rest : List Byte}
    (h : readBody fill total fuel cols bs = some (out, rest)) (hc : cols.length ≤ total) :
    ∃ front, bs = front ++ rest ∧
      ∀ (tail : List Byte) (g : Nat), front.length ≤ g → readBody fill total g cols (front ++ tail) = some (out, tail) := by
  have done (hn : ¬ cols.length < total) (tail : List Byte) (g : Nat) :
      readBody fill total g cols tail = some (cols, tail) := by cases g <;> simp [readBody, hn]
  induction fuel generalizing cols bs with
  | zero =>
    simp only [readBody] at h
    split at h
    · cases h
    · next hn => cases h; exact ⟨[], rfl, fun tail g _ => done hn tail g⟩
  | succ fuel ih =>
    simp only [readBody] at h
    split at h
    · next hlt =>
      split at h
      · cases h
      · next cols' bs' hp =>
        obtain ⟨f1, rfl, g1⟩ := readPair_split hp
        obtain ⟨hl, hc'⟩ := readPair_some hp hc
        obtain ⟨f2, rfl, g2⟩ := ih h hc' fun hn tail g => by cases g <;> simp [readBody, hn]
        refine ⟨f1 ++ f2, by simp, fun tail g hg => ?_⟩
        simp only [List.length_append] at hg hl
        obtain ⟨g, rfl⟩ : ∃ k, g = k + 1 := ⟨g - 1, by omega⟩
        rw [readBody, if_pos hlt, List.append_assoc, g1]
        exact g2 tail g (by omega)
    · next hn => cases h; exact ⟨[], rfl, fun tail g _ => done hn tail g⟩

/-- The header's size fits the canvas (R203). -/
theorem readHeader_size {bs rest : List Byte} {hd : ImageHeader} (h : readHeader bs = some (hd, rest)) :
    hd.width ≤ 84 ∧ hd.height ≤ 6 := by
  unfold readHeader at h
  repeat' split at h
  all_goals cases h
  simp only; omega

/-- Pairs whose columns do not fill the image are all read, and the body goes on behind them (R205). -/
theorem readBody_pairs (fill : Byte) (total : Nat) (ht : total ≤ 504) (run : List Byte) (pairs : List RunPair)
    (fuel : Nat) (cols : List Byte)
    (h : cols.length + (pairs.flatMap (RunPair.columns fill)).length < total) :
    readBody fill total (pairs.length + fuel) cols (pairs.flatMap writePair ++ run) =
      readBody fill total fuel (cols ++ pairs.flatMap (RunPair.columns fill)) run := by
  induction pairs generalizing cols with
  | nil => simp
  | cons p ps ih =>
    have hl : ((p :: ps).flatMap (RunPair.columns fill)).length =
        p.explicit.length + p.blank + (ps.flatMap (RunPair.columns fill)).length := by
      simp [RunPair.columns]; omega
    rw [hl] at h
    have e1 : readVarint ((p :: ps).flatMap writePair ++ run) =
        some (p.explicit.length, p.explicit ++ (writeVarint p.blank ++ (ps.flatMap writePair ++ run))) := by
      simp only [List.flatMap_cons, writePair, List.append_assoc]
      exact readVarint_writeVarint _ (by omega) _
    have hp : readPair fill total cols ((p :: ps).flatMap writePair ++ run) =
        some (cols ++ p.columns fill, ps.flatMap writePair ++ run) := by
      simp only [readPair, e1, readLiterals_append, readVarint_writeVarint p.blank (by omega)]
      rw [if_neg (by omega), if_neg (by omega), if_neg (by omega)]
      simp [RunPair.columns]
    have hcl : (cols ++ p.columns fill).length = cols.length + (p.explicit.length + p.blank) := by
      simp [RunPair.columns]
    rw [List.length_cons, Nat.succ_add, readBody, if_pos (by omega), hp]
    simp only
    rw [ih _ (by rw [hcl]; omega)]
    simp

/-- R113, R114: a canonical header is read back, with the fill byte of its polarity (R204). -/
theorem readHeader_writeImage (polarity w h : Nat) (hp : polarity ≤ 16383) (hw : w ≤ 84) (hh : h ≤ 6)
    (pairs : List RunPair) (tail : List Byte) :
    readHeader (writeImage polarity w h pairs ++ tail) =
      some (⟨fillByte polarity, w, h⟩, pairs.flatMap writePair ++ tail) := by
  have c : ¬ (w > 84 ∨ h > 6) := by omega
  simp only [writeImage, List.append_assoc, readHeader, readVarint_writeVarint polarity hp,
    readVarint_writeVarint w (by omega), readVarint_writeVarint h (by omega),
    readVarint_writeVarint 0 (by omega), ne_eq, not_true_eq_false, if_false, if_neg c]

/-- Each pair is written in at least one byte. -/
theorem length_le_writePairs (pairs : List RunPair) : pairs.length ≤ (pairs.flatMap writePair).length := by
  induction pairs with
  | nil => simp
  | cons p ps ih =>
    have : 1 ≤ (writePair p).length := by unfold writePair writeVarint; split <;> simp
    simp only [List.flatMap_cons, List.length_append, List.length_cons]; omega

/-- An image that is read fits the canvas and has all its columns. -/
theorem readImage_size {len : Nat} {bs rest : List Byte} {img : Image} (h : readImage len bs = some (img, rest)) :
    img.width ≤ 84 ∧ img.height ≤ 6 ∧ img.cols.length = img.width * img.height := by
  unfold readImage at h
  split at h
  · cases h
  · next hd bs1 hh =>
    split at h
    · cases h
    · next cols r hb =>
      cases h
      exact ⟨(readHeader_size hh).1, (readHeader_size hh).2, readBody_length hb (by simp)⟩

/-- What is read of a stream is its front, and what follows does not matter (R115, R210). -/
theorem readImage_split {len : Nat} {bs rest : List Byte} {img : Image} (h : readImage len bs = some (img, rest)) :
    ∃ front, bs = front ++ rest ∧
      ∀ (tail : List Byte) (g : Nat), front.length ≤ g → readImage g (front ++ tail) = some (img, tail) := by
  unfold readImage at h
  split at h
  · cases h
  · next hd bs1 hh =>
    split at h
    · cases h
    · next cols r hb =>
      cases h
      obtain ⟨f1, rfl, g1⟩ := readHeader_split hh
      obtain ⟨f2, rfl, g2⟩ := readBody_split hb (by simp)
      refine ⟨f1 ++ f2, by simp, fun tail g hg => ?_⟩
      simp only [List.length_append] at hg
      simp only [readImage, List.append_assoc, g1, g2 tail g (by omega)]

theorem imageAt_size {dst : Dest} {addr len : Nat} {s : State} {img : Image} (h : imageAt dst addr len s = some img) :
    img.width ≤ 84 ∧ img.height ≤ 6 ∧ img.cols.length = img.width * img.height := by
  unfold imageAt at h
  split at h
  · next hi => cases h; exact readImage_size hi
  · cases h

/-- The canvas indices, one for each column. -/
theorem blitIndices_length (w h ox oy : Nat) : (blitIndices w h ox oy).length = w * h := by
  simp [blitIndices, List.length_flatMap, Nat.mul_comm]

/-- R207: column `r·w + c` of the image goes to canvas index `(oy + r)·84 + ox + c`. -/
theorem blitIndices_getElem (w h ox oy r c : Nat) (hr : r < h) (hc : c < w) :
    (blitIndices w h ox oy)[r * w + c]? = some ((oy + r) * 84 + ox + c) := by
  induction h generalizing r oy with
  | zero => omega
  | succ h ih =>
    have hsplit : blitIndices w (h + 1) ox oy =
        ((List.range w).map fun c => oy * 84 + ox + c) ++ blitIndices w h ox (oy + 1) := by
      simp only [blitIndices, List.range_succ_eq_map, List.flatMap_cons, List.flatMap_map, Nat.add_zero]
      congr 2
      funext r
      simp only [Nat.succ_eq_add_one]
      congr 1
      funext c
      have : oy + (r + 1) = oy + 1 + r := by omega
      rw [this]
    rw [hsplit]
    cases r with
    | zero => rw [List.getElem?_append_left (by simpa using hc)]; simp [hc]
    | succ r =>
      have hlen : ((List.range w).map fun c => oy * 84 + ox + c).length = w := by simp
      rw [List.getElem?_append_right (by rw [hlen, Nat.succ_mul]; omega), hlen]
      have : (r + 1) * w + c - w = r * w + c := by rw [Nat.succ_mul]; omega
      rw [this, ih (oy + 1) r (by omega)]
      congr 1
      have : oy + 1 + r = oy + (r + 1) := by omega
      rw [this]

/-- Every canvas index of an image that fits is on the canvas, and comes from one column. -/
theorem mem_blitIndices {w h ox oy i : Nat} :
    i ∈ blitIndices w h ox oy ↔ ∃ r < h, ∃ c < w, i = (oy + r) * 84 + ox + c := by
  simp only [blitIndices, List.mem_flatMap, List.mem_map, List.mem_range]
  constructor
  · rintro ⟨r, hr, c, hc, rfl⟩; exact ⟨r, hr, c, hc, rfl⟩
  · rintro ⟨r, hr, c, hc, rfl⟩; exact ⟨r, hr, c, hc, rfl⟩

/-- No canvas index is written twice, where the image fits its row. -/
theorem blitIndices_nodup (w h ox oy : Nat) (hw : ox + w ≤ 84) : (blitIndices w h ox oy).Nodup := by
  unfold blitIndices
  rw [List.nodup_flatMap]
  constructor
  · intro r _
    exact List.Nodup.map (fun a b hab => by omega) List.nodup_range
  · refine List.Pairwise.imp ?_ List.nodup_range
    intro a b hab
    rw [Function.onFun, List.disjoint_left]
    intro i hi hj
    simp only [List.mem_map, List.mem_range] at hi hj
    obtain ⟨c, hc, rfl⟩ := hi
    obtain ⟨d, hd, he⟩ := hj
    omega

/-- R206: each axis of the placed image is on the canvas. -/
theorem placeAxis_fits (o size canvas : Nat) (h : size ≤ canvas) : placeAxis o size canvas + size ≤ canvas := by
  unfold placeAxis
  split <;> omega

/-- A fold of writes to distinct places leaves at each listed place the value listed with it. -/
theorem foldl_fbWrite (ws : List (Nat × Byte)) (fb : Vector Byte 504) (j : Nat) (hj : j < 504) :
    (∀ w ∈ ws, w.1 ≠ j) →
      (ws.foldl (fun fb w => fbWrite fb w.1 w.2) fb)[j] = fb[j] := by
  induction ws generalizing fb with
  | nil => intro _; rfl
  | cons w ws ih =>
    intro h
    rw [List.foldl_cons, ih _ fun x hx => h x (by simp [hx]), fbWrite_getElem _ _ _ _ hj,
      if_neg (h w (by simp))]

theorem foldl_fbWrite_mem (ws : List (Nat × Byte)) (fb : Vector Byte 504) (j : Nat) (hj : j < 504) (v : Byte)
    (hn : (ws.map (·.1)).Nodup) (hm : (j, v) ∈ ws) :
    (ws.foldl (fun fb w => fbWrite fb w.1 w.2) fb)[j] = v := by
  induction ws generalizing fb with
  | nil => cases hm
  | cons w ws ih =>
    simp only [List.map_cons, List.nodup_cons] at hn
    rw [List.foldl_cons]
    rcases List.mem_cons.1 hm with rfl | hm
    · rw [foldl_fbWrite _ _ _ hj, fbWrite_getElem _ _ _ _ hj, if_pos rfl]
      intro x hx he
      exact hn.1 (List.mem_map.2 ⟨x, hx, he⟩)
    · exact ih _ hn.2 hm

/-- A fold of host-memory writes inside the address space keeps the canonical form. -/
theorem foldl_memWrite_wf (ws : List (Nat × Byte)) (d : Nat) (m : Memory) (hm : Memory.wf m)
    (h : ∀ w ∈ ws, d + w.1 < 4294967296) : Memory.wf (ws.foldl (fun m w => memWrite m (d + w.1) w.2) m) := by
  induction ws generalizing m with
  | nil => exact hm
  | cons w ws ih =>
    rw [List.foldl_cons]
    exact ih _ (memWrite_wf _ _ _ hm (h w (by simp))) fun x hx => h x (by simp [hx])

theorem foldl_memWrite (ws : List (Nat × Byte)) (d : Nat) (m : Memory) (hm : Memory.wf m)
    (hw : ∀ w ∈ ws, d + w.1 < 4294967296) (a : Nat) (h : ∀ w ∈ ws, d + w.1 ≠ a) :
    memRead (ws.foldl (fun m w => memWrite m (d + w.1) w.2) m) a = memRead m a := by
  induction ws generalizing m with
  | nil => rfl
  | cons w ws ih =>
    rw [List.foldl_cons, ih _ (memWrite_wf _ _ _ hm (hw w (by simp))) (fun x hx => hw x (by simp [hx]))
      (fun x hx => h x (by simp [hx])), memRead_memWrite_other _ _ _ _ hm (Ne.symm (h w (by simp)))]

theorem foldl_memWrite_mem (ws : List (Nat × Byte)) (d : Nat) (m : Memory) (hm : Memory.wf m)
    (hw : ∀ w ∈ ws, d + w.1 < 4294967296) (j : Nat) (v : Byte) (hn : (ws.map (·.1)).Nodup) (hj : (j, v) ∈ ws) :
    memRead (ws.foldl (fun m w => memWrite m (d + w.1) w.2) m) (d + j) = v := by
  induction ws generalizing m with
  | nil => cases hj
  | cons w ws ih =>
    simp only [List.map_cons, List.nodup_cons] at hn
    have hwf := memWrite_wf m (d + w.1) w.2 hm (hw w (by simp))
    rw [List.foldl_cons]
    rcases List.mem_cons.1 hj with rfl | hj
    · rw [foldl_memWrite _ _ _ hwf (fun x hx => hw x (by simp [hx])), memRead_memWrite_same _ _ _ hm]
      intro x hx he
      exact hn.1 (List.mem_map.2 ⟨x, hx, by omega⟩)
    · exact ih _ hwf (fun x hx => hw x (by simp [hx])) hn.2 hj

end Sys2Proof.Machine
end

