-- ==== Sys2Proof/Laws/Sync.lean ====
section
/-! SUPPORT. What issuing transactions does (R110, R183, R184), said once. -/

namespace Sys2Proof.Machine

/-- After one transaction the next answers are the later ones of the supply. -/
theorem answerAt_send (t : Transaction) (s : State) (k : Nat) : answerAt (send t s).2 k = answerAt s (k + 1) := by
  have h1 : s.answers.tail[k]? = s.answers[k + 1]? := by simp
  have h2 : (s.trace ++ [(⟨t, nextAnswer s⟩ : Exchange)]).length + k = s.trace.length + (k + 1) := by
    simp only [List.length_append, List.length_cons, List.length_nil]; omega
  simp only [answerAt, send_answers, send_trace, h1, h2]

/-- Transactions that are all answered `OK` are all issued, in order, and nothing else changes. -/
theorem sendAll_ok (ts : List Transaction) (s : State) (h : ∀ k < ts.length, answerAt s k = .ok) :
    sendAll ts s =
      (.ok, { s with
        trace := s.trace ++ ts.map (fun t => ⟨t, .ok⟩)
        answers := s.answers.drop ts.length }) := by
  induction ts generalizing s with
  | nil => simp [sendAll]
  | cons t ts ih =>
    have h0 : nextAnswer s = .ok := h 0 (by simp)
    have hs : sendAll (t :: ts) s = sendAll ts (send t s).2 := by
      have : send t s = (.ok, (send t s).2) := by rw [← h0]; rfl
      simp only [sendAll]; rw [this]
    rw [hs, ih (send t s).2 (fun k hk => by rw [answerAt_send]; exact h (k + 1) (by simpa using hk))]
    simp [send, h0]

/-- Transactions of which the one at `k` is the first answered `FAIL`: the ones up to it are issued, none after it, and
nothing else changes. -/
theorem sendAll_fail (ts : List Transaction) (s : State) (k : Nat) (t : Transaction) (ht : ts[k]? = some t)
    (h : ∀ j < k, answerAt s j = .ok) (hk : answerAt s k = .fail) :
    sendAll ts s =
      (.fail, { s with
        trace := s.trace ++ (ts.take k).map (fun t => ⟨t, .ok⟩) ++ [⟨t, .fail⟩]
        answers := s.answers.drop (k + 1) }) := by
  induction ts generalizing s k with
  | nil => simp at ht
  | cons u ts ih =>
    cases k with
    | zero =>
      have hu : u = t := by simpa using ht
      have h0 : nextAnswer s = .fail := hk
      have hsend : send u s = (.fail, (send u s).2) := by rw [← h0]; rfl
      simp only [sendAll]
      rw [hsend]
      simp [send, h0, hu]
    | succ k =>
      have h0 : nextAnswer s = .ok := h 0 (by omega)
      have hs : sendAll (u :: ts) s = sendAll ts (send u s).2 := by
        have : send u s = (.ok, (send u s).2) := by rw [← h0]; rfl
        simp only [sendAll]; rw [this]
      rw [hs, ih (send u s).2 k (by simpa using ht) (fun j hj => by rw [answerAt_send]; exact h (j + 1) (by omega))
        (by rw [answerAt_send]; exact hk)]
      simp [send, h0]

/-- Whatever the answers, transactions change the trace and the supply of answers and nothing else. -/
theorem sendAll_frame (ts : List Transaction) (s : State) :
    (sendAll ts s).2 = { s with trace := (sendAll ts s).2.trace, answers := (sendAll ts s).2.answers } := by
  induction ts generalizing s with
  | nil => rfl
  | cons t ts ih =>
    simp only [sendAll]
    rcases hs : send t s with ⟨a, s'⟩
    have hs' : s' = (send t s).2 := by rw [hs]
    cases a with
    | ok =>
      simp only
      conv_lhs => rw [ih s']
      rw [hs']; rfl
    | fail => simp only [hs']; rfl

/-- Whatever the answers, each transaction issued took one of the supply. -/
theorem sendAll_answers (ts : List Transaction) (s : State) :
    (sendAll ts s).2.answers = s.answers.drop ((sendAll ts s).2.trace.length - s.trace.length) := by
  induction ts generalizing s with
  | nil => simp [sendAll]
  | cons t ts ih =>
    have hl : s.trace.length + 1 ≤ (sendAll ts (send t s).2).2.trace.length := by
      have : ∀ (us : List Transaction) (u : State), u.trace.length ≤ (sendAll us u).2.trace.length := by
        intro us
        induction us with
        | nil => intro u; exact Nat.le_refl _
        | cons v us ih =>
          intro u
          simp only [sendAll]
          rcases hv : send v u with ⟨a, u'⟩
          have hu : u'.trace.length = u.trace.length + 1 := by
            have : u' = (send v u).2 := by rw [hv]
            rw [this]; simp
          cases a with
          | ok => have := ih u'; simp only; omega
          | fail => simp only; omega
      simpa using this ts (send t s).2
    simp only [sendAll]
    rcases hv : send t s with ⟨a, u⟩
    have hu : u = (send t s).2 := by rw [hv]
    rw [hu] at hv ⊢
    cases a with
    | ok =>
      simp only
      rw [ih, send_answers, send_trace, ← List.drop_one, List.drop_drop]
      congr 1; simp at hl ⊢; omega
    | fail => simp

/-- Either every transaction is answered `OK`, or there is a first one answered `FAIL`. -/
theorem answers_cases (s : State) (n : Nat) :
    (∀ k < n, answerAt s k = .ok) ∨ ∃ k < n, (∀ j < k, answerAt s j = .ok) ∧ answerAt s k = .fail := by
  induction n with
  | zero => exact .inl (fun k hk => absurd hk (by omega))
  | succ n ih =>
    rcases ih with h | ⟨k, hk, h⟩
    · rcases ha : answerAt s n with _ | _
      · refine .inl fun k hk => ?_
        rcases Nat.lt_succ_iff_lt_or_eq.1 hk with hk | rfl
        · exact h k hk
        · exact ha
      · exact .inr ⟨n, by omega, h, ha⟩
    · exact .inr ⟨k, by omega, h⟩

end Sys2Proof.Machine
end

