-- ==== Sys2Proof/Laws/Tracker.lean ====
section
/-! SUPPORT. What the tracker's operations do (R130, R131, R161), each said once. -/

namespace Sys2Proof.Machine

/-- A value below 2^16 survives in a 16-bit register. -/
theorem reg_toNat {n : Nat} (h : n < 65536) : (BitVec.ofNat 16 n).toNat = n := by
  simp only [BitVec.toNat_ofNat]
  exact Nat.mod_eq_of_lt h

/-- `CHAR`'s writes and the commands depend on a register's number only. -/
theorem reg_ext {a b : Reg16} (h : a.toNat = b.toNat) : a = b := BitVec.eq_of_toNat_eq h

/-- `PUT` either fails with no effect or stores and advances. -/
theorem put_cases (v : Byte) (s : State) :
    (504 ≤ s.cursor.toNat ∧ put v s = (.bufferFull, s)) ∨
      (s.cursor.toNat < 504 ∧ put v s = (.ok, storeAtCursor v s)) := by
  by_cases h : 504 ≤ s.cursor.toNat
  · exact .inl ⟨h, by simp [put, h]⟩
  · exact .inr ⟨by omega, by simp [put, h]⟩

theorem trackGoto_cursor_toNat (s : State) {pos : Nat} (h : pos ≤ 503) :
    (trackGoto pos s).cursor.toNat = pos := reg_toNat (by omega)

theorem trackGoto_dstart_toNat (s : State) (pos : Nat) :
    (trackGoto pos s).dstart.toNat = min s.dstart.toNat pos :=
  reg_toNat (by have := s.dstart.isLt; omega)

theorem trackGoto_dend_toNat (s : State) {pos : Nat} (h : pos ≤ 503) :
    (trackGoto pos s).dend.toNat = max s.dend.toNat pos :=
  reg_toNat (by have := s.dend.isLt; omega)

theorem storeAtCursor_cursor_toNat (v : Byte) (s : State) (h : s.cursor.toNat < 504) :
    (storeAtCursor v s).cursor.toNat = s.cursor.toNat + 1 := reg_toNat (by omega)

/-- R131: the high bound follows the cursor, and never falls. -/
theorem storeAtCursor_dend_toNat (v : Byte) (s : State) (h : s.cursor.toNat < 504) :
    (storeAtCursor v s).dend.toNat = max s.dend.toNat (s.cursor.toNat + 1) := by
  rw [storeAtCursor_dend]
  split
  · rw [reg_toNat (by omega)]; omega
  · omega

theorem collapseRange_dstart_toNat (s : State) : (collapseRange s).dstart.toNat = s.dend.toNat % 504 :=
  reg_toNat (by omega)

theorem collapseRange_dend_toNat (s : State) : (collapseRange s).dend.toNat = s.dend.toNat % 504 :=
  reg_toNat (by omega)

/-- R131 applied to a run of columns that fits: the columns stand from the old cursor on, the cursor is past them, the
high bound has followed it, and nothing else has changed. -/
theorem putColumns_spec (vs : List Byte) (s : State) (hv : vs ≠ []) (h : s.cursor.toNat + vs.length ≤ 504) :
    putColumns vs s =
        { s with
          fb := (putColumns vs s).fb
          cursor := BitVec.ofNat 16 (s.cursor.toNat + vs.length)
          dend := BitVec.ofNat 16 (max s.dend.toNat (s.cursor.toNat + vs.length))
          dkind := s.dkind.setRange } ∧
      ∀ (j : Nat) (hj : j < 504),
        (putColumns vs s).fb[j] =
          if s.cursor.toNat ≤ j ∧ j < s.cursor.toNat + vs.length then vs.getD (j - s.cursor.toNat) 0
          else s.fb[j] := by
  induction vs generalizing s with
  | nil => exact absurd rfl hv
  | cons v vs ih =>
    simp only [List.length_cons] at h
    have hc : s.cursor.toNat < 504 := by omega
    have hput : put v s = (.ok, storeAtCursor v s) := by
      rcases put_cases v s with ⟨hf, -⟩ | ⟨-, hp⟩
      · omega
      · exact hp
    have hstep : putColumns (v :: vs) s = putColumns vs (storeAtCursor v s) := by
      simp [putColumns, hput]
    have hcur := storeAtCursor_cursor_toNat v s hc
    have hend := storeAtCursor_dend_toNat v s hc
    have hd : s.dend.toNat < 65536 := s.dend.isLt
    rcases vs with _ | ⟨w, ws⟩
    · rw [hstep]
      have hone : putColumns [] (storeAtCursor v s) = storeAtCursor v s := rfl
      rw [hone]
      refine ⟨?_, ?_⟩
      · have e2 : (storeAtCursor v s).dend = BitVec.ofNat 16 (max s.dend.toNat (s.cursor.toNat + 1)) := by
          apply reg_ext
          rw [hend, reg_toNat (by omega)]
        calc storeAtCursor v s
            = { s with fb := (storeAtCursor v s).fb
                       cursor := (storeAtCursor v s).cursor
                       dend := (storeAtCursor v s).dend
                       dkind := (storeAtCursor v s).dkind } := rfl
          _ = _ := by rw [e2]; rfl
      · intro j hj
        rw [storeAtCursor_fb, fbWrite_getElem _ _ _ _ hj]
        by_cases hjc : s.cursor.toNat = j
        · subst hjc; simp
        · have : ¬ (s.cursor.toNat ≤ j ∧ j < s.cursor.toNat + [v].length) := by
            simp only [List.length_cons, List.length_nil]; omega
          rw [if_neg hjc, if_neg this]
    · obtain ⟨he, hb⟩ := ih (storeAtCursor v s) (by simp) (by rw [hcur]; simp only [List.length_cons] at h ⊢; omega)
      rw [hstep]
      refine ⟨?_, ?_⟩
      · rw [he]
        simp only [hcur, hend, storeAtCursor_dstart, storeAtCursor_dkind, setRange_setRange, List.length_cons,
          storeAtCursor_result, storeAtCursor_contrast, storeAtCursor_glyph, storeAtCursor_hostMem,
          storeAtCursor_hostMap, storeAtCursor_port, storeAtCursor_answers, storeAtCursor_races,
          storeAtCursor_draws, storeAtCursor_trace, storeAtCursor_returned, storeAtCursor_readLog]
        congr 2 <;> omega
      · intro j hj
        rw [hb j hj, hcur, storeAtCursor_fb, fbWrite_getElem _ _ _ _ hj]
        simp only [List.length_cons]
        by_cases hjc : s.cursor.toNat = j
        · subst hjc
          have : ¬ (s.cursor.toNat + 1 ≤ s.cursor.toNat ∧ s.cursor.toNat < s.cursor.toNat + 1 + (ws.length + 1)) := by
            omega
          rw [if_neg this]; simp
        · by_cases hin : s.cursor.toNat + 1 ≤ j ∧ j < s.cursor.toNat + 1 + (ws.length + 1)
          · have hin' : s.cursor.toNat ≤ j ∧ j < s.cursor.toNat + (ws.length + 1 + 1) := by omega
            rw [if_pos hin, if_pos hin']
            obtain ⟨k, hk⟩ : ∃ k, j - s.cursor.toNat = k + 1 := ⟨j - s.cursor.toNat - 1, by omega⟩
            have hk' : j - (s.cursor.toNat + 1) = k := by omega
            rw [hk, hk']; simp
          · have hin' : ¬ (s.cursor.toNat ≤ j ∧ j < s.cursor.toNat + (ws.length + 1 + 1)) := by omega
            rw [if_neg hin, if_neg hin', if_neg hjc]

theorem cellColumns_length (s : State) (code : Nat) : (cellColumns s code).length = 6 := by
  simp [cellColumns]

/-- Column `k` of a cell is a glyph column for `k < 5` and zero for `k = 5`. -/
theorem cellColumns_getD (s : State) (code k : Nat) (hk : k < 6) :
    (cellColumns s code).getD k 0 = if k < 5 then glyphByte s code k else 0 := by
  have : k = 0 ∨ k = 1 ∨ k = 2 ∨ k = 3 ∨ k = 4 ∨ k = 5 := by omega
  rcases this with rfl | rfl | rfl | rfl | rfl | rfl <;> rfl

/-- R161 `CHAR`: it rejects a code without a glyph first, then a cell that does not fit, with no effect; else it writes
the cell. -/
theorem putChar_cases (code : Nat) (s : State) :
    (glyphValid code = false ∧ putChar code s = (.invalidGlyph, s)) ∨
      (glyphValid code = true ∧ 498 < s.cursor.toNat ∧ putChar code s = (.bufferFull, s)) ∨
        (glyphValid code = true ∧ s.cursor.toNat ≤ 498 ∧
          putChar code s = (.ok, putColumns (cellColumns s code) s)) := by
  by_cases hg : glyphValid code = false
  · exact .inl ⟨hg, by simp [putChar, hg]⟩
  · have hg' : glyphValid code = true := by simpa using hg
    by_cases hc : 498 < s.cursor.toNat
    · exact .inr (.inl ⟨hg', hc, by simp [putChar, hg', show s.cursor.toNat + 6 > 504 by omega]⟩)
    · exact .inr (.inr ⟨hg', by omega, by simp [putChar, hg', show ¬ s.cursor.toNat + 6 > 504 by omega]⟩)

/-- R161, the net effect of a character that is written. -/
theorem putCell_spec (code : Nat) (s : State) (h : s.cursor.toNat ≤ 498) :
    putColumns (cellColumns s code) s =
        { s with
          fb := (putColumns (cellColumns s code) s).fb
          cursor := BitVec.ofNat 16 (s.cursor.toNat + 6)
          dend := BitVec.ofNat 16 (max s.dend.toNat (s.cursor.toNat + 6))
          dkind := s.dkind.setRange } ∧
      ∀ (j : Nat) (hj : j < 504),
        (putColumns (cellColumns s code) s).fb[j] =
          if s.cursor.toNat ≤ j ∧ j < s.cursor.toNat + 6 then
            (if j - s.cursor.toNat < 5 then glyphByte s code (j - s.cursor.toNat) else 0)
          else s.fb[j] := by
  have hne : cellColumns s code ≠ [] := by simp [cellColumns]
  obtain ⟨he, hb⟩ := putColumns_spec (cellColumns s code) s hne (by rw [cellColumns_length]; omega)
  rw [cellColumns_length] at he hb
  refine ⟨he, fun j hj => ?_⟩
  rw [hb j hj]
  by_cases hin : s.cursor.toNat ≤ j ∧ j < s.cursor.toNat + 6
  · rw [if_pos hin, if_pos hin, cellColumns_getD _ _ _ (by omega)]
  · rw [if_neg hin, if_neg hin]

end Sys2Proof.Machine
end

