-- ==== Sys2Proof/Laws/Text.lean ====
section
/-! SUPPORT. What WRSTR's loop does (R163), said once: how many characters it writes, where, and with which result. -/

namespace Sys2Proof.Machine

/-- The loop of WRSTR on bytes already read. -/
def putList : List Byte → State → ResultCode × State
  | [], s => (.ok, s)
  | b :: bs, s =>
    if b = 0x00 then (.ok, s)
    else
      match putChar b.toNat s with
      | (.ok, s') => putList bs s'
      | (code, s') => (code, s')

/-- What is read from host memory depends on nothing a character write changes. -/
theorem readBytes_congr {s t : State} (hm : t.hostMem = s.hostMem) (hr : t.races = s.races)
    (hd : t.draws = s.draws) (named : List HostRegion) (a n : Nat) : readBytes named t a n = readBytes named s a n := by
  induction n generalizing a with
  | zero => rfl
  | succ n ih => simp [readBytes, hostRead, racedAt, hm, hr, hd, ih]

/-- The loop reads each byte as it stood when the command began. -/
theorem putString_eq (named : List HostRegion) (a n : Nat) (s : State) :
    putString named a n s = putList (readBytes named s a n) s := by
  induction n generalizing a s with
  | zero => rfl
  | succ n ih =>
    simp only [putString, readBytes, putList]
    by_cases h0 : hostRead named s a = 0x00
    · simp [h0]
    · rw [if_neg h0, if_neg h0]
      rcases putChar_cases (hostRead named s a).toNat s with ⟨-, h⟩ | ⟨-, -, h⟩ | ⟨-, hc, h⟩
      · rw [h]
      · rw [h]
      · rw [h]
        have he := (putCell_spec (hostRead named s a).toNat s hc).1
        generalize putColumns (cellColumns s (hostRead named s a).toNat) s = u at he
        have hread : readBytes named u (a + 1) n = readBytes named s (a + 1) n :=
          readBytes_congr (by rw [he]) (by rw [he]) (by rw [he]) _ _ _
        simp only [ih, hread]

/-- WRSTR's loop is the loop on the bytes of its string. -/
theorem putString_wrstr (a n : Nat) (s : State) :
    putString (namedRanges (.wrstr a n)) a n s = putList (hostBytes s a n) s := putString_eq _ a n s

/-- The bytes of a string depend on nothing a character write changes. -/
theorem hostBytes_congr {s t : State} (hm : t.hostMem = s.hostMem) (hr : t.races = s.races)
    (hd : t.draws = s.draws) (a n : Nat) : hostBytes t a n = hostBytes s a n := readBytes_congr hm hr hd _ a n

theorem stringBody_cons (b : Byte) (bs : List Byte) (h : b ≠ 0x00) : stringBody (b :: bs) = b :: stringBody bs := by
  have h' : ¬ b = 0#8 := h
  simp [stringBody, h']

theorem stringBody_zero (bs : List Byte) : stringBody ((0x00 : Byte) :: bs) = [] := by
  simp [stringBody]

theorem stringGood_cons_valid (b : Byte) (bs : List Byte) (h : b ≠ 0x00) (hg : glyphValid b.toNat = true) :
    stringGood (b :: bs) = stringGood bs + 1 := by
  simp [stringGood, stringBody_cons b bs h, hg]

theorem stringGood_cons_invalid (b : Byte) (bs : List Byte) (h : b ≠ 0x00) (hg : glyphValid b.toNat = false) :
    stringGood (b :: bs) = 0 := by
  simp [stringGood, stringBody_cons b bs h, hg]

theorem stringGood_le (bs : List Byte) : stringGood bs ≤ (stringBody bs).length := by
  simpa [stringGood] using (List.takeWhile_sublist _).length_le

/-- R163: the loop writes `stringWritten` characters from the cursor on, ends with `stringResult`, moves the cursor and
the high bound past what it wrote, sets `R` if it wrote anything, and changes nothing else. -/
theorem putList_spec (bs : List Byte) (s : State) :
    (putList bs s).1 = stringResult bs s.cursor.toNat ∧
      (putList bs s).2 =
        { s with
          fb := (putList bs s).2.fb
          cursor := BitVec.ofNat 16 (s.cursor.toNat + 6 * stringWritten bs s.cursor.toNat)
          dend :=
            if stringWritten bs s.cursor.toNat = 0 then s.dend
            else BitVec.ofNat 16 (max s.dend.toNat (s.cursor.toNat + 6 * stringWritten bs s.cursor.toNat))
          dkind := if stringWritten bs s.cursor.toNat = 0 then s.dkind else s.dkind.setRange } ∧
      ∀ (j : Nat) (hj : j < 504),
        (putList bs s).2.fb[j] =
          stringPixel s bs s.cursor.toNat (stringWritten bs s.cursor.toNat) j s.fb[j] := by
  have idle : ∀ (bs : List Byte) (s : State) (r : ResultCode), putList bs s = (r, s) →
      stringWritten bs s.cursor.toNat = 0 → stringResult bs s.cursor.toNat = r →
      (putList bs s).1 = stringResult bs s.cursor.toNat ∧
      (putList bs s).2 =
        { s with
          fb := (putList bs s).2.fb
          cursor := BitVec.ofNat 16 (s.cursor.toNat + 6 * stringWritten bs s.cursor.toNat)
          dend :=
            if stringWritten bs s.cursor.toNat = 0 then s.dend
            else BitVec.ofNat 16 (max s.dend.toNat (s.cursor.toNat + 6 * stringWritten bs s.cursor.toNat))
          dkind := if stringWritten bs s.cursor.toNat = 0 then s.dkind else s.dkind.setRange } ∧
      ∀ (j : Nat) (hj : j < 504),
        (putList bs s).2.fb[j] =
          stringPixel s bs s.cursor.toNat (stringWritten bs s.cursor.toNat) j s.fb[j] := by
    intro bs s r hp hw hr
    rw [hp, hw, hr]
    refine ⟨rfl, ?_, ?_⟩
    · simp
    · intro j hj
      have : ¬ (s.cursor.toNat ≤ j ∧ j < s.cursor.toNat + 6 * 0) := by omega
      rw [stringPixel, if_neg this]
  induction bs generalizing s with
  | nil => exact idle [] s .ok rfl (by simp [stringWritten, stringGood, stringBody])
            (by simp [stringResult, stringWritten, stringGood, stringBody])
  | cons b bs ih =>
    by_cases h0 : b = 0x00
    · subst h0
      refine idle _ s .ok (by simp [putList]) ?_ ?_
      · simp [stringWritten, stringGood, stringBody]
      · simp [stringResult, stringWritten, stringGood, stringBody]
    · have h0' : ¬ b = 0#8 := h0
      rcases putChar_cases b.toNat s with ⟨hg, h⟩ | ⟨hg, hc, h⟩ | ⟨hg, hc, h⟩
      · have hz := stringGood_cons_invalid b bs h0 hg
        refine idle _ s .invalidGlyph (by simp [putList, h0', h]) ?_ ?_
        · simp [stringWritten, hz]
        · simp [stringResult, stringWritten, hz, stringBody_cons b bs h0]
      · have hz := stringGood_cons_valid b bs h0 hg
        have hw : stringWritten (b :: bs) s.cursor.toNat = 0 := by
          simp only [stringWritten]; omega
        refine idle _ s .bufferFull (by simp [putList, h0', h]) hw ?_
        simp [stringResult, hw, hz]
      · have hz := stringGood_cons_valid b bs h0 hg
        obtain ⟨he, hb⟩ := putCell_spec b.toNat s hc
        have hp : putList (b :: bs) s = putList bs (putColumns (cellColumns s b.toNat) s) := by
          simp [putList, h0', h]
        generalize putColumns (cellColumns s b.toNat) s = t at he hb hp
        have hd : s.dend.toNat < 65536 := s.dend.isLt
        have hcur : t.cursor.toNat = s.cursor.toNat + 6 := by rw [he]; exact reg_toNat (by omega)
        have hend : t.dend.toNat = max s.dend.toNat (s.cursor.toNat + 6) := by
          rw [he]; exact reg_toNat (by omega)
        have hkind : t.dkind = s.dkind.setRange := by rw [he]
        have hgl : t.glyph = s.glyph := by rw [he]
        obtain ⟨h1, h2, h3⟩ := ih t
        have hw : stringWritten (b :: bs) s.cursor.toNat = stringWritten bs t.cursor.toNat + 1 := by
          simp only [stringWritten, hz, hcur]; omega
        have hwle : stringWritten bs t.cursor.toNat ≤ (504 - t.cursor.toNat) / 6 := by
          simp only [stringWritten]; omega
        rw [hp]
        refine ⟨?_, ?_, ?_⟩
        · rw [h1]
          simp only [stringResult, hw, hz, stringBody_cons b bs h0, List.length_cons,
            Nat.add_lt_add_iff_right]
        · rw [h2, hw, if_neg (Nat.succ_ne_zero _), if_neg (Nat.succ_ne_zero _)]
          have e1 : BitVec.ofNat 16 (t.cursor.toNat + 6 * stringWritten bs t.cursor.toNat) =
              BitVec.ofNat 16 (s.cursor.toNat + 6 * (stringWritten bs t.cursor.toNat + 1)) := by
            congr 1; omega
          have e2 : (if stringWritten bs t.cursor.toNat = 0 then t.dend
              else BitVec.ofNat 16 (max t.dend.toNat (t.cursor.toNat + 6 * stringWritten bs t.cursor.toNat))) =
              BitVec.ofNat 16 (max s.dend.toNat (s.cursor.toNat + 6 * (stringWritten bs t.cursor.toNat + 1))) := by
            apply reg_ext
            split
            · next hz0 => rw [hend, hz0, reg_toNat (by omega)]
            · rw [reg_toNat (by omega), reg_toNat (by omega)]; omega
          have e3 : (if stringWritten bs t.cursor.toNat = 0 then t.dkind else t.dkind.setRange) =
              s.dkind.setRange := by
            rw [hkind]; split <;> simp
          rw [e1, e2, e3, he]
        · intro j hj
          rw [h3 j hj, hw, hb j hj]
          simp only [stringPixel, glyphByte, hgl]
          generalize stringWritten bs t.cursor.toNat = n at *
          rw [hcur]
          by_cases ha : s.cursor.toNat + 6 ≤ j ∧ j < s.cursor.toNat + 6 + 6 * n
          · have hb' : s.cursor.toNat ≤ j ∧ j < s.cursor.toNat + 6 * (n + 1) := by
              omega
            rw [if_pos ha, if_pos hb']
            have m : (j - (s.cursor.toNat + 6)) % 6 = (j - s.cursor.toNat) % 6 := by omega
            have q : (j - s.cursor.toNat) / 6 = (j - (s.cursor.toNat + 6)) / 6 + 1 := by omega
            rw [m, q]; simp
          · by_cases hb' : s.cursor.toNat ≤ j ∧ j < s.cursor.toNat + 6
            · have hc' : s.cursor.toNat ≤ j ∧ j < s.cursor.toNat + 6 * (n + 1) := by
                omega
              rw [if_neg ha, if_pos hb', if_pos hc']
              have m : (j - s.cursor.toNat) % 6 = j - s.cursor.toNat := by omega
              have q : (j - s.cursor.toNat) / 6 = 0 := by omega
              rw [m, q]; simp
            · have hc' : ¬ (s.cursor.toNat ≤ j ∧ j < s.cursor.toNat + 6 * (n + 1)) := by
                omega
              rw [if_neg ha, if_neg hb', if_neg hc']

end Sys2Proof.Machine
end

