-- ==== Sys2Proof/Laws/Exec.lean ====
section
/-! SUPPORT. What every command leaves alone, and what each ends with, said once for `exec`. -/

namespace Sys2Proof.Machine

/-- What no command changes: what the Host has pending, the races, the parameters, the draws, and what the Host has
read. -/
def SameOutside (s t : State) : Prop :=
  t.port = s.port ∧ t.races = s.races ∧ t.glyph = s.glyph ∧ t.hostMap = s.hostMap ∧ t.draws = s.draws ∧
    t.readLog = s.readLog

theorem SameOutside.refl (s : State) : SameOutside s s := ⟨rfl, rfl, rfl, rfl, rfl, rfl⟩

theorem sameOutside_finish {s t : State} (c : ResultCode) (h : SameOutside s t) : SameOutside s (finish c t) := h

theorem sameOutside_sendAll (ts : List Transaction) (s : State) : SameOutside s (sendAll ts s).2 := by
  rw [sendAll_frame ts s]; exact SameOutside.refl s

/-- WRSTR's loop on valid or invalid bytes alike, as an equation between states. -/
theorem putString_frame (named : List HostRegion) (a n : Nat) (s : State) :
    (putString named a n s).2 =
      { s with
        fb := (putString named a n s).2.fb, cursor := (putString named a n s).2.cursor,
        dend := (putString named a n s).2.dend, dkind := (putString named a n s).2.dkind } := by
  rw [putString_eq]
  have h := (putList_spec (readBytes named s a n) s).2.1
  rw [h]

theorem putChar_frame (c : Nat) (s : State) :
    (putChar c s).2 =
      { s with
        fb := (putChar c s).2.fb, cursor := (putChar c s).2.cursor, dend := (putChar c s).2.dend,
        dkind := (putChar c s).2.dkind } := by
  rcases putChar_cases c s with ⟨-, h⟩ | ⟨-, -, h⟩ | ⟨-, hc, h⟩
  · rw [h]
  · rw [h]
  · rw [h, (putCell_spec c s hc).1]

theorem put_frame (v : Byte) (s : State) :
    (put v s).2 =
      { s with
        fb := (put v s).2.fb, cursor := (put v s).2.cursor, dend := (put v s).2.dend,
        dkind := (put v s).2.dkind } := by
  rcases put_cases v s with ⟨-, h⟩ | ⟨-, h⟩
  · rw [h]
  · rw [h]; rfl

/-- R231: every command that has a next state ends by reporting: its result is returned once and nothing outside
FBCORE but host memory and the transport is touched. -/
theorem exec_next {i : Instr} {s t : State} (h : exec i s = .next t) :
    SameOutside s t ∧ t.returned = s.returned ++ [t.result] := by
  cases i with
  | clear =>
    simp only [exec, execClear, Host.Outcome.next.injEq] at h
    subst h
    simp [SameOutside]
  | gotochunk x y =>
    cases h; split <;> exact ⟨SameOutside.refl s, rfl⟩
  | wrbyte v =>
    cases h; rw [put_frame]; exact ⟨SameOutside.refl s, rfl⟩
  | blitfull a =>
    simp only [exec, execBlitfull, Host.Outcome.next.injEq] at h
    subst h
    split <;> simp [SameOutside]
  | wrchar c =>
    cases h; rw [putChar_frame]; exact ⟨SameOutside.refl s, rfl⟩
  | wrstr a n =>
    cases h
    split
    · rw [putString_frame]; exact ⟨SameOutside.refl s, rfl⟩
    · exact ⟨SameOutside.refl s, rfl⟩
  | gotochar x y =>
    cases h; split <;> exact ⟨SameOutside.refl s, rfl⟩
  | flush =>
    simp only [exec, execFlush] at h
    split at h
    · cases h; exact ⟨SameOutside.refl s, rfl⟩
    · cases h
      have hf := sendAll_frame (flushTransactions s) s
      unfold flushRange
      split
      · next s' hs => rw [hs] at hf; simp only at hf; rw [hf]; exact ⟨SameOutside.refl s, rfl⟩
      · next s' hs => rw [hs] at hf; simp only at hf; rw [hf]; exact ⟨SameOutside.refl s, rfl⟩
    · cases h
    · cases h
  | init c =>
    cases h
    have hf := sendAll_frame (initTransactions c) s
    unfold initDevice
    split
    · next s' hs => rw [hs] at hf; simp only at hf; rw [hf]; exact ⟨SameOutside.refl s, rfl⟩
    · next s' hs => rw [hs] at hf; simp only at hf; rw [hf]; exact ⟨SameOutside.refl s, rfl⟩
  | decode ox oy dst a n =>
    cases h
    split
    · split
      · cases dst <;> exact ⟨SameOutside.refl s, rfl⟩
      · exact ⟨SameOutside.refl s, rfl⟩
    · exact ⟨SameOutside.refl s, rfl⟩

end Sys2Proof.Machine
end

