-- ==== Sys2Proof/Laws/PerInstr.lean ====
section
/-! SUPPORT. What holds of every command as syntax, one lemma a constructor. -/

/-- R91, R94, R98: the W0 of a well-formed command has the opcode of the table's row with the command's mnemonic, and its
reserved field is 0. -/
def Sys2Proof.Laws.EncodeFields.Statement (i : Sys2Proof.Instr) : Prop :=
  i.wellFormed = true → ∃ row ∈ Sys2Proof.opcodeTable, row.mnemonic = i.mnemonic ∧
    Sys2Proof.field (Sys2Proof.encode i).w0 7 0 = Sys2Proof.field row.pattern 7 0 ∧
    Sys2Proof.field (Sys2Proof.encode i).w0 31 25 = 0

namespace Sys2Proof.Laws.EncodeFields

open Sys2Proof

theorem clear : Statement .clear := fun _ => ⟨⟨"CLEAR", 0x00000001, 0xFFFFFFFF⟩, by decide, rfl, rfl, rfl⟩

theorem gotochunk (x y : Nat) : Statement (.gotochunk x y) := fun h => by
  simp only [Instr.wellFormed, fitsByte, Bool.and_eq_true, decide_eq_true_eq] at h
  have f := packW0_fields (o := 2) (d := 0) (by omega) h.1 h.2 (by omega)
  exact ⟨⟨"GOTOCHUNK", 0x00000002, 0xFF0000FF⟩, by decide, rfl, f.1, f.2.2.2.2⟩

theorem wrbyte (v : Byte) : Statement (.wrbyte v) := fun _ => by
  have f := packW0_fields (o := 3) (b := 0) (d := 0) (by omega) v.isLt (by omega) (by omega)
  exact ⟨⟨"WRBYTE", 0x00000003, 0xFFFF00FF⟩, by decide, rfl, f.1, f.2.2.2.2⟩

theorem blitfull (a : Nat) : Statement (.blitfull a) := fun _ => by
  have f := packW0_fields (o := 4) (a := 0) (b := 0) (d := 0) (by omega) (by omega) (by omega) (by omega)
  exact ⟨⟨"BLITFULL", 0x00000004, 0xFFFFFFFF⟩, by decide, rfl, f.1, f.2.2.2.2⟩

theorem wrchar (c : Nat) : Statement (.wrchar c) := fun h => by
  simp only [Instr.wellFormed, fitsByte, decide_eq_true_eq] at h
  have f := packW0_fields (o := 5) (b := 0) (d := 0) (by omega) h (by omega) (by omega)
  exact ⟨⟨"WRCHAR", 0x00000005, 0xFFFF00FF⟩, by decide, rfl, f.1, f.2.2.2.2⟩

theorem wrstr (a n : Nat) : Statement (.wrstr a n) := fun _ => by
  have f := packW0_fields (o := 6) (a := 0) (b := 0) (d := 0) (by omega) (by omega) (by omega) (by omega)
  exact ⟨⟨"WRSTR", 0x00000006, 0xFFFFFFFF⟩, by decide, rfl, f.1, f.2.2.2.2⟩

theorem gotochar (x y : Nat) : Statement (.gotochar x y) := fun h => by
  simp only [Instr.wellFormed, fitsByte, Bool.and_eq_true, decide_eq_true_eq] at h
  have f := packW0_fields (o := 7) (d := 0) (by omega) h.1 h.2 (by omega)
  exact ⟨⟨"GOTOCHAR", 0x00000007, 0xFF0000FF⟩, by decide, rfl, f.1, f.2.2.2.2⟩

theorem flush : Statement .flush := fun _ => ⟨⟨"FLUSH", 0x00000008, 0xFFFFFFFF⟩, by decide, rfl, rfl, rfl⟩

theorem init (c : Nat) : Statement (.init c) := fun h => by
  simp only [Instr.wellFormed, fitsByte, decide_eq_true_eq] at h
  have f := packW0_fields (o := 9) (b := 0) (d := 0) (by omega) h (by omega) (by omega)
  exact ⟨⟨"INIT", 0x00000009, 0xFFFF00FF⟩, by decide, rfl, f.1, f.2.2.2.2⟩

theorem decode (ox oy : Nat) (dst : Dest) (a n : Nat) : Statement (.decode ox oy dst a n) := fun h => by
  simp only [Instr.wellFormed, fitsByte, Bool.and_eq_true, decide_eq_true_eq] at h
  cases dst with
  | fb =>
    have f := packW0_fields (o := 10) (d := 0) (by omega) h.1.1.1.1 h.1.1.1.2 (by omega)
    exact ⟨⟨"DECODE", 0x0000000A, 0xFE0000FF⟩, by decide, rfl, f.1, f.2.2.2.2⟩
  | mem daddr =>
    have f := packW0_fields (o := 10) (d := 1) (by omega) h.1.1.1.1 h.1.1.1.2 (by omega)
    exact ⟨⟨"DECODE", 0x0000000A, 0xFE0000FF⟩, by decide, rfl, f.1, f.2.2.2.2⟩

end Sys2Proof.Laws.EncodeFields
end

