-- ==== Sys2Proof/Laws/Step.lean ====
section
/-! SUPPORT. What a step does around a command (R10, R72, R260): one equation for each event, what settling the races
does to host memory, and that every operation on host memory keeps its canonical form. -/

namespace Sys2Proof.Machine

/-! One equation for each event. -/

theorem step_idle {s : State} (h : s.port = []) : step s = .next s := by
  simp [step, h]

theorem step_event {s : State} {e : HostEvent} {rest : List HostEvent} (h : s.port = e :: rest) :
    step s = runEvent e { s with port := rest } := by
  simp only [step, h]

/-- R72: with no other agent writing, nothing settles. -/
theorem settleRaces_none {s : State} (h : s.races = []) : settleRaces s = s := by
  simp only [settleRaces, h]

/-- R10, R72: a command is its meaning, and then its races settle. -/
theorem runCommand_eq (d : Descriptor) (s : State) : runCommand d s = settleOutcome (issue d s) ∨ s.races = [] := by
  unfold runCommand
  rcases s.races with _ | ⟨a, as⟩
  · exact .inr rfl
  · exact .inl rfl

theorem runCommand_calm (d : Descriptor) {s : State} (h : s.races = []) : runCommand d s = issue d s := by
  simp only [runCommand, h]

theorem runCommand_raced (d : Descriptor) {s : State} (h : s.races ≠ []) :
    runCommand d s = settleOutcome (issue d s) := by
  rcases runCommand_eq d s with h' | h'
  · exact h'
  · exact absurd h' h

/-! The races. -/

/-- Settling the races changes host memory, ends them and takes one draw; nothing else changes. -/
theorem settleRaces_frame (s : State) :
    settleRaces s =
      { s with hostMem := s.races.foldl (raceOne s) s.hostMem, races := [], draws := (settleRaces s).draws } := by
  unfold settleRaces
  split
  · next h => cases s; simp_all
  · next h => simp [h]

@[simp] theorem settleRaces_hostMem (s : State) :
    (settleRaces s).hostMem = s.races.foldl (raceOne s) s.hostMem := by rw [settleRaces_frame]
@[simp] theorem settleRaces_races (s : State) : (settleRaces s).races = [] := by rw [settleRaces_frame]
@[simp] theorem settleRaces_fb (s : State) : (settleRaces s).fb = s.fb := by rw [settleRaces_frame]
@[simp] theorem settleRaces_cursor (s : State) : (settleRaces s).cursor = s.cursor := by rw [settleRaces_frame]
@[simp] theorem settleRaces_dstart (s : State) : (settleRaces s).dstart = s.dstart := by rw [settleRaces_frame]
@[simp] theorem settleRaces_dend (s : State) : (settleRaces s).dend = s.dend := by rw [settleRaces_frame]
@[simp] theorem settleRaces_dkind (s : State) : (settleRaces s).dkind = s.dkind := by rw [settleRaces_frame]
@[simp] theorem settleRaces_result (s : State) : (settleRaces s).result = s.result := by rw [settleRaces_frame]
@[simp] theorem settleRaces_contrast (s : State) : (settleRaces s).contrast = s.contrast := by rw [settleRaces_frame]
@[simp] theorem settleRaces_glyph (s : State) : (settleRaces s).glyph = s.glyph := by rw [settleRaces_frame]
@[simp] theorem settleRaces_hostMap (s : State) : (settleRaces s).hostMap = s.hostMap := by rw [settleRaces_frame]
@[simp] theorem settleRaces_port (s : State) : (settleRaces s).port = s.port := by rw [settleRaces_frame]
@[simp] theorem settleRaces_answers (s : State) : (settleRaces s).answers = s.answers := by rw [settleRaces_frame]
@[simp] theorem settleRaces_trace (s : State) : (settleRaces s).trace = s.trace := by rw [settleRaces_frame]
@[simp] theorem settleRaces_returned (s : State) : (settleRaces s).returned = s.returned := by rw [settleRaces_frame]
@[simp] theorem settleRaces_readLog (s : State) : (settleRaces s).readLog = s.readLog := by rw [settleRaces_frame]

/-- Settling takes one draw where there is a race. -/
theorem settleRaces_draws (s : State) : (settleRaces s).draws = s.draws + if s.races = [] then 0 else 1 := by
  unfold settleRaces; split <;> simp_all

/-! A command that a reset abandons. -/

/-- R260: an abandoned command changes, before the reset, host memory, the trace and the supply of answers alone. -/
theorem runAbandoned_frame (i : Instr) (k : Nat) (s : State) :
    runAbandoned i k s =
      { s with
        hostMem := (runAbandoned i k s).hostMem, trace := (runAbandoned i k s).trace,
        answers := s.answers.drop ((runAbandoned i k s).trace.length - s.trace.length) } := by
  have same : ∀ m : Memory, ({ s with hostMem := m } : State) =
      { s with hostMem := m, trace := s.trace, answers := s.answers.drop (s.trace.length - s.trace.length) } := by simp
  have sent : ∀ ts : List Transaction, (sendAll ts s).2 =
      { s with
        hostMem := (sendAll ts s).2.hostMem, trace := (sendAll ts s).2.trace,
        answers := s.answers.drop ((sendAll ts s).2.trace.length - s.trace.length) } := by
    intro ts
    rw [← sendAll_answers]
    conv_lhs => rw [sendAll_frame]
    conv_rhs => rw [sendAll_frame]
  cases i <;> simp only [runAbandoned] <;> try exact same s.hostMem
  · split <;> first | exact sent _ | exact same s.hostMem
  · exact sent _
  · split
    · exact same s.hostMem
    · split
      · split
        · exact same _
        · exact same s.hostMem
      · exact same s.hostMem

/-- A backed address is one of the 2^32. -/
theorem hostValid_lt {s : State} {a : Nat} (h : hostValid s a = true) : a < 4294967296 := by
  simp only [hostValid, Bool.and_eq_true, decide_eq_true_eq] at h
  exact h.1

theorem raceOne_wf (s : State) {m : Memory} (a : Nat) (h : Memory.wf m) : Memory.wf (raceOne s m a) := by
  unfold raceOne
  split
  · next hv => exact memWrite_wf m a _ h (hostValid_lt hv)
  · exact h

theorem foldl_raceOne_wf (s : State) (as : List Nat) {m : Memory} (h : Memory.wf m) :
    Memory.wf (as.foldl (raceOne s) m) := by
  induction as generalizing m with
  | nil => exact h
  | cons a as ih => exact ih (raceOne_wf s a h)

/-- R72: a byte no other agent wrote is as the command left it. -/
theorem foldl_raceOne_other (s : State) (as : List Nat) {m : Memory} (h : Memory.wf m) {a : Nat} (ha : a ∉ as) :
    memRead (as.foldl (raceOne s) m) a = memRead m a := by
  induction as generalizing m with
  | nil => rfl
  | cons b as ih =>
    simp only [List.mem_cons, not_or] at ha
    rw [List.foldl_cons, ih (raceOne_wf s b h) ha.2]
    unfold raceOne
    split
    · exact memRead_memWrite_other m b a _ h ha.1
    · rfl

/-- R72: a backed byte that another agent wrote is a free value. -/
theorem foldl_raceOne_mem (s : State) (as : List Nat) {m : Memory} (h : Memory.wf m) {a : Nat} (ha : a ∈ as)
    (hv : hostValid s a = true) : memRead (as.foldl (raceOne s) m) a = Config.racedLeft s.draws a := by
  induction as generalizing m with
  | nil => cases ha
  | cons b as ih =>
    by_cases hin : a ∈ as
    · exact ih (raceOne_wf s b h) hin
    · have hab : a = b := by simpa [hin] using ha
      subst hab
      rw [List.foldl_cons, foldl_raceOne_other s as (raceOne_wf s a h) hin]
      simp only [raceOne, hv, if_true]
      exact memRead_memWrite_same m a _ h

/-! The canonical form of host memory. -/

theorem settleRaces_wf {s : State} (h : Memory.wf s.hostMem) : Memory.wf (settleRaces s).hostMem := by
  rw [settleRaces_hostMem]; exact foldl_raceOne_wf s _ h

theorem hostWrite_wf {s : State} {a : Nat} (v : Byte) (h : Memory.wf s.hostMem) (ha : a < 4294967296) :
    Memory.wf (hostWrite a v s).hostMem := memWrite_wf _ _ _ h ha

theorem hostStore_wf {s : State} (a : Word) (v : Byte) (h : Memory.wf s.hostMem) :
    Memory.wf (hostStore a v s).hostMem := by
  unfold hostStore
  split
  · exact hostWrite_wf v h a.isLt
  · exact h

/-- Canvas writes at indices on the canvas, to a canvas inside the address space, keep the form. -/
theorem blit_wf {s : State} {named : List HostRegion} {dst : Dest} {ws : List (Nat × Byte)} (h : Memory.wf s.hostMem)
    (hw : ∀ w ∈ ws, w.1 < 504) (hd : destValid s dst = true) : Memory.wf (blit named dst ws s).hostMem := by
  cases dst with
  | fb => exact h
  | mem daddr =>
    refine foldl_memWrite_wf _ daddr _ h fun w hin => ?_
    obtain ⟨v, hv, rfl⟩ := mem_leftWrites.1 hin
    have := hw v hv
    simp only [destValid, validRange, Bool.or_eq_true, decide_eq_true_eq, Bool.and_eq_true] at hd
    omega

/-- Every canvas write of an image that fits is on the canvas (R206, R207). -/
theorem blitWrites_lt {img : Image} (hw : img.width ≤ 84) (hh : img.height ≤ 6) (ox oy : Nat) :
    ∀ w ∈ blitWrites img ox oy, w.1 < 504 := by
  intro w hin
  have hm : w.1 ∈ blitIndices img.width img.height (place ox oy img.width img.height).1
      (place ox oy img.width img.height).2 := (List.of_mem_zip hin).1
  obtain ⟨r, hr, c, hc, he⟩ := mem_blitIndices.1 hm
  have h1 : (place ox oy img.width img.height).1 + img.width ≤ 84 := placeAxis_fits ox _ 84 hw
  have h2 : (place ox oy img.width img.height).2 + img.height ≤ 6 := placeAxis_fits oy _ 6 hh
  omega

/-- R67: a valid range is inside the address space and every byte of it is backed. -/
theorem validRange_iff (s : State) (a n : Nat) :
    validRange s a n = true ↔ n = 0 ∨ a + n ≤ 4294967296 ∧ ∀ k < n, hostValid s (a + k) = true := by
  simp [validRange]

end Sys2Proof.Machine
end

