-- ==== Sys2Proof/Tests/Slice0.lean ====
section
/-! SUPPORT. The model's own tests, and for every obligation with hypotheses a witness that meets them. The expected
results are the spec's: the examples of R101 and the vectors of 95_test_vectors.md, named in each test's comment. -/

open Sys2Proof Sys2Proof.Machine

namespace Sys2Proof.Tests

/-! The small states the tests run on. -/

/-- The start of a vector of 95_test_vectors.md: `FB` all 0x00, every host address backed, the Transport answering `OK`.
The glyph bytes are the test's own: byte `k` of code `c` is `(c − 32)·5 + k` mod 256. -/
def base : State :=
  { State.reset with
    fb := Vector.replicate 504 0x00
    glyph := Vector.ofFn fun i => BitVec.ofNat 8 i
    answers := [.ok, .ok, .ok] }

/-- The vector's start state `(CURSOR, DSTART, DEND, R)`. -/
def start (c a e : Nat) (r : Bool) : State :=
  { base with cursor := BitVec.ofNat 16 c, dstart := BitVec.ofNat 16 a, dend := BitVec.ofNat 16 e, dkind := ⟨r, false⟩ }

/-- The same state with `bs` in host memory from `a` on. -/
def withBytes (a : Nat) : List Byte → State → State
  | [], s => s
  | b :: bs, s => withBytes (a + 1) bs (hostWrite a b s)

/-- What the vectors list of a next state: the result and `(CURSOR, DSTART, DEND, R)`. -/
def outcome : Host.Outcome State Fault Refusal → Option (ResultCode × Nat × Nat × Nat × Bool)
  | .next t => some (t.result, t.cursor.toNat, t.dstart.toNat, t.dend.toNat, t.dkind.range)
  | _ => none

/-- The pixel bytes at the listed indices of a next state. -/
def pixels (is : List Nat) : Host.Outcome State Fault Refusal → List (Option Byte)
  | .next t => is.map fun i => t.fb[i]?
  | _ => []

/-- The next state, or the state given where there is none. -/
def after (s : State) : Host.Outcome State Fault Refusal → State
  | .next t => t
  | _ => s

/-! WellFormed: one ill-formed term for each check. -/

theorem test_wellFormed_gotochunk_x : (Instr.gotochunk 256 0).wellFormed = false := by decide
theorem test_wellFormed_gotochunk_y : (Instr.gotochunk 0 256).wellFormed = false := by decide
theorem test_wellFormed_blitfull : (Instr.blitfull 4294967296).wellFormed = false := by decide
theorem test_wellFormed_wrchar : (Instr.wrchar 256).wellFormed = false := by decide
theorem test_wellFormed_wrstr_addr : (Instr.wrstr 4294967296 0).wellFormed = false := by decide
theorem test_wellFormed_wrstr_len : (Instr.wrstr 0 4294967296).wellFormed = false := by decide
theorem test_wellFormed_gotochar_x : (Instr.gotochar 256 0).wellFormed = false := by decide
theorem test_wellFormed_gotochar_y : (Instr.gotochar 0 256).wellFormed = false := by decide
theorem test_wellFormed_init : (Instr.init 256).wellFormed = false := by decide
theorem test_wellFormed_decode_ox : (Instr.decode 256 0 .fb 0 0).wellFormed = false := by decide
theorem test_wellFormed_decode_oy : (Instr.decode 0 256 .fb 0 0).wellFormed = false := by decide
theorem test_wellFormed_decode_addr : (Instr.decode 0 0 .fb 4294967296 0).wellFormed = false := by decide
theorem test_wellFormed_decode_len : (Instr.decode 0 0 .fb 0 4294967296).wellFormed = false := by decide
theorem test_wellFormed_decode_daddr : (Instr.decode 0 0 (.mem 4294967296) 0 0).wellFormed = false := by decide
theorem test_wellFormed_none_refused :
    ([.clear, .gotochunk 255 255, .wrbyte 0xFF, .blitfull 4294967295, .wrchar 255, .wrstr 4294967295 4294967295,
      .gotochar 255 255, .flush, .init 255, .decode 255 255 (.mem 4294967295) 4294967295 4294967295] :
      List Instr).all Instr.wellFormed = true := by decide

/-! Decode: every constructor from a word written out from R91 and R94, as the opcode table numbers its bits. -/

theorem test_decode_clear : decodeTableWord 32 0x00000001 = some .clear := by decide
/-- R101. -/
theorem test_decode_gotochunk : decodeTableWord 32 0x00010A02 = some (.gotochunk 10 1) := by decide
/-- R101. -/
theorem test_decode_wrbyte : decodeTableWord 32 0x00005503 = some (.wrbyte 0x55) := by decide
/-- `OPC` = 0x04, W1 = 0x2000. -/
theorem test_decode_blitfull : decodeTableWord 128 0x00000000_00000000_00002000_00000004 = some (.blitfull 0x2000) := by
  decide
/-- R101: `WRCHAR 'A'`. -/
theorem test_decode_wrchar : decodeTableWord 32 0x00004105 = some (.wrchar 65) := by decide
/-- TX10: W1 = 0x100, W2 = 3. -/
theorem test_decode_wrstr : decodeTableWord 128 0x00000000_00000003_00000100_00000006 = some (.wrstr 0x100 3) := by
  decide
/-- R101. -/
theorem test_decode_gotochar : decodeTableWord 32 0x00050D07 = some (.gotochar 13 5) := by decide
theorem test_decode_flush : decodeTableWord 32 0x00000008 = some .flush := by decide
/-- R101. -/
theorem test_decode_init : decodeTableWord 32 0x0000C809 = some (.init 200) := by decide
/-- R101: `DECODE 83, 5, FB, 0x1000, 9`. -/
theorem test_decode_decode_fb :
    decodeTableWord 128 0x00000000_00000009_00001000_0005530A = some (.decode 83 5 .fb 0x1000 9) := by decide
/-- R101: `DECODE 5, 2, MEM, 0x1000, 7, 0x3000`. -/
theorem test_decode_decode_mem :
    decodeTableWord 128 0x00003000_00000007_00001000_0102050A = some (.decode 5 2 (.mem 0x3000) 0x1000 7) := by decide
/-- EN1 to EN8: the illegal words of 95_test_vectors.md, each rejected by name. -/
theorem test_decode_rejects :
    ([0x00000000, 0x0000000B, 0x000000FF, 0x00000101, 0x01000002, 0x8000000A, 0x0200000A, 0x00010108] :
      List Word).map (fun w => decode ⟨w, 0, 0, 0⟩) =
      [.error .opcode, .error .opcode, .error .opcode, .error .operandA, .error .destination, .error .reserved,
        .error .reserved, .error .operandA] := by decide
/-- R95: the same checks where the field is `B`, and where `DST` is set on a command with no W0 operand. -/
theorem test_decode_rejects_fields :
    decode ⟨0x00010003, 0, 0, 0⟩ = .error .operandB ∧ decode ⟨0x01000001, 0, 0, 0⟩ = .error .destination ∧
      decode ⟨0x00010001, 0, 0, 0⟩ = .error .operandB := by decide
theorem test_decodeBytes_length : decodeBytes [0x01, 0x00, 0x00, 0x00] = .error .length := by decide

/-! The assembler (R99). -/

theorem test_assembler_comment : assembleLine "FLUSH ; send it".toList = .descriptor ⟨0x00000008, 0, 0, 0⟩ := by decide
theorem test_assembler_hex : assembleLine "BLITFULL 0xFFFFFE08".toList = .descriptor ⟨4, 0xFFFFFE08, 0, 0⟩ := by decide
theorem test_assembler_wide : assembleLine "INIT 256".toList = .refused := by decide

/-! One step of each command. -/

/-- FB1 and E1: the registers and two of the bytes. -/
theorem test_clear : outcome (exec .clear (start 37 90 90 false)) = some (.ok, 0, 0, 504, true) := by decide +kernel
/-- FB1. -/
theorem test_clear_bytes :
    pixels [0, 503] (exec .clear { start 37 90 90 false with fb := Vector.replicate 504 0xEE }) =
      [some 0x00, some 0x00] := by decide +kernel
/-- FB2. -/
theorem test_gotochunk : outcome (exec (.gotochunk 10 1) (start 7 200 300 true)) = some (.ok, 94, 94, 300, true) := by
  decide +kernel
/-- E3, the first row out of range. -/
theorem test_gotochunk_row :
    outcome (exec (.gotochunk 0 6) (start 7 200 300 true)) = some (.outOfRange, 7, 200, 300, true) := by decide +kernel
/-- R134's example. -/
theorem test_wrbyte :
    outcome (exec (.wrbyte 0x3C) (start 10 10 10 false)) = some (.ok, 11, 10, 11, true) ∧
      pixels [9, 10, 11] (exec (.wrbyte 0x3C) (start 10 10 10 false)) = [some 0, some 0x3C, some 0] := by decide +kernel
/-- R134: the last byte. -/
theorem test_wrbyte_last :
    outcome (exec (.wrbyte 0x01) (start 503 0 503 true)) = some (.ok, 504, 0, 504, true) := by decide +kernel
/-- FB14: the highest valid address; the last byte read is at 0xFFFFFFFF, and `CURSOR` stays. -/
theorem test_blitfull :
    outcome (exec (.blitfull 0xFFFFFE08) (withBytes 0xFFFFFFFF [0x77] (start 504 20 30 true))) =
        some (.ok, 504, 0, 504, true) ∧
      pixels [502, 503] (exec (.blitfull 0xFFFFFE08) (withBytes 0xFFFFFFFF [0x77] (start 504 20 30 true))) =
        [some 0, some 0x77] := by decide +kernel
/-- FB15. -/
theorem test_blitfull_range :
    outcome (exec (.blitfull 0xFFFFFE09) (start 37 10 90 true)) = some (.busError, 37, 10, 90, true) := by
  decide +kernel
/-- TX2: the last cell; code 0x41 has its glyph at table bytes 165 to 169. -/
theorem test_wrchar :
    outcome (exec (.wrchar 0x41) (start 498 0 498 true)) = some (.ok, 504, 0, 504, true) ∧
      pixels [497, 498, 502, 503] (exec (.wrchar 0x41) (start 498 0 498 true)) =
        [some 0, some 165, some 169, some 0] := by decide +kernel
/-- TX9: the glyph check comes before the room check. -/
theorem test_wrchar_order :
    outcome (exec (.wrchar 0x10) (start 504 0 504 true)) = some (.invalidGlyph, 504, 0, 504, true) := by decide +kernel
/-- TX12: two characters fit, the third is dropped. -/
theorem test_wrstr_full :
    outcome (exec (.wrstr 0x100 4) (withBytes 0x100 [0x41, 0x42, 0x43, 0x00] (start 492 0 492 true))) =
      some (.bufferFull, 504, 0, 504, true) := by decide +kernel
/-- TX11: the string stops at a code without a glyph and keeps what it wrote. -/
theorem test_wrstr_glyph :
    outcome (exec (.wrstr 0x100 3) (withBytes 0x100 [0x41, 0x01, 0x42] (start 0 0 0 false))) =
      some (.invalidGlyph, 6, 0, 6, true) := by decide +kernel
/-- TX18. -/
theorem test_gotochar : outcome (exec (.gotochar 13 5) (start 0 0 0 false)) = some (.ok, 498, 0, 498, true) := by
  decide +kernel
/-- TX20: no 8-bit wrap of `6·x`. -/
theorem test_gotochar_wrap :
    outcome (exec (.gotochar 255 0) (start 0 0 0 false)) = some (.outOfRange, 0, 0, 0, false) := by decide +kernel
/-- SY2: the trace, whatever the positioning bytes are. -/
theorem test_flush_trace :
    (after base (exec .flush (start 7 80 90 true))).trace =
      [⟨.cmd (Config.cmdSetX 80), .ok⟩, ⟨.cmd (Config.cmdSetY 0), .ok⟩, ⟨.data (List.replicate 10 0x00), .ok⟩] := rfl
/-- SY5: the range that ends at 504 is anchored at 0. -/
theorem test_flush_anchor : outcome (exec .flush (start 504 503 504 true)) = some (.ok, 504, 0, 0, false) := by
  decide +kernel
/-- SY11: the contrast is clamped, whatever the sequence `INIT_CMDS(127)` is. -/
theorem test_init_contrast :
    (after base (exec (.init 200) { base with
      contrast := 60, answers := List.replicate (Config.initCmds 127).length .ok })).contrast = 127 := by
  have h : sendAll (initTransactions 200) { base with
      contrast := 60, answers := List.replicate (Config.initCmds 127).length .ok } = _ :=
    sendAll_ok (initTransactions 200) _ (by
      intro k hk
      have hk' : k < (Config.initCmds 127).length := by simpa [initTransactions, clampContrast] using hk
      simp [answerAt, hk'])
  simp only [exec, execInit, initDevice]
  rw [h]
  rfl
/-- DC4 and E9: a run across a row of the image. -/
theorem test_decode_rows :
    pixels [93, 94, 95, 96, 177, 178, 179, 180] (exec (.decode 10 1 .fb 0x1000 9)
      (withBytes 0x1000 [0x01, 0x02, 0x02, 0x00, 0x01, 0xAA, 0x02, 0x01, 0xBB] (start 7 3 9 true))) =
      [some 0, some 0xAA, some 0xFF, some 0, some 0, some 0xFF, some 0xBB, some 0] ∧
    outcome (exec (.decode 10 1 .fb 0x1000 9)
      (withBytes 0x1000 [0x01, 0x02, 0x02, 0x00, 0x01, 0xAA, 0x02, 0x01, 0xBB] (start 7 3 9 true))) =
      some (.ok, 7, 3, 9, true) := by decide +kernel
/-- DC9: a zero blank run does not stop the body. -/
theorem test_decode_zero_run :
    pixels [0, 1, 2, 3] (exec (.decode 0 0 .fb 0x1000 10)
      (withBytes 0x1000 [0x00, 0x03, 0x01, 0x00, 0x01, 0xA1, 0x00, 0x02, 0xA2, 0xA3] (start 7 3 9 true))) =
      [some 0xA1, some 0xA2, some 0xA3, some 0] := by decide +kernel
/-- DC26 and DC30: the external canvas, also where it overlaps the stream. -/
theorem test_decode_mem :
    memRead (after base (exec (.decode 5 2 (.mem 0x3000) 0x1000 7)
      (withBytes 0x1000 [0x00, 0x01, 0x01, 0x00, 0x01, 0xAA, 0x00] (start 7 3 9 true)))).hostMem 0x30AD = 0xAA ∧
    memRead (after base (exec (.decode 0 0 (.mem 0x1000) 0x1000 7)
      (withBytes 0x1000 [0x00, 0x01, 0x01, 0x00, 0x01, 0xAA, 0x00] (start 7 3 9 true)))).hostMem 0x1000 = 0xAA := by
  decide +kernel
/-- DC19: a second byte of a field with bit 7 set. -/
theorem test_decode_malformed :
    outcome (exec (.decode 0 0 .fb 0x1000 7)
      (withBytes 0x1000 [0x00, 0x81, 0x80, 0x01, 0x00, 0x01, 0xAA] (start 7 3 9 true))) =
      some (.decodeError, 7, 3, 9, true) := by decide +kernel

/-! One step of the machine. -/

/-- EN4: an illegal descriptor. -/
theorem test_step_illegal :
    outcome (step { start 37 10 90 true with port := [.command ⟨0x00000101, 0, 0, 0⟩] }) =
      some (.illegalCommand, 37, 10, 90, true) := by decide +kernel
/-- R30: an unmapped offset, and the last byte of the pixel window. -/
theorem test_readback :
    readback { start 7 80 90 true with fb := Vector.replicate 504 0xEE } 0x5F8 = 0 ∧
      readback { start 7 80 90 true with fb := Vector.replicate 504 0xEE } 0x5F7 = 0xEE ∧
      readback (start 7 80 90 true) 0x00C = 90 := by decide +kernel
/-- Writing what an unlisted address reads as removes the entry. -/
theorem test_memory_canonical :
    memWrite (memWrite (memWrite [] 9 1) 3 2) 9 0 = [(3, 2)] ∧
      memRead (memWrite (memWrite [] 9 1) 3 2) 4 = 0 := by decide

/-! Witnesses: for each obligation with hypotheses, a state and operands that meet them, each clause at a boundary. -/

/-- The invariant of a start state whose numbers are legal. -/
theorem start_inv {c a e : Nat} {r : Bool} (hc : c ≤ 504) (ha : a ≤ 503) (hae : a ≤ e) (he : e ≤ 504)
    (hr : r = false → a = e) : (start c a e r).Inv := by
  have h : ∀ n : Nat, n ≤ 504 → (BitVec.ofNat 16 n).toNat = n := fun n hn => by simp; omega
  refine ⟨?_, ?_, ?_, ?_, rfl, ?_, show (0 : Byte).toNat ≤ 127 by decide,
    show ResultCode.ok ≠ .notImplemented by decide, wf_nil⟩
  · simp only [start, h c hc]; exact hc
  · simp only [start, h a (by omega)]; exact ha
  · simp only [start, h a (by omega), h e he]; exact hae
  · simp only [start, h e he]; exact he
  · intro h0; simp only [start]; rw [hr h0]

theorem withBytes_inv (a : Nat) (bs : List Byte) (s : State) (h : s.Inv) (ha : a + bs.length ≤ 4294967296) :
    (withBytes a bs s).Inv := by
  induction bs generalizing a s with
  | nil => exact h
  | cons b bs ih =>
    simp only [List.length_cons] at ha
    exact ih (a + 1) _ { h with hostMem_wf := hostWrite_wf b h.hostMem_wf (by omega) } (by omega)

theorem withPort_inv {s : State} (h : s.Inv) (p : List HostEvent) (rs : List Nat) :
    ({ s with port := p, races := rs } : State).Inv := { h with }

/-! R72: one byte written by another agent frees the whole range a command names, and no other range. -/

theorem test_race_frees_the_named_range (n : Nat) :
    hostRead (namedRanges (.blitfull 0x1000)) { base with races := [0x11F7], draws := n } 0x1000 =
      Config.racedRead n 0x1000 := rfl

theorem test_race_outside_the_named_range :
    hostRead (namedRanges (.blitfull 0x1000)) { hostWrite 0x1000 0x5A base with races := [0x11F8] } 0x1000 = 0x5A := by
  decide +kernel

/-- Every backed host range of the start states: the whole 32-bit space. -/
theorem base_valid (s : State) (h : s.hostMap = [⟨0, 4294967296⟩]) (a n : Nat) (ha : a + n ≤ 4294967296) :
    validRange s a n = true := by
  rw [validRange_iff]
  refine .inr ⟨ha, fun k hk => ?_⟩
  simp [hostValid, inRegion, h]; omega

theorem witness_DecodeOfEncodeIsTheCommand :
    (Instr.decode 255 255 (.mem 4294967295) 4294967295 4294967295).wellFormed = true := by decide

theorem witness_LegalWordIsItsCommandsWord :
    decode ⟨0x01FFFF0A, 0xFFFFFFFF, 0xFFFFFFFF, 0xFFFFFFFF⟩ =
      .ok (.decode 255 255 (.mem 4294967295) 4294967295 4294967295) := by decide

theorem witness_LegalExactlyByTheOpcodeTable :
    decode ⟨0x00FFFF02, 0, 0, 0⟩ = .ok (.gotochunk 255 255) ∧
      (⟨"DECODE", 0x0000000A, 0xFE0000FF⟩ : TableRow) ∈ opcodeTable ∧
      field 0x0000000A 7 0 = field 0x01FFFF0A 7 0 ∧ (0x01FFFF0A : Word) &&& 0xFE0000FF = 0x0000000A := by decide

theorem witness_UnusedWordsAreIgnored :
    field 0x00000009 7 0 ∈ [1, 2, 3, 5, 7, 8, 9] ∧ field 0x00000004 7 0 = 4 ∧ field 0x00000006 7 0 = 6 ∧
      field 0x0000000A 7 0 = 10 ∧ field 0x0000000A 24 24 = 0 := by decide

theorem witness_IllegalDescriptorOnlyReports :
    ({ base with port := [.command ⟨0x0000000B, 0, 0, 0⟩] } : State).port = [.command ⟨0x0000000B, 0, 0, 0⟩] ∧
      decode ⟨0x0000000B, 0, 0, 0⟩ = .error .opcode ∧
      ({ base with port := [.command ⟨0x0000000B, 0, 0, 0⟩] } : State).races = [] := ⟨rfl, by decide, rfl⟩

theorem witness_AssemblerOutputIsLegal :
    assembleLine "INIT 255".toList = .descriptor ⟨0x0000FF09, 0, 0, 0⟩ := by decide

theorem witness_DescriptorBytesAreLittleEndian : 3 < 4 ∧ (List.replicate 15 (0x00 : Byte)).length ≠ 16 := by decide

theorem witness_StepRunsTheDecodedCommand :
    (∃ s : State, s.port = [.command ⟨0x00000001, 0, 0, 0⟩] ∧ decode ⟨0x00000001, 0, 0, 0⟩ = .ok .clear ∧
      s.races = [] ∧ ∃ t, exec .clear { s with port := [] } = .next t) ∧
    ∃ s : State, s.port = [.command ⟨0x00000008, 0, 0, 0⟩] ∧ decode ⟨0x00000008, 0, 0, 0⟩ = .ok .flush ∧
      exec .flush { s with port := [] } = .refused .areaFlush :=
  ⟨⟨{ base with port := [.command ⟨0x00000001, 0, 0, 0⟩] }, rfl, by decide, rfl, _, rfl⟩,
    ⟨{ base with port := [.command ⟨0x00000008, 0, 0, 0⟩], dkind := ⟨true, true⟩ }, rfl, by decide, rfl⟩⟩

theorem witness_NoCommandNoEffect :
    base.port = [] ∧ ({ base with port := [.read 0xFFF] } : State).port = [.read 0xFFF] ∧
      ({ base with port := [.write 0x000 7] } : State).port = [.write 0x000 7] ∧
      ({ base with port := [.race [0xFFFFFFFF]] } : State).port = [.race [0xFFFFFFFF]] := ⟨rfl, rfl, rfl, rfl⟩

/-- The offsets next to the map's entries. -/
theorem witness_ReadbackPortMap :
    503 < 504 ∧ ∀ off ∈ [(0x001 : BitVec 12), 0x018, 0x3FF, 0x5F8, 0xFFF],
      off.toNat ∉ [0x000, 0x004, 0x008, 0x00C, 0x010, 0x014] ∧ ¬ (0x400 ≤ off.toNat ∧ off.toNat ≤ 0x5F7) := by decide

theorem witness_ResetTouchesOnlyFbcore : ({ base with port := [.reset] } : State).port = [.reset] := rfl

/-- The stream of R118, at 0x1000. -/
def oneByOne : State := withBytes 0x1000 [0x00, 0x01, 0x01, 0x00, 0x01, 0xAA, 0x00] (start 7 3 9 true)

theorem oneByOne_inv : oneByOne.Inv :=
  withBytes_inv _ _ _ (start_inv (by decide) (by decide) (by decide) (by decide) (by decide)) (by decide)

theorem oneByOne_bytes : hostBytes oneByOne 0x1000 7 = [0x00, 0x01, 0x01, 0x00, 0x01, 0xAA, 0x00] := by decide +kernel

theorem oneByOne_image : imageAt .fb 0x1000 7 oneByOne = some ⟨1, 1, [0xAA]⟩ := by decide +kernel

theorem oneByOne_image_mem : imageAt (.mem 0xFFFFFE08) 0x1000 7 oneByOne = some ⟨1, 1, [0xAA]⟩ := by decide +kernel

/-- The canvas at the highest address it fits. -/
theorem oneByOne_canvas : validRange oneByOne 0xFFFFFE08 504 = true := base_valid _ rfl _ _ (by decide)

/-- A FLUSH in Idle; a FLUSH all of whose first two answers are `OK` and one whose second fails; the same for INIT, whose
sequence may have any length; a DECODE to the canvas that writes, one for each way it does not, and one that races. -/
theorem witness_ResetDuringCommandKeepsAPrefix :
    (decode ⟨0x00000008, 0, 0, 0⟩ = .ok .flush ∧ (start 7 90 90 false).dkind = ⟨false, false⟩ ∧
      (start 7 80 90 true).dkind = ⟨true, false⟩ ∧ (∀ j < min 2 3, answerAt (start 7 80 90 true) j = .ok) ∧
      (∃ x, (flushTransactions (start 7 80 90 true))[1]? = some x) ∧
      (∀ j < 1, answerAt { start 7 80 90 true with answers := [.ok, .fail] } j = .ok) ∧
      answerAt { start 7 80 90 true with answers := [.ok, .fail] } 1 = .fail) ∧
    (decode ⟨0x0000FF09, 0, 0, 0⟩ = .ok (.init 255) ∧
      (∀ j < min 1 (Config.initCmds 127).length, answerAt { base with answers := [.ok] } j = .ok) ∧
      answerAt { base with answers := [.fail] } 0 = .fail) ∧
    (decode ⟨0x0102050A, 0x1000, 7, 0xFFFFFE08⟩ = .ok (.decode 5 2 (.mem 0xFFFFFE08) 0x1000 7) ∧
      oneByOne.races = [] ∧ validRange oneByOne 0x1000 7 = true ∧ validRange oneByOne 0xFFFFFE08 504 = true ∧
      imageAt (.mem 0xFFFFFE08) 0x1000 7 oneByOne = some ⟨1, 1, [0xAA]⟩) ∧
    (decode ⟨0x0102050A, 0xFFFFFFFA, 7, 0xFFFFFE09⟩ = .ok (.decode 5 2 (.mem 0xFFFFFE09) 0xFFFFFFFA 7) ∧
      validRange oneByOne 0xFFFFFFFA 7 = false ∧ validRange oneByOne 0xFFFFFE09 504 = false ∧
      imageAt (.mem 0xFFFFFE08) 0x1000 2 oneByOne = none) ∧
    (({ oneByOne with races := [0x1005] } : State).Inv ∧ hostValid oneByOne 0x1005 = true ∧ 0x1004 ∉ [0x1005]) := by
  refine ⟨⟨by decide, rfl, rfl, by decide, ⟨_, rfl⟩, by decide, by decide⟩, ⟨by decide, ?_, by decide⟩,
    ⟨by decide, rfl, base_valid _ rfl _ _ (by decide), oneByOne_canvas,
    oneByOne_image_mem⟩, by decide +kernel, withPort_inv oneByOne_inv _ _, by decide +kernel, by decide⟩
  intro j hj
  have : j = 0 := by omega
  subst this
  rfl

/-- Each of the port's events, from a state at the bounds of the invariant. -/
theorem witness_StepKeepsTheInvariant :
    (start 504 503 504 true).Inv ∧ ∃ t, step { start 504 503 504 true with port := [.command ⟨8, 0, 0, 0⟩] } = .next t :=
  ⟨start_inv (by decide) (by decide) (by decide) (by decide) (by decide), _, rfl⟩

theorem witness_StepAlwaysCompletes : (start 504 503 504 true).Inv := witness_StepKeepsTheInvariant.1

theorem witness_TheOneRefusalIsFlushInArea :
    ({ base with dkind := ⟨false, true⟩ } : State).dkind.area = true ∧
      exec .flush { base with dkind := ⟨false, true⟩ } = .refused .areaFlush ∧
      exec .flush { base with dkind := ⟨true, true⟩ } = .refused .areaFlush := ⟨rfl, rfl, rfl⟩

theorem witness_EveryCommandReturnsItsResult :
    (∃ t, step { base with port := [.command ⟨0, 0, 0, 0⟩] } = .next t) ∧
      (∃ t, step { base with port := [.read 0] } = .next t) ∧ (∃ t, step { base with port := [.reset] } = .next t) ∧
      ∃ t, step { base with port := [.resetDuring ⟨1, 0, 0, 0⟩ 0] } = .next t :=
  ⟨⟨_, rfl⟩, ⟨_, rfl⟩, ⟨_, rfl⟩, ⟨_, rfl⟩⟩

theorem witness_TrackGotoExtendsTheRange :
    503 ≤ 503 ∧ (start 0 503 504 true).dstart.toNat ≤ (start 0 503 504 true).dend.toNat ∧
      (start 0 503 504 true).dend.toNat ≤ 504 := by decide

theorem witness_PutStoresOrFails :
    504 ≤ (start 504 0 504 true).cursor.toNat ∧ (start 503 0 503 true).cursor.toNat < 504 ∧
      (start 503 0 503 true).cursor.toNat + 1 > (start 503 0 503 true).dend.toNat ∧
      (start 503 0 504 true).cursor.toNat + 1 ≤ (start 503 0 504 true).dend.toNat := by decide

/-- The last chunk, and the first ones out of range on each axis. -/
theorem witness_GotochunkMovesOrReports : (83 ≤ 83 ∧ 5 ≤ 5) ∧ (83 < 84 ∨ 5 < 0) ∧ (83 < 0 ∨ 5 < 6) := by decide

theorem witness_WrbyteStoresOrReports :
    (start 503 0 503 true).cursor.toNat < 504 ∧ 504 ≤ (start 504 0 504 true).cursor.toNat := by decide

theorem witness_BlitfullCopiesAndMarksAll : validRange base 0xFFFFFE08 504 = true := base_valid _ rfl _ _ (by decide)

theorem witness_WrittenByteIsAPixelColumn :
    (start 503 0 503 true).cursor.toNat < 504 ∧ (∃ t, exec (.wrbyte 0x80) (start 503 0 503 true) = .next t) ∧ 7 < 8 :=
  ⟨by decide, ⟨_, rfl⟩, by decide⟩

/-- The codes next to the table, the first and the last code in it, and the last cell. -/
theorem witness_CharWritesACellOrNothing :
    (31 < 32 ∨ 126 < 31) ∧ (127 < 32 ∨ 126 < 127) ∧ (32 ≤ 126 ∧ 126 ≤ 126) ∧ (32 ≤ 32 ∧ 32 ≤ 126) ∧
      504 < (start 499 0 499 true).cursor.toNat + 6 ∧ (start 498 0 498 true).cursor.toNat + 6 ≤ 504 := by decide

theorem witness_WrcharWritesACellOrReports :
    (31 < 32 ∨ 126 < 31) ∧ (32 ≤ 126 ∧ 126 ≤ 126) ∧ 498 < (start 499 0 499 true).cursor.toNat ∧
      (start 498 0 498 true).cursor.toNat ≤ 498 := by decide

/-- TX13: an empty string at the last address; and a string of three bytes up to it. -/
theorem witness_WrstrWritesUpToTheFirstFailure :
    validRange base 0xFFFFFFFF 0 = true ∧ validRange base 0xFFFFFFFD 3 = true :=
  ⟨base_valid _ rfl _ _ (by decide), base_valid _ rfl _ _ (by decide)⟩

/-- A string of `n` letters 'A' at 0x100. -/
def letters (n : Nat) : State := withBytes 0x100 (List.replicate n 0x41) (start 0 0 0 false)

/-- The longest string that fits, and one character more. -/
theorem witness_StringAtTheOrigin :
    ((letters 84).Inv ∧ validRange (letters 84) 0x100 84 = true ∧
      (stringBody (hostBytes (letters 84) 0x100 84)).length = 84 ∧
      (∀ b ∈ stringBody (hostBytes (letters 84) 0x100 84), 32 ≤ b.toNat ∧ b.toNat ≤ 126) ∧
      (letters 84).dend.toNat ≤ 6 * 84) ∧
    ((letters 85).Inv ∧ validRange (letters 85) 0x100 85 = true ∧
      (stringBody (hostBytes (letters 85) 0x100 85)).length = 85 ∧
      ∀ b ∈ stringBody (hostBytes (letters 85) 0x100 85), 32 ≤ b.toNat ∧ b.toNat ≤ 126) := by
  have hi : ∀ n ≤ 85, (letters n).Inv := fun n hn =>
    withBytes_inv _ _ _ (start_inv (by decide) (by decide) (by decide) (by decide) (by decide))
      (by rw [List.length_replicate]; omega)
  refine ⟨⟨hi 84 (by decide), base_valid _ (by decide +kernel) _ _ (by decide), ?_, ?_, ?_⟩, hi 85 (by decide),
    base_valid _ (by decide +kernel) _ _ (by decide), ?_, ?_⟩ <;> decide +kernel

theorem witness_GotocharMovesByCells : (13 ≤ 13 ∧ 5 ≤ 5) ∧ (13 < 14 ∨ 5 < 0) ∧ (13 < 0 ∨ 5 < 6) := by decide

theorem start_full : (start 504 503 504 true).Inv := witness_StepAlwaysCompletes

/-- A command that is no FLUSH; a FLUSH that fails; a FLUSH in Idle. -/
theorem witness_RangeGrowsUntilFlush :
    ((start 504 503 504 true).Inv ∧ ∃ t, exec (.gotochunk 0 0) (start 504 503 504 true) = .next t) ∧
    (∃ t, exec .flush { start 504 503 504 true with answers := [.fail] } = .next t ∧ t.result ≠ .ok) ∧
    ((start 504 503 503 false).Inv ∧ (start 504 503 503 false).dkind.range = false ∧
      ∃ t, exec .flush (start 504 503 503 false) = .next t) :=
  ⟨⟨start_full, _, rfl⟩, ⟨_, rfl, by decide⟩,
    start_inv (by decide) (by decide) (by decide) (by decide) (by decide), rfl, _, rfl⟩

theorem witness_GotoLeavesItsPositionOutside :
    ((83 ≤ 83 ∧ 5 ≤ 5 ∧ 503 = 83 + 84 * 5) ∧ (start 0 0 503 true).dend.toNat ≤ 503 ∧
      ∃ t u, exec (.gotochunk 83 5) (start 0 0 503 true) = .next t ∧ exec (.wrbyte 1) t = .next u) ∧
    ((13 ≤ 13 ∧ 5 ≤ 5 ∧ 498 = 6 * 13 + 84 * 5) ∧ (start 0 0 498 true).dend.toNat ≤ 498 ∧
      ∃ t u, exec (.gotochar 13 5) (start 0 0 498 true) = .next t ∧ exec (.wrbyte 1) t = .next u) :=
  ⟨⟨by decide, by decide, _, _, rfl, rfl⟩, by decide, by decide, _, _, rfl, rfl⟩

theorem witness_TwoGotosMarkTheBytesBetween :
    (503 ≤ 503 ∧ 0 ≤ 503) ∧ (∃ t, exec (.gotochunk 83 5) (start 0 0 503 true) = .next t) ∧
      (∃ t, exec (.gotochar 13 5) (start 0 0 503 true) = .next t) ∧ (start 0 0 503 true).dend.toNat ≤ 503 :=
  ⟨by decide, ⟨_, rfl⟩, ⟨_, rfl⟩, by decide⟩

/-- The last index, on both sides of the equivalence; each command of the second clause; one of the third. -/
theorem witness_CursorWriteIsCovered :
    ((start 503 0 503 true).cursor.toNat < 504 ∧ ∃ t, exec (.wrbyte 1) (start 503 0 503 true) = .next t) ∧
    ((start 502 503 503 true).cursor.toNat < 504 ∧ ∃ t, exec (.wrbyte 1) (start 502 503 503 true) = .next t) ∧
    (∃ t, exec .clear base = .next t ∧ t.result = .ok) ∧ (∃ t, exec (.gotochunk 83 5) base = .next t ∧ t.result = .ok) ∧
    (∃ t, exec (.gotochar 13 5) base = .next t ∧ t.result = .ok) ∧
    (∃ t, exec (.blitfull 0) base = .next t ∧ t.result = .ok) ∧
    ((start 503 503 504 true).dstart.toNat ≤ (start 503 503 504 true).cursor.toNat ∧
      ∃ t, exec (.wrchar 65) (start 503 503 504 true) = .next t) := by
  have hv : validRange base 0 504 = true := base_valid _ rfl _ _ (by decide)
  refine ⟨⟨by decide, _, rfl⟩, ⟨by decide, _, rfl⟩, ⟨_, rfl, rfl⟩, ⟨_, rfl, rfl⟩, ⟨_, rfl, rfl⟩, ?_, by decide, _, rfl⟩
  refine ⟨_, rfl, ?_⟩
  rw [if_pos hv]
  rfl

/-- A cursor write; WRSTR with and without a character written; a FLUSH that clears the flag and one that does not; INIT
and DECODE; a command that fails. -/
theorem witness_WhatChangesTheRangeFlag :
    (start 504 503 504 true).Inv ∧ (∃ t, exec (.wrbyte 1) base = .next t ∧ t.result = .ok) ∧
    (∃ t, exec (.wrstr 0x100 84) (letters 84) = .next t) ∧ (∃ t, exec (.wrstr 0x100 0) base = .next t) ∧
    (∃ t, (start 7 80 90 true).dkind.range = true ∧ (∀ k < 3, answerAt (start 7 80 90 true) k = .ok) ∧
      exec .flush (start 7 80 90 true) = .next t ∧ t.dkind.range = false) ∧
    ((∃ k < 3, answerAt { base with answers := [.ok, .ok, .fail] } k = .fail) ∧
      ∃ t, exec .flush { start 7 80 90 true with answers := [.ok, .ok, .fail] } = .next t) ∧
    (∃ t, exec (.init 0) base = .next t) ∧ (∃ t, exec (.decode 5 2 .fb 0x1000 7) oneByOne = .next t) ∧
    ∃ t, exec (.wrbyte 1) (start 504 0 504 true) = .next t ∧ t.result ≠ .ok :=
  ⟨start_full, ⟨_, rfl, by decide +kernel⟩, ⟨_, rfl⟩, ⟨_, rfl⟩, ⟨_, rfl, by decide, rfl, by decide +kernel⟩,
    ⟨⟨2, by decide, by decide⟩, _, rfl⟩, ⟨_, rfl⟩, ⟨_, rfl⟩, ⟨_, rfl, by decide +kernel⟩⟩

theorem witness_FlushSendsTheRange :
    (start 7 90 90 false).dkind = ⟨false, false⟩ ∧ (start 504 503 504 true).dkind = ⟨true, false⟩ ∧
      (start 504 503 504 true).dend.toNat ≤ 504 ∧ ∀ k < 3, answerAt (start 504 503 504 true) k = .ok := by decide

/-- The first, the second and the third transaction. -/
theorem witness_FlushStopsAtTheFirstFailure :
    (start 7 80 90 true).dkind = ⟨true, false⟩ ∧
    ∀ k < 3, (∃ x, (flushTransactions (start 7 80 90 true))[k]? = some x) ∧
      (∀ j < k, answerAt { start 7 80 90 true with answers := List.replicate k .ok ++ [.fail] } j = .ok) ∧
      answerAt { start 7 80 90 true with answers := List.replicate k .ok ++ [.fail] } k = .fail := by
  refine ⟨rfl, fun k hk => ⟨⟨_, List.getElem?_eq_getElem (l := flushTransactions (start 7 80 90 true)) hk⟩, ?_⟩⟩
  have h : k = 0 ∨ k = 1 ∨ k = 2 := by omega
  rcases h with rfl | rfl | rfl <;> decide

theorem witness_SecondFlushIsANoOp :
    (start 504 503 504 true).Inv ∧ (start 504 503 504 true).dkind.range = true ∧
      (∃ t, exec .flush (start 504 503 504 true) = .next t ∧ t.result = .ok) ∧
      ∃ t, exec .flush { start 504 503 504 true with answers := [.ok, .ok, .fail, .ok, .ok, .ok] } = .next t ∧
        t.result = .transportFailure ∧ ∀ k < 3, answerAt t k = .ok :=
  ⟨start_full, rfl, ⟨_, rfl, rfl⟩, ⟨_, rfl, rfl, by decide +kernel⟩⟩

theorem witness_FlushTransactionCount :
    ((start 504 503 503 false).Inv ∧ (start 504 503 503 false).dkind.range = false ∧
      ∃ t, exec .flush (start 504 503 503 false) = .next t) ∧
      ∃ t, exec .flush { start 504 503 504 true with answers := [.fail] } = .next t ∧ t.result = .transportFailure :=
  ⟨witness_RangeGrowsUntilFlush.2.2, _, rfl, rfl⟩

theorem witness_InitSendsAndRecordsContrast :
    ∀ k < (Config.initCmds (min 255 127)).length,
      answerAt { base with answers := List.replicate (Config.initCmds (min 255 127)).length .ok } k = .ok :=
  fun k hk => by simp [answerAt] at hk ⊢; simp [hk]

theorem witness_InitStopsAtTheFirstFailure :
    answerAt { base with answers := [.fail] } 0 = .fail ∧ (∀ j < 1, answerAt { base with answers := [.ok, .fail] } j = .ok) ∧
      answerAt { base with answers := [.ok, .fail] } 1 = .fail := by decide

theorem witness_BootSequence :
    base.dkind.area = false ∧ ∀ k < (Config.initCmds (min 255 127)).length + 3,
      answerAt { base with answers := List.replicate ((Config.initCmds (min 255 127)).length + 3) .ok } k = .ok :=
  ⟨rfl, fun k hk => by simp [answerAt] at hk ⊢; simp [hk]⟩

theorem witness_WriteBelowTheRangeIsNotSent :
    (start 502 503 503 false).Inv ∧ (start 502 503 503 false).cursor.toNat < (start 502 503 503 false).dstart.toNat ∧
      (start 502 503 503 false).dstart = (start 502 503 503 false).dend ∧
      ∀ k < 3, answerAt (start 502 503 503 false) k = .ok :=
  ⟨start_inv (by decide) (by decide) (by decide) (by decide) (by decide), by decide, rfl, by decide⟩

theorem witness_VarintFormat :
    (0x7F : Byte).toNat < 128 ∧ 128 ≤ (0x80 : Byte).toNat ∧ 16383 ≤ 16383 := by decide

/-- The largest field of two bytes, DC12's width of two bytes with the value 1, the tallest image; and every way a field
can fail: none, cut short, a second byte that flags a third. -/
theorem witness_HeaderValidation :
    readVarint [0xFF, 0x7F] = some (16383, []) ∧ readVarint [0x81, 0x00] = some (1, []) ∧
      readVarint [0x06] = some (6, []) ∧ readVarint [0x00] = some (0, []) ∧
      readVarint [] = none ∧ readVarint [0x80] = none ∧ readVarint [0x80, 0x80] = none := by decide

theorem witness_PlacementClamp : 84 ≤ 84 ∧ 6 ≤ 6 := by decide

/-- A range that passes 2^32 (FB15, TX16, DC28, DC29), and one with one byte unbacked (FB16). -/
theorem witness_InvalidRangeIsBusError :
    validRange base 0xFFFFFE09 504 = false ∧ validRange base 0xFFFFFFFE 3 = false ∧
      validRange { base with hostMap := [⟨0, 0x21F7⟩] } 0x2000 504 = false ∧
      validRange { base with hostMap := [⟨0, 0x21F8⟩] } 0x2000 504 = true := by decide +kernel

/-- DC22: a truncated header, to either destination. -/
theorem witness_BadStreamWritesNothing :
    validRange oneByOne 0x1000 2 = true ∧ validRange oneByOne 0xFFFFFE08 504 = true ∧
      imageAt .fb 0x1000 2 oneByOne = none ∧ imageAt (.mem 0xFFFFFE08) 0x1000 2 oneByOne = none :=
  ⟨base_valid _ rfl _ _ (by decide), oneByOne_canvas, by decide +kernel⟩

/-- DC14 (an explicit run), DC21 (a blank run), each after the header alone; and one after a whole pair. -/
theorem witness_BadStreamWritesNothing_overrun :
    (∃ s, s = withBytes 0x1000 [0x00, 0x01, 0x01, 0x00, 0x02, 0xAA, 0xBB] base ∧ validRange s 0x1000 7 = true ∧
      readBytes (namedRanges (.decode 0 0 .fb 0x1000 7)) s 0x1000 7 = writeImage 0 1 1 [] ++ [0x02, 0xAA, 0xBB] ∧
      readVarint [0x02, 0xAA, 0xBB] = some (2, [0xAA, 0xBB]) ∧ 0 < 1 * 1 ∧ 1 * 1 - 0 < 2) ∧
    (∃ s, s = withBytes 0x1000 [0x00, 0x02, 0x01, 0x00, 0x01, 0xAA, 0x02] base ∧ validRange s 0x1000 7 = true ∧
      readBytes (namedRanges (.decode 0 0 .fb 0x1000 7)) s 0x1000 7 = writeImage 0 2 1 [] ++ [0x01, 0xAA, 0x02] ∧
      readVarint [0x01, 0xAA, 0x02] = some (1, [0xAA, 0x02]) ∧ ([0xAA, 0x02] : List Byte) = [0xAA] ++ [0x02] ++ [] ∧
      0 + 1 < 2 * 1 ∧ readVarint [0x02] = some (2, []) ∧ 2 * 1 - (0 + 1) < 2) ∧
    ∃ s, s = withBytes 0x1000 [0x00, 0x02, 0x01, 0x00, 0x01, 0xAA, 0x00, 0x02] base ∧ validRange s 0x1000 8 = true ∧
      readBytes (namedRanges (.decode 0 0 .fb 0x1000 8)) s 0x1000 8 = writeImage 0 2 1 [⟨[0xAA], 0⟩] ++ [0x02] ∧
      (([⟨[0xAA], 0⟩] : List RunPair).flatMap (RunPair.columns 0x00)).length = 1 ∧ 1 < 2 * 1 ∧
      readVarint [0x02] = some (2, []) ∧ 2 * 1 - 1 < 2 := by
  refine ⟨⟨_, rfl, base_valid _ (by decide +kernel) _ _ (by decide), ?_⟩,
    ⟨_, rfl, base_valid _ (by decide +kernel) _ _ (by decide), ?_⟩,
    ⟨_, rfl, base_valid _ (by decide +kernel) _ _ (by decide), ?_⟩⟩ <;> decide +kernel

theorem witness_DecodeBlitsToFb :
    validRange oneByOne 0x1000 7 = true ∧ imageAt .fb 0x1000 7 oneByOne = some ⟨1, 1, [0xAA]⟩ ∧ 0 < 1 :=
  ⟨base_valid _ rfl _ _ (by decide), oneByOne_image, by decide⟩

theorem witness_DecodeBlitsToHostMemory :
    Memory.wf oneByOne.hostMem ∧ validRange oneByOne 0x1000 7 = true ∧ validRange oneByOne 0xFFFFFE08 504 = true ∧
      imageAt (.mem 0xFFFFFE08) 0x1000 7 oneByOne = some ⟨1, 1, [0xAA]⟩ ∧ oneByOne.races = [] :=
  ⟨oneByOne_inv.hostMem_wf, base_valid _ rfl _ _ (by decide), oneByOne_canvas, oneByOne_image_mem, rfl⟩

theorem witness_CanvasIndicesAreDistinct : 84 ≤ 84 ∧ 6 ≤ 6 := by decide

/-- The last byte of R118's stream is not read, every shorter one of the six that are is a cut, and a malformed field may
stand in its place; an image with no column; R118's six bytes, ended by an explicit run; DC4's, ended by one after a pair;
and the full canvas, ended by a blank run. -/
theorem witness_StreamIsReadToItsLastColumn :
    (readImage 7 [0x00, 0x01, 0x01, 0x00, 0x01, 0xAA, 0x00] = some (⟨1, 1, [0xAA]⟩, [0x00]) ∧ 5 < 7 - 1 ∧
      ([0x00, 0x01, 0x01, 0x00, 0x01, 0xAA, 0x80, 0x80] : List Byte) =
        [0x00, 0x01, 0x01, 0x00, 0x01, 0xAA, 0x00].take (7 - 1) ++ [0x80, 0x80]) ∧
    (16383 ≤ 16383 ∧ 84 ≤ 84 ∧ 0 ≤ 6 ∧ 84 * 0 = 0) ∧
    (readVarint [0x01] = some (([0xAA] : List Byte).length, []) ∧ 0 < 1 * 1 ∧ 0 + 1 = 1 * 1 ∧
      ([0x00, 0x01, 0x01, 0x00, 0x01, 0xAA] : List Byte) = writeImage 0 1 1 [] ++ [0x01] ++ [0xAA] ++ []) ∧
    (([⟨[0xAA], 2⟩] : List RunPair).flatMap (RunPair.columns 0xFF) = [0xAA, 0xFF, 0xFF] ∧ 3 < 2 * 2 ∧ 3 + 1 = 2 * 2 ∧
      ([0x01, 0x02, 0x02, 0x00, 0x01, 0xAA, 0x02, 0x01, 0xBB] : List Byte) =
        writeImage 1 2 2 [⟨[0xAA], 2⟩] ++ [0x01] ++ [0xBB] ++ []) ∧
    (readVarint [0x00] = some (([] : List Byte).length, []) ∧ readVarint [0xF8, 0x03] = some (504, []) ∧
      0 + 0 < 84 * 6 ∧ 0 + 0 + 504 = 84 * 6) := by decide

theorem witness_OneByOneImage :
    5 ≤ 5 ∧ validRange oneByOne 0x1000 7 = true ∧
      hostBytes oneByOne 0x1000 7 = [0x00, 0x01, 0x01, 0x00, 0x01, 0xAA, 0x00] ∧ 83 ≤ 83 ∧ 84 ≤ 84 :=
  ⟨by decide, base_valid _ rfl _ _ (by decide), oneByOne_bytes, by decide, by decide⟩

/-- The full canvas in one blank run, at the bounds of every premise, to a canvas in host memory; E5's image with the last
blank length written and a byte after it; and its nine bytes (DC4) with that length absent. -/
theorem witness_ImageRoundTrip :
    (∃ s, s = withBytes 0x1000 [0xFF, 0x7F, 0x54, 0x06, 0x00, 0x00, 0xF8, 0x03] base ∧ 16383 ≤ 16383 ∧ 84 ≤ 84 ∧
      6 ≤ 6 ∧ (List.replicate 504 (0xFF : Byte)).length = 84 * 6 ∧ validRange s 0x1000 8 = true ∧
      ([⟨[], 504⟩] : List RunPair).flatMap (RunPair.columns 0xFF) = List.replicate 504 0xFF ∧
      readBytes (namedRanges (.decode 0 0 (.mem 0xFFFFFE08) 0x1000 8)) s 0x1000 8 =
        writeImage 16383 84 6 [⟨[], 504⟩] ++ [] ∧
      validRange s 0xFFFFFE08 504 = true ∧ Memory.wf s.hostMem ∧ s.races = []) ∧
    (∃ s, s = withBytes 0x1000 [0x01, 0x02, 0x02, 0x00, 0x01, 0xAA, 0x02, 0x01, 0xBB, 0x00, 0x80] base ∧
      ([0xAA, 0xFF, 0xFF, 0xBB] : List Byte).length = 2 * 2 ∧ validRange s 0x1000 11 = true ∧
      ([⟨[0xAA], 2⟩, ⟨[0xBB], 0⟩] : List RunPair).flatMap (RunPair.columns 0xFF) = [0xAA, 0xFF, 0xFF, 0xBB] ∧
      readBytes (namedRanges (.decode 10 1 .fb 0x1000 11)) s 0x1000 11 =
        writeImage 1 2 2 [⟨[0xAA], 2⟩, ⟨[0xBB], 0⟩] ++ [0x80]) ∧
    ∃ s, s = withBytes 0x1000 [0x01, 0x02, 0x02, 0x00, 0x01, 0xAA, 0x02, 0x01, 0xBB] base ∧
      validRange s 0x1000 9 = true ∧
      ([⟨[0xAA], 2⟩] : List RunPair).flatMap (RunPair.columns 0xFF) ++ [0xBB] = [0xAA, 0xFF, 0xFF, 0xBB] ∧
      readBytes (namedRanges (.decode 10 1 .fb 0x1000 9)) s 0x1000 9 =
        writeImage 1 2 2 [⟨[0xAA], 2⟩] ++ writeVarint 1 ++ [0xBB] ++ [] := by
  have valid (s : State) (h : s.hostMap = [⟨0, 4294967296⟩]) (n : Nat) (hn : n ≤ 4096) : validRange s 0x1000 n = true :=
    base_valid s h _ _ (by omega)
  refine ⟨⟨_, rfl, by decide, by decide, by decide, ?_, valid _ (by decide +kernel) _ (by decide), ?_, ?_,
      base_valid _ (by decide +kernel) _ _ (by decide), ?_, ?_⟩,
    ⟨_, rfl, by decide, valid _ (by decide +kernel) _ (by decide), ?_, ?_⟩,
    ⟨_, rfl, valid _ (by decide +kernel) _ (by decide), ?_, ?_⟩⟩ <;> decide +kernel

/-- A command of each kind the clauses tell apart; the addresses next to the canvas. -/
theorem witness_OnlyTheseCommandsReachOutside :
    oneByOne.Inv ∧ (∃ t, exec .clear oneByOne = .next t) ∧
      (∃ t, exec (.decode 5 2 (.mem 0x3000) 0x1000 7) oneByOne = .next t) ∧
      (0x2FFF < 0x3000 ∨ 0x3000 + 504 ≤ 0x2FFF) ∧ (0x31F8 < 0x3000 ∨ 0x3000 + 504 ≤ 0x31F8) ∧
      ∃ t, exec .flush oneByOne = .next t :=
  ⟨oneByOne_inv, ⟨_, rfl⟩, ⟨_, rfl⟩, by decide, by decide, _, rfl⟩

theorem witness_ParametersAreFixed : ∃ t, step { base with port := [.resetDuring ⟨8, 0, 0, 0⟩ 1] } = .next t := ⟨_, rfl⟩

theorem witness_RacedBytesAreFree :
    ({ oneByOne with port := [.command ⟨0x0102050A, 0x1000, 7, 0x3000⟩], races := [0x1005, 0x3000] } : State).Inv ∧
      decode ⟨0x0102050A, 0x1000, 7, 0x3000⟩ = .ok (.decode 5 2 (.mem 0x3000) 0x1000 7) ∧
      (∃ t, exec (.decode 5 2 (.mem 0x3000) 0x1000 7) { oneByOne with port := [], races := [0x1005, 0x3000] } =
        .next t) ∧
      decode ⟨0x0000000B, 0x1000, 7, 0x3000⟩ = .error .opcode ∧
      0x3000 ∈ [0x1005, 0x3000] ∧ 0x3001 ∉ [0x1005, 0x3000] ∧ hostValid oneByOne 0x3000 = true :=
  ⟨withPort_inv oneByOne_inv _ _, by decide, ⟨_, rfl⟩, by decide, by decide, by decide, by decide +kernel⟩

theorem witness_HostStoreIsReadBack :
    ({ base with port := [.store 0xFFFFFFFF 1] } : State).Inv ∧ hostValid base 0xFFFFFFFF = true ∧
      hostValid { base with hostMap := [⟨0, 4294967295⟩] } 0xFFFFFFFF = false :=
  ⟨{ start_inv (c := 0) (a := 0) (e := 0) (r := false) (by decide) (by decide) (by decide) (by decide) (by decide)
      with }, by decide, by decide⟩

/-- One byte written by another agent, at the first and at the last address of a range; an address next to the range; a
stream that overlaps the canvas; and a DECODE whose canvas is raced and whose stream is not. -/
theorem witness_ConcurrentlyWrittenRangeIsFree :
    ((0x1000 ≤ 0x1000 ∧ 0x1000 < 0x1000 + 7) ∧ (0x1000 ≤ 0x1006 ∧ 0x1006 < 0x1000 + 7)) ∧
    ¬ (0x1000 ≤ 0x1007 ∧ 0x1007 < 0x1000 + 7) ∧
    validRange { base with races := [0x11F7] } 0x1000 504 = true ∧ 0x11F7 < 0x1000 + 504 ∧
    (0x0F00 ≤ 0x1000 + 6 ∧ 0x1000 + 6 < 0x0F00 + 504) ∧
    (Memory.wf ({ oneByOne with races := [0xFFFFFE08] } : State).hostMem ∧
      validRange { oneByOne with races := [0xFFFFFE08] } 0x1000 7 = true ∧
      validRange { oneByOne with races := [0xFFFFFE08] } 0xFFFFFE08 504 = true ∧
      imageAt (.mem 0xFFFFFE08) 0x1000 7 { oneByOne with races := [0xFFFFFE08] } = some ⟨1, 1, [0xAA]⟩ ∧
      0xFFFFFE08 ∈ [0xFFFFFE08]) :=
  ⟨by decide, by decide, base_valid _ rfl _ _ (by decide), by decide, by decide, oneByOne_inv.hostMem_wf,
    base_valid _ rfl _ _ (by decide), base_valid _ rfl _ _ (by decide), by decide +kernel, by decide⟩

end Sys2Proof.Tests
end

/-! The parameters of a run (R8, R9, R32), and the command a step runs (R10, R90). -/

namespace Sys2Proof.Machine

/-! Issuing a command. -/

theorem issue_ok {d : Descriptor} {i : Instr} (h : decode d = .ok i) (s : State) : issue d s = exec i s := by
  simp only [issue, h]

theorem issue_error {d : Descriptor} {r : Reject} (h : decode d = .error r) (s : State) :
    issue d s = .next (illegalCommand s) := by
  simp only [issue, h]

/-- R63, R96, R110: a descriptor, legal or not, leaves alone what stands outside FBCORE, but for host memory and the
transport. -/
theorem issue_sameOutside {d : Descriptor} {s t : State} (h : issue d s = .next t) : SameOutside s t := by
  cases hd : decode d with
  | ok i =>
    rw [issue_ok hd] at h
    exact (exec_next h).1
  | error r =>
    rw [issue_error hd] at h
    cases h
    exact sameOutside_finish _ (SameOutside.refl s)

/-- With no races before it a command has none after it, so settling changes nothing. -/
theorem settleOutcome_issue_calm (d : Descriptor) {s : State} (h : s.races = []) :
    settleOutcome (issue d s) = issue d s := by
  cases hi : issue d s with
  | next t =>
    obtain ⟨-, hraces, -⟩ := issue_sameOutside hi
    rw [settleOutcome, settleRaces_none (hraces.trans h)]
  | fault r => rfl
  | refused r => rfl

/-- R10, R72: a command is its meaning and then the settling of its races, whether there are any or none. -/
theorem runCommand_eq_settleOutcome (d : Descriptor) (s : State) : runCommand d s = settleOutcome (issue d s) := by
  rcases runCommand_eq d s with h | h
  · exact h
  · rw [runCommand_calm d h, settleOutcome_issue_calm d h]

/-- A settled outcome with a next state is the settling of one. -/
theorem settleOutcome_next {o : Host.Outcome State Fault Refusal} {t : State} (h : settleOutcome o = .next t) :
    ∃ u, o = .next u ∧ settleRaces u = t := by
  cases o with
  | next u => exact ⟨u, rfl, Host.Outcome.next.inj h⟩
  | fault r => cases h
  | refused r => cases h

/-- R10, R70: a step with a descriptor next runs that command. -/
theorem step_command {s : State} {d : Descriptor} {rest : List HostEvent} (h : s.port = .command d :: rest) :
    step s = runCommand d { s with port := rest } := step_event h

/-- Settles O9: the races settle after the decoded command, and with none before it there are none to settle. -/
theorem stepRunsTheDecodedCommand : Obligations.StepRunsTheDecodedCommand := by
  intro s d rest i hport hdec
  have hstep : step s = settleOutcome (exec i { s with port := rest }) := by
    rw [step_command hport, runCommand_eq_settleOutcome, issue_ok hdec]
  refine ⟨fun hcalm => ?_, fun t ht => ?_, fun r hr => ?_⟩
  · rw [step_command hport, runCommand_calm (s := { s with port := rest }) d hcalm, issue_ok hdec]
  · rw [hstep, ht, settleOutcome]
  · rw [hstep, hr, settleOutcome]

/-! What each event leaves of the parameters. -/

/-- R9, R32, R67: the two parameters that the state holds are the same in both states. -/
def SameParameters (s t : State) : Prop := t.glyph = s.glyph ∧ t.hostMap = s.hostMap

theorem SameParameters.refl (s : State) : SameParameters s s := ⟨rfl, rfl⟩

theorem SameParameters.trans {s t u : State} (h : SameParameters s t) (h' : SameParameters t u) :
    SameParameters s u := ⟨h'.1.trans h.1, h'.2.trans h.2⟩

theorem SameOutside.sameParameters {s t : State} (h : SameOutside s t) : SameParameters s t := by
  obtain ⟨-, -, hglyph, hmap, -, -⟩ := h
  exact ⟨hglyph, hmap⟩

theorem settleRaces_sameParameters (s : State) : SameParameters s (settleRaces s) :=
  ⟨settleRaces_glyph s, settleRaces_hostMap s⟩

theorem resetCore_sameParameters (s : State) : SameParameters s (resetCore s) :=
  ⟨resetCore_glyph s, resetCore_hostMap s⟩

theorem runAbandoned_sameParameters (i : Instr) (k : Nat) (s : State) : SameParameters s (runAbandoned i k s) := by
  rw [runAbandoned_frame]
  exact SameParameters.refl s

theorem hostStore_sameParameters (a : Word) (v : Byte) (s : State) : SameParameters s (hostStore a v s) := by
  unfold hostStore
  split
  · exact ⟨hostWrite_glyph _ v s, hostWrite_hostMap _ v s⟩
  · exact SameParameters.refl s

/-- R260: what the abandoned command did, the races and the reset each leave the parameters. -/
theorem resetDuring_sameParameters (d : Descriptor) (k : Nat) (s : State) :
    SameParameters s (resetDuring d k s) := by
  unfold resetDuring
  split
  · next i _ =>
    exact (runAbandoned_sameParameters i k s).trans
      ((settleRaces_sameParameters _).trans (resetCore_sameParameters _))
  · exact (settleRaces_sameParameters s).trans (resetCore_sameParameters _)

theorem runCommand_sameParameters {d : Descriptor} {s t : State} (h : runCommand d s = .next t) :
    SameParameters s t := by
  rw [runCommand_eq_settleOutcome] at h
  obtain ⟨u, hissue, rfl⟩ := settleOutcome_next h
  exact (issue_sameOutside hissue).sameParameters.trans (settleRaces_sameParameters u)

theorem runEvent_sameParameters {e : HostEvent} {s t : State} (h : runEvent e s = .next t) : SameParameters s t := by
  cases e with
  | command d => exact runCommand_sameParameters h
  | read offset => cases h; exact ⟨readPort_glyph offset s, readPort_hostMap offset s⟩
  | write offset value => cases h; exact SameParameters.refl s
  | store a v => cases h; exact hostStore_sameParameters a v s
  | race addrs => cases h; exact ⟨startRaces_glyph addrs s, startRaces_hostMap addrs s⟩
  | reset => obtain rfl := Host.Outcome.next.inj h; exact resetCore_sameParameters s
  | resetDuring d k => cases h; exact resetDuring_sameParameters d k s

/-- A step changes no parameter: it is idle or one event, on the state with the event taken from the port. -/
theorem step_sameParameters {s t : State} (h : step s = .next t) : SameParameters s t := by
  cases hport : s.port with
  | nil =>
    rw [step_idle hport] at h
    cases h
    exact SameParameters.refl s
  | cons e rest =>
    rw [step_event hport] at h
    have hevent : SameParameters { s with port := rest } t := runEvent_sameParameters h
    exact hevent

/-- Settles O57, event by event. -/
theorem parametersAreFixed : Obligations.ParametersAreFixed := fun _ _ => step_sameParameters

end Sys2Proof.Machine

/-! The invariant (R25, R26, R29, R37, R38, R230): what each operation keeps of it, then every command and every event. -/

namespace Sys2Proof.Machine

/-! The operations. -/

theorem finish_inv {s : State} {code : ResultCode} (h : s.Inv) (hcode : code ≠ .notImplemented) :
    (finish code s).Inv := { h with result_raised := hcode }

/-- R21: the pixels may be any bytes. -/
theorem withFb_inv {s : State} (fb : Vector Byte 504) (h : s.Inv) : ({ s with fb := fb } : State).Inv := { h with }

/-- R130: a goto to an index on the canvas takes it into a range that stays inside the buffer. -/
theorem trackGoto_inv {s : State} {pos : Nat} (h : s.Inv) (hpos : pos ≤ 503) : (trackGoto pos s).Inv := by
  have hcursor := trackGoto_cursor_toNat s hpos
  have hdstart := trackGoto_dstart_toNat s pos
  have hdend := trackGoto_dend_toNat s hpos
  have hdstart_le := h.dstart_le
  have hordered := h.range_ordered
  have hdend_le := h.dend_le
  exact
    { h with
      cursor_le := by omega
      dstart_le := by omega
      range_ordered := by omega
      dend_le := by omega
      idle_empty := by simp }

/-- R131: the cursor moves one on, and the high bound at most to it. -/
theorem storeAtCursor_inv {s : State} (v : Byte) (h : s.Inv) (hc : s.cursor.toNat < 504) :
    (storeAtCursor v s).Inv := by
  have hcursor := storeAtCursor_cursor_toNat v s hc
  have hdend := storeAtCursor_dend_toNat v s hc
  have hordered := h.range_ordered
  have hdend_le := h.dend_le
  exact
    { h with
      cursor_le := by omega
      range_ordered := by rw [storeAtCursor_dstart]; omega
      dend_le := by omega
      idle_empty := by simp }

/-- R132, R135: the whole buffer is a legal range. -/
theorem markAll_inv {s : State} (h : s.Inv) : (markAll s).Inv :=
  { h with
    dstart_le := by simp
    range_ordered := by simp
    dend_le := by simp
    idle_empty := by simp }

/-- R180, R37: the range collapses to an empty one, at an index on the canvas. -/
theorem collapseRange_inv {s : State} (h : s.Inv) : (collapseRange s).Inv := by
  have hdstart := collapseRange_dstart_toNat s
  have hdend := collapseRange_dend_toNat s
  exact
    { h with
      dstart_le := by omega
      range_ordered := by omega
      dend_le := by omega
      idle_empty := fun _ => rfl }

theorem sendAll_inv {s : State} (ts : List Transaction) (h : s.Inv) : (sendAll ts s).2.Inv := by
  rw [sendAll_frame]
  exact { h with }

/-- R207, R208: canvas writes change pixels or host memory, and no register. -/
theorem blit_inv {s : State} {named : List HostRegion} {dst : Dest} {ws : List (Nat × Byte)} (h : s.Inv)
    (hw : ∀ w ∈ ws, w.1 < 504) (hd : destValid s dst = true) : (blit named dst ws s).Inv := by
  have hwf : Memory.wf (blit named dst ws s).hostMem := blit_wf h.hostMem_wf hw hd
  cases dst with
  | fb => exact withFb_inv _ h
  | mem daddr => exact { h with hostMem_wf := hwf }

/-- R260: a reset sets every register, so what it needs of the state before is host memory alone. -/
theorem resetCore_inv {s : State} (h : Memory.wf s.hostMem) : (resetCore s).Inv where
  cursor_le := by simp
  dstart_le := by simp
  range_ordered := by simp
  dend_le := by simp
  area_zero := by simp
  idle_empty := by simp
  contrast_le := by simp
  result_raised := by simp
  hostMem_wf := by simpa using h

theorem settleRaces_inv {s : State} (h : s.Inv) : (settleRaces s).Inv := by
  have hwf := settleRaces_wf h.hostMem_wf
  rw [settleRaces_frame] at hwf ⊢
  exact { h with hostMem_wf := hwf }

theorem hostStore_inv {s : State} (a : Word) (v : Byte) (h : s.Inv) : (hostStore a v s).Inv := by
  unfold hostStore
  split
  · exact { h with hostMem_wf := hostWrite_wf v h.hostMem_wf a.isLt }
  · exact h

/-! The operations that answer with a result code. -/

/-- What an operation answers may be reported: its state meets the invariant and a command can raise its code. -/
def Reportable (r : ResultCode × State) : Prop := r.2.Inv ∧ r.1 ≠ .notImplemented

theorem Reportable.intro {s : State} {code : ResultCode} (h : s.Inv) (hcode : code ≠ .notImplemented) :
    Reportable (code, s) := ⟨h, hcode⟩

theorem Reportable.finish {r : ResultCode × State} (h : Reportable r) : (finish r.1 r.2).Inv := finish_inv h.1 h.2

theorem put_reportable {s : State} (v : Byte) (h : s.Inv) : Reportable (put v s) := by
  rcases put_cases v s with ⟨-, hput⟩ | ⟨hc, hput⟩ <;> rw [hput]
  · exact .intro h nofun
  · exact .intro (storeAtCursor_inv v h hc) nofun

theorem putColumns_inv {s : State} (vs : List Byte) (h : s.Inv) : (putColumns vs s).Inv := by
  induction vs generalizing s with
  | nil => exact h
  | cons v vs ih =>
    rw [putColumns]
    exact ih (put_reportable v h).1

theorem putChar_reportable {s : State} (code : Nat) (h : s.Inv) : Reportable (putChar code s) := by
  rcases putChar_cases code s with ⟨-, hput⟩ | ⟨-, -, hput⟩ | ⟨-, -, hput⟩ <;> rw [hput]
  · exact .intro h nofun
  · exact .intro h nofun
  · exact .intro (putColumns_inv _ h) nofun

/-- R163: each turn of the loop ends the string or is one character. -/
theorem putString_reportable {s : State} (named : List HostRegion) (addr n : Nat) (h : s.Inv) :
    Reportable (putString named addr n s) := by
  induction n generalizing addr s with
  | zero => exact .intro h nofun
  | succ n ih =>
    have hchar := putChar_reportable (hostRead named s addr).toNat h
    rw [putString]
    split
    · exact .intro h nofun
    · split
      · next s' hput =>
        rw [hput] at hchar
        exact ih (addr + 1) hchar.1
      · next hput => rwa [hput] at hchar

/-! The commands. -/

theorem chunkIndex_le {x y : Nat} (h : chunkInRange x y = true) : chunkIndex x y ≤ 503 := by
  simp only [chunkInRange, Bool.and_eq_true, decide_eq_true_eq] at h
  simp only [chunkIndex]
  omega

theorem clampContrast_le (c : Nat) : (BitVec.ofNat 8 (clampContrast c)).toNat ≤ 127 := by
  simp only [clampContrast, BitVec.toNat_ofNat]
  omega

/-- R164: GOTOCHAR is GOTOCHUNK at the chunk-column where its cell begins. -/
theorem execGotochar_eq (x y : Nat) (s : State) : execGotochar x y s = execGotochunk (cellColumn x) y s := rfl

/-- R133: GOTOCHUNK moves to an index on the canvas or reports. -/
theorem execGotochunk_inv {x y : Nat} {s t : State} (h : s.Inv) (ht : execGotochunk x y s = .next t) : t.Inv := by
  cases ht
  split
  · next hin => exact finish_inv (trackGoto_inv h (chunkIndex_le hin)) nofun
  · exact finish_inv h nofun

theorem flushRange_inv {s : State} (h : s.Inv) : (flushRange s).Inv := by
  have hsent := sendAll_inv (flushTransactions s) h
  unfold flushRange
  split
  · next s' hs =>
    rw [hs] at hsent
    exact finish_inv (collapseRange_inv hsent) nofun
  · next s' hs =>
    rw [hs] at hsent
    exact finish_inv hsent nofun

theorem initDevice_inv {s : State} (c : Nat) (h : s.Inv) : (initDevice c s).Inv := by
  have hsent := sendAll_inv (initTransactions c) h
  unfold initDevice
  split
  · next s' hs =>
    rw [hs] at hsent
    exact finish_inv { hsent with contrast_le := clampContrast_le c } nofun
  · next s' hs =>
    rw [hs] at hsent
    exact finish_inv hsent nofun

theorem destValid_of_decodeRangesValid {dst : Dest} {addr len : Nat} {s : State}
    (h : decodeRangesValid dst addr len s = true) : destValid s dst = true := by
  simp only [decodeRangesValid, Bool.and_eq_true] at h
  exact h.2

theorem blitWrites_lt_of_imageAt {dst : Dest} {addr len : Nat} {s : State} {img : Image}
    (h : imageAt dst addr len s = some img) (ox oy : Nat) : ∀ w ∈ blitWrites img ox oy, w.1 < 504 := by
  obtain ⟨hw, hh, -⟩ := imageAt_size h
  exact blitWrites_lt hw hh ox oy

/-- Every command keeps the invariant, whatever its operands. -/
theorem exec_inv {i : Instr} {s t : State} (h : s.Inv) (ht : exec i s = .next t) : t.Inv := by
  cases i with
  | clear =>
    obtain rfl := Host.Outcome.next.inj ht
    exact finish_inv (markAll_inv { h with cursor_le := by simp }) nofun
  | gotochunk x y => exact execGotochunk_inv h ht
  | wrbyte v => cases ht; exact (put_reportable v h).finish
  | blitfull addr =>
    obtain rfl := Host.Outcome.next.inj ht
    split
    · exact finish_inv (markAll_inv (withFb_inv _ h)) nofun
    · exact finish_inv h nofun
  | wrchar code => cases ht; exact (putChar_reportable code h).finish
  | wrstr addr len =>
    cases ht
    split
    · exact (putString_reportable _ addr len h).finish
    · exact finish_inv h nofun
  | gotochar x y =>
    rw [exec, execGotochar_eq] at ht
    exact execGotochunk_inv h ht
  | flush =>
    simp only [exec, execFlush] at ht
    split at ht
    · cases ht; exact finish_inv h nofun
    · cases ht; exact flushRange_inv h
    · cases ht
    · cases ht
  | init c => cases ht; exact initDevice_inv c h
  | decode ox oy dst addr len =>
    cases ht
    split
    · next hvalid =>
      split
      · next himg =>
        exact finish_inv (blit_inv h (blitWrites_lt_of_imageAt himg ox oy) (destValid_of_decodeRangesValid hvalid))
          nofun
      · exact finish_inv h nofun
    · exact finish_inv h nofun

/-! The events. -/

theorem issue_inv {d : Descriptor} {s t : State} (h : s.Inv) (ht : issue d s = .next t) : t.Inv := by
  cases hd : decode d with
  | ok i =>
    rw [issue_ok hd] at ht
    exact exec_inv h ht
  | error r =>
    rw [issue_error hd] at ht
    cases ht
    exact finish_inv h nofun

theorem runCommand_inv {d : Descriptor} {s t : State} (h : s.Inv) (ht : runCommand d s = .next t) : t.Inv := by
  rw [runCommand_eq_settleOutcome] at ht
  obtain ⟨u, hissue, rfl⟩ := settleOutcome_next ht
  exact settleRaces_inv (issue_inv h hissue)

/-- R260: of the commands a reset abandons, only DECODE to the external canvas has written host memory, and its first
writes are on the canvas like all of them. -/
theorem runAbandoned_wf (i : Instr) (k : Nat) {s : State} (h : s.Inv) : Memory.wf (runAbandoned i k s).hostMem := by
  have hmem := h.hostMem_wf
  cases i with
  | clear | gotochunk | wrbyte | blitfull | wrchar | wrstr | gotochar => exact hmem
  | flush =>
    simp only [runAbandoned]
    split
    · exact (sendAll_inv _ h).hostMem_wf
    all_goals exact hmem
  | init c => exact (sendAll_inv _ h).hostMem_wf
  | decode ox oy dst addr len =>
    cases dst with
    | fb => exact hmem
    | mem daddr =>
      simp only [runAbandoned]
      split
      · next hvalid =>
        split
        · next himg =>
          exact blit_wf hmem (fun w hw => blitWrites_lt_of_imageAt himg ox oy w (List.mem_of_mem_take hw))
            (destValid_of_decodeRangesValid hvalid)
        · exact hmem
      · exact hmem

theorem resetDuring_inv {s : State} (d : Descriptor) (k : Nat) (h : s.Inv) : (resetDuring d k s).Inv := by
  unfold resetDuring
  split
  · next i _ => exact resetCore_inv (settleRaces_wf (runAbandoned_wf i k h))
  · exact resetCore_inv (settleRaces_wf h.hostMem_wf)

theorem runEvent_inv {e : HostEvent} {s t : State} (h : s.Inv) (ht : runEvent e s = .next t) : t.Inv := by
  cases e with
  | command d => exact runCommand_inv h ht
  | read offset => cases ht; exact { h with }
  | write offset value => cases ht; exact h
  | store a v => cases ht; exact hostStore_inv a v h
  | race addrs => cases ht; exact { h with }
  | reset => obtain rfl := Host.Outcome.next.inj ht; exact resetCore_inv h.hostMem_wf
  | resetDuring d k => cases ht; exact resetDuring_inv d k h

/-- Settles O16: a step is idle or one event, on the state with the event taken from the port. -/
theorem stepKeepsTheInvariant : Obligations.StepKeepsTheInvariant := by
  intro s t h ht
  cases hport : s.port with
  | nil =>
    rw [step_idle hport] at ht
    cases ht
    exact h
  | cons e rest =>
    rw [step_event hport] at ht
    exact runEvent_inv (s := { s with port := rest }) { h with } ht

end Sys2Proof.Machine

/-! What each command does to the dirty flags (R36, R180). -/

namespace Sys2Proof.Machine

/-- R36: the commands that set `R` whenever they complete. WRSTR is none: it may complete without a character. -/
def MarksRange (i : Instr) : Prop :=
  i = .clear ∨ (∃ x y, i = .gotochunk x y) ∨ (∃ x y, i = .gotochar x y) ∨ (∃ v, i = .wrbyte v) ∨
    (∃ c, i = .wrchar c) ∨ ∃ a, i = .blitfull a

/-- R184, R208: the commands that touch no dirty flag. -/
def LeavesKind (i : Instr) : Prop := (∃ c, i = .init c) ∨ ∃ ox oy dst addr len, i = .decode ox oy dst addr len

theorem rangeKind_cases (i : Instr) : MarksRange i ∨ (∃ addr len, i = .wrstr addr len) ∨ i = .flush ∨ LeavesKind i := by
  cases i <;> simp [MarksRange, LeavesKind]

/-- A command completed and set `R`, or ended in an error and left the flags. -/
def MarkedOrFailed (s t : State) : Prop :=
  t.result = .ok ∧ t.dkind = s.dkind.setRange ∨ t.result ≠ .ok ∧ t.dkind = s.dkind

theorem execGotochunk_marks {x y : Nat} {s t : State} (h : execGotochunk x y s = .next t) : MarkedOrFailed s t := by
  cases h
  split
  · exact .inl ⟨rfl, rfl⟩
  · exact .inr ⟨nofun, rfl⟩

/-- R36: a command that marks the range leaves `R` set where it completes, and the flags as they were where it does
not. -/
theorem exec_marks {i : Instr} {s t : State} (hi : MarksRange i) (h : exec i s = .next t) : MarkedOrFailed s t := by
  rcases hi with rfl | ⟨x, y, rfl⟩ | ⟨x, y, rfl⟩ | ⟨v, rfl⟩ | ⟨c, rfl⟩ | ⟨a, rfl⟩
  · obtain rfl := Host.Outcome.next.inj h
    exact .inl ⟨rfl, rfl⟩
  · exact execGotochunk_marks h
  · rw [exec, execGotochar_eq] at h
    exact execGotochunk_marks h
  · cases h
    rcases put_cases v s with ⟨-, hput⟩ | ⟨-, hput⟩ <;> rw [hput]
    · exact .inr ⟨nofun, rfl⟩
    · exact .inl ⟨rfl, rfl⟩
  · cases h
    rcases putChar_cases c s with ⟨-, hput⟩ | ⟨-, -, hput⟩ | ⟨-, hc, hput⟩ <;> rw [hput]
    · exact .inr ⟨nofun, rfl⟩
    · exact .inr ⟨nofun, rfl⟩
    · rw [(putCell_spec c s hc).1]
      exact .inl ⟨rfl, rfl⟩
  · obtain rfl := Host.Outcome.next.inj h
    split
    · exact .inl ⟨rfl, rfl⟩
    · exact .inr ⟨nofun, rfl⟩

theorem stringResult_ne_busError (bs : List Byte) (c : Nat) : stringResult bs c ≠ .busError := by
  unfold stringResult
  split
  · nofun
  · split <;> nofun

/-- R163: WRSTR sets `R` exactly where it wrote a character, whatever its result. -/
theorem exec_wrstr_range {addr len : Nat} {s t : State} (h : exec (.wrstr addr len) s = .next t) :
    t.dkind.range = (s.dkind.range || (t.result != .busError &&
      decide (0 < stringWritten (hostBytes s addr len) s.cursor.toNat))) := by
  cases h
  split
  · rw [putString_wrstr]
    obtain ⟨hresult, hstate, -⟩ := putList_spec (hostBytes s addr len) s
    have hne := stringResult_ne_busError (hostBytes s addr len) s.cursor.toNat
    rw [hresult, hstate]
    by_cases hw : stringWritten (hostBytes s addr len) s.cursor.toNat = 0
    · simp [hw]
    · simp [hw, hne, Nat.pos_of_ne_zero hw]
  · simp

theorem sendAll_dkind (ts : List Transaction) (s : State) : (sendAll ts s).2.dkind = s.dkind := by
  rw [sendAll_frame]

/-- R184, R208: INIT and DECODE end with the flags they began with, whatever their result. -/
theorem exec_leavesKind {i : Instr} {s t : State} (hi : LeavesKind i) (h : exec i s = .next t) :
    t.dkind = s.dkind := by
  rcases hi with ⟨c, rfl⟩ | ⟨ox, oy, dst, addr, len, rfl⟩
  · cases h
    have hsent := sendAll_dkind (initTransactions c) s
    unfold initDevice
    split
    · next hs => rw [hs] at hsent; exact hsent
    · next hs => rw [hs] at hsent; exact hsent
  · cases h
    split
    · split
      · cases dst <;> rfl
      · rfl
    · rfl

/-! FLUSH. -/

theorem syncState_idle {k : DirtyKind} (h : k.syncState = .idle) : k.range = false := by
  obtain ⟨range, area⟩ := k
  cases range <;> cases area <;> simp [DirtyKind.syncState] at h ⊢

theorem syncState_rangeDirty {k : DirtyKind} (h : k.syncState = .rangeDirty) : k.range = true := by
  obtain ⟨range, area⟩ := k
  cases range <;> cases area <;> simp [DirtyKind.syncState] at h ⊢

theorem flushTransactions_length (s : State) : (flushTransactions s).length = 3 := rfl

theorem flushRange_ok {s : State} (h : ∀ k < 3, answerAt s k = .ok) :
    (flushRange s).result = .ok ∧ (flushRange s).dkind = s.dkind.clearRange := by
  simp [flushRange, sendAll_ok (flushTransactions s) s h]

theorem flushRange_fail {s : State} {k : Nat} (hk : k < 3) (hbefore : ∀ j < k, answerAt s j = .ok)
    (hfail : answerAt s k = .fail) :
    (flushRange s).result = .transportFailure ∧ (flushRange s).dkind = s.dkind := by
  have htx : (flushTransactions s)[k]? = some (flushTransactions s)[k] := List.getElem?_eq_getElem hk
  simp [flushRange, sendAll_fail (flushTransactions s) s k _ htx hbefore hfail]

/-- R180, R183: a FLUSH with `R` clear does nothing; else it clears `R` where its three transactions are answered `OK`,
and leaves the flags as they were where one is not. -/
theorem exec_flush_cases {s t : State} (h : exec .flush s = .next t) :
    (s.dkind.range = false ∧ t.result = .ok ∧ t.dkind = s.dkind) ∨
      (s.dkind.range = true ∧ (∀ k < 3, answerAt s k = .ok) ∧ t.result = .ok ∧ t.dkind = s.dkind.clearRange) ∨
        (s.dkind.range = true ∧ (∃ k < 3, answerAt s k = .fail) ∧ t.dkind = s.dkind) := by
  simp only [exec, execFlush] at h
  split at h
  · next hidle =>
    cases h
    exact .inl ⟨syncState_idle hidle, rfl, rfl⟩
  · next hdirty =>
    cases h
    rcases answers_cases s 3 with hok | ⟨k, hk, hbefore, hfail⟩
    · exact .inr (.inl ⟨syncState_rangeDirty hdirty, hok, flushRange_ok hok⟩)
    · exact .inr (.inr ⟨syncState_rangeDirty hdirty, ⟨k, hk, hfail⟩, (flushRange_fail hk hbefore hfail).2⟩)
  · cases h
  · cases h

/-! The flags under every command. -/

/-- R36: a command that fails leaves the flags alone, except a WRSTR, which may fail after it has written. -/
theorem exec_error_dkind {i : Instr} {s t : State} (h : exec i s = .next t) (hfail : t.result ≠ .ok)
    (hi : ∀ addr len, i ≠ .wrstr addr len) : t.dkind = s.dkind := by
  rcases rangeKind_cases i with hm | ⟨addr, len, rfl⟩ | rfl | hl
  · rcases exec_marks hm h with ⟨hok, -⟩ | ⟨-, hkind⟩
    · exact absurd hok hfail
    · exact hkind
  · exact absurd rfl (hi addr len)
  · rcases exec_flush_cases h with ⟨-, -, hkind⟩ | ⟨-, -, hok, -⟩ | ⟨-, -, hkind⟩
    · exact hkind
    · exact absurd hok hfail
    · exact hkind
  · exact exec_leavesKind hl h

/-- R36: what clears `R` is a FLUSH that ends in `OK`. -/
theorem exec_clears_range {i : Instr} {s t : State} (h : exec i s = .next t) (hs : s.dkind.range = true)
    (ht : t.dkind.range = false) : i = .flush ∧ t.result = .ok := by
  have hne : t.dkind ≠ s.dkind := fun he => by simp [he, hs] at ht
  rcases rangeKind_cases i with hm | ⟨addr, len, rfl⟩ | rfl | hl
  · rcases exec_marks hm h with ⟨-, hkind⟩ | ⟨-, hkind⟩
    · simp [hkind] at ht
    · exact absurd hkind hne
  · simp [exec_wrstr_range h, hs] at ht
  · rcases exec_flush_cases h with ⟨-, hok, -⟩ | ⟨-, -, hok, -⟩ | ⟨-, -, hkind⟩
    · exact ⟨rfl, hok⟩
    · exact ⟨rfl, hok⟩
    · exact absurd hkind hne
  · exact absurd (exec_leavesKind hl h) hne

/-- R36: a FLUSH in RangeDirty clears `R` where every answer is `OK`. -/
theorem exec_flush_ok_range {s t : State} (h : exec .flush s = .next t) (hs : s.dkind.range = true)
    (hok : ∀ k < 3, answerAt s k = .ok) : t.dkind.range = false := by
  rcases exec_flush_cases h with ⟨hidle, -⟩ | ⟨-, -, -, hkind⟩ | ⟨-, ⟨k, hk, hfail⟩, -⟩
  · simp [hs] at hidle
  · simp [hkind]
  · simp [hok k hk] at hfail

/-- R183: a `FAIL` among the answers leaves the flags as they were. -/
theorem exec_flush_fail_dkind {s t : State} (h : exec .flush s = .next t) {k : Nat} (hk : k < 3)
    (hfail : answerAt s k = .fail) : t.dkind = s.dkind := by
  rcases exec_flush_cases h with ⟨-, -, hkind⟩ | ⟨-, hok, -, -⟩ | ⟨-, -, hkind⟩
  · exact hkind
  · simp [hok k hk] at hfail
  · exact hkind

/-- R180: a FLUSH in Idle does nothing. -/
theorem exec_flush_idle_dkind {s t : State} (h : exec .flush s = .next t) (hs : s.dkind.range = false) :
    t.dkind = s.dkind := by
  rcases exec_flush_cases h with ⟨-, -, hkind⟩ | ⟨hdirty, -⟩ | ⟨-, -, hkind⟩
  · exact hkind
  · simp [hs] at hdirty
  · exact hkind

/-- Settles O36, clause by clause. -/
theorem whatChangesTheRangeFlag : Obligations.WhatChangesTheRangeFlag := by
  intro i s t _ h
  refine ⟨fun hok hi => ?_, ?_, exec_clears_range h, ?_, ?_, ?_, fun hi => exec_leavesKind hi h, exec_error_dkind h⟩
  · rcases exec_marks hi h with ⟨-, hkind⟩ | ⟨hfail, -⟩
    · simp [hkind]
    · exact absurd hok hfail
  · rintro addr len rfl
    exact exec_wrstr_range h
  · rintro rfl hs hok
    exact exec_flush_ok_range h hs hok
  · rintro rfl ⟨k, hk, hfail⟩
    exact exec_flush_fail_dkind h hk hfail
  · rintro rfl hs
    exact exec_flush_idle_dkind h hs

/-! The pixels of a byte (R21, R22). -/

/-- R21, R22: a pixel is one bit of the byte at its chunk's index. -/
theorem pixel_of_index (s : State) {c k : Nat} (hc : c < 504) (hk : k < 8) :
    pixel s (c % 84) (8 * (c / 84) + k) = (s.fb[c]).getLsbD k := by
  have hindex : chunkIndex (c % 84) ((8 * (c / 84) + k) / 8) = c := by
    simp only [chunkIndex]
    omega
  have hbit : (8 * (c / 84) + k) % 8 = k := by omega
  simp [pixel, hindex, hbit, hc]

/-- Settles O26: the byte stored at the cursor is the byte the pixels of that column are the bits of. -/
theorem writtenByteIsAPixelColumn : Obligations.WrittenByteIsAPixelColumn := by
  intro s t v k hc h hk
  cases h
  rcases put_cases v s with ⟨hfull, -⟩ | ⟨-, hput⟩
  · omega
  · rw [hput, pixel_of_index _ hc hk]
    simp

/-! The steps that run no command, the readback port and the reset state (R30, R31, R41, R260). -/

/-- Settles O10: one equation for each of the four kinds of step. -/
theorem noCommandNoEffect : Obligations.NoCommandNoEffect := by
  intro s rest
  refine ⟨step_idle, fun off hport => ?_, fun off v hport => ?_, fun addrs hport => ?_⟩
  · exact step_event hport
  · exact step_event hport
  · exact step_event hport

/-- R26: the number `DKIND` reads as is the sum of its two bits' weights. -/
theorem dkind_word_toNat (k : DirtyKind) :
    (k.word.setWidth 32).toNat = (if k.range then 1 else 0) + (if k.area then 2 else 0) := by
  obtain ⟨range, area⟩ := k
  cases range <;> cases area <;> rfl

/-- R30: away from the six registers the port gives a pixel byte or 0. -/
theorem readback_not_register (s : State) {off : BitVec 12}
    (h : off.toNat ∉ [0x000, 0x004, 0x008, 0x00C, 0x010, 0x014]) :
    readback s off =
      if h : 0x400 ≤ off.toNat ∧ off.toNat < 0x400 + 504 then (s.fb[off.toNat - 0x400]).setWidth 32 else 0 := by
  simp only [List.mem_cons, List.not_mem_nil, or_false, not_or] at h
  obtain ⟨h0, h4, h8, hc, h10, h14⟩ := h
  unfold readback
  split
  iterate 6 contradiction
  rfl

theorem readback_fb (s : State) {i : Nat} (h : i < 504) :
    readback s (BitVec.ofNat 12 (0x400 + i)) = (s.fb[i]).setWidth 32 := by
  have hoff : (BitVec.ofNat 12 (0x400 + i)).toNat = 0x400 + i := by
    simp only [BitVec.toNat_ofNat]
    omega
  have hreg : (BitVec.ofNat 12 (0x400 + i)).toNat ∉ [0x000, 0x004, 0x008, 0x00C, 0x010, 0x014] := by
    simp only [hoff, List.mem_cons, List.not_mem_nil, or_false, not_or]
    omega
  rw [readback_not_register s hreg, dif_pos (by omega)]
  simp [hoff]

/-- Settles O11: the six registers, the pixel bytes, and 0 elsewhere. -/
theorem readbackPortMap : Obligations.ReadbackPortMap := by
  intro s
  have reg16 (r : Reg16) : (r.setWidth 32).toNat = r.toNat := BitVec.toNat_setWidth_of_le (by decide)
  have reg8 (r : Byte) : (r.setWidth 32).toNat = r.toNat := BitVec.toNat_setWidth_of_le (by decide)
  refine ⟨rfl, ?_, reg16 s.cursor, reg16 s.dstart, reg16 s.dend, dkind_word_toNat s.dkind, reg8 s.contrast,
    fun i hi => ?_, fun off hreg hfb => ?_⟩
  · have hcode : (readback s 0x000).toNat = s.result.code.toNat := reg8 s.result.code
    rw [hcode]
    cases s.result <;> rfl
  · rw [readback_fb s hi, reg8]
  · rw [readback_not_register s hreg, dif_neg (by omega)]

/-- Settles O12: each register of the reset state is the value R41 gives, and a reset keeps the glyph table. -/
theorem registersAfterReset : Obligations.RegistersAfterReset :=
  ⟨rfl, rfl, rfl, rfl, rfl, rfl, rfl, resetCore_glyph⟩

/-- Settles O15: R41's values are legal, and no host byte is listed. -/
theorem invariantHoldsAtReset : Obligations.InvariantHoldsAtReset where
  cursor_le := by decide
  dstart_le := by decide
  range_ordered := by decide
  dend_le := by decide
  area_zero := rfl
  idle_empty := fun _ => rfl
  contrast_le := by decide
  result_raised := nofun
  hostMem_wf := wf_nil

end Sys2Proof.Machine

/-! Host memory: descriptors carried as bytes (R65), the ranges a command names (R67), what reaches host memory and the
transport (R61, R63, R110), the Host's own stores (R64, R75) and the bytes another agent writes meanwhile (R72). -/

namespace Sys2Proof.Machine

/-! Descriptors carried as bytes. -/

theorem wordOfBytes_bytesOfWord (w : Word) : wordOfBytes (bytesOfWord w) = w := by
  have hlt := w.isLt
  apply BitVec.eq_of_toNat_eq
  simp only [wordOfBytes, bytesOfWord, List.foldr_cons, List.foldr_nil, BitVec.toNat_ofNat]
  omega

/-- R65: the 16 bytes of a descriptor hold it whole, four bytes a word. -/
theorem ofBytes_toBytes (d : Descriptor) : Descriptor.ofBytes d.toBytes = d := by
  have hwords : Descriptor.ofBytes d.toBytes =
      ⟨wordOfBytes (bytesOfWord d.w0), wordOfBytes (bytesOfWord d.w1), wordOfBytes (bytesOfWord d.w2),
        wordOfBytes (bytesOfWord d.w3)⟩ := rfl
  simp only [hwords, wordOfBytes_bytesOfWord]

theorem decodeBytes_toBytes (d : Descriptor) : decodeBytes d.toBytes = decode d := by
  have hlen : d.toBytes.length = 16 := rfl
  rw [decodeBytes, if_pos hlen, ofBytes_toBytes]

theorem bytesOfWord_getElem (w : Word) {k : Nat} (hk : k < 4) :
    (bytesOfWord w)[k]? = some (BitVec.ofNat 8 (w.toNat / 2 ^ (8 * k))) := by
  match k, hk with
  | 0, _ => simp [bytesOfWord]
  | 1, _ => rfl
  | 2, _ => rfl
  | 3, _ => rfl

/-- Settles O8: the words survive their bytes, and the length is checked first. -/
theorem descriptorBytesAreLittleEndian : Obligations.DescriptorBytesAreLittleEndian :=
  ⟨decodeBytes_toBytes, fun w _ => bytesOfWord_getElem w, fun _ hlen => if_neg hlen⟩

/-! The ranges a command names. -/

/-- R67: a valid range, said of its addresses. -/
theorem validRange_iff_addresses (s : State) (a n : Nat) :
    validRange s a n = true ↔
      n = 0 ∨ a + n ≤ 4294967296 ∧ ∀ b, a ≤ b → b < a + n → hostValid s b = true := by
  rw [validRange_iff]
  refine or_congr_right (and_congr_right fun _ => ⟨fun h b hab hb => ?_, fun h k hk => ?_⟩)
  · have hbacked := h (b - a) (by omega)
    rwa [Nat.add_sub_cancel' hab] at hbacked
  · exact h (a + k) (by omega) (by omega)

theorem add_lt_of_validRange {s : State} {a n k : Nat} (h : validRange s a n = true) (hk : k < n) :
    a + k < 4294967296 := by
  rcases (validRange_iff s a n).1 h with rfl | ⟨hend, -⟩ <;> omega

theorem execBlitfull_valid {s : State} {addr : Nat} (h : validRange s addr 504 = true) :
    execBlitfull addr s = .next (finish .ok (markAll { s with fb := blitBuffer addr s })) := by
  rw [execBlitfull, if_pos h]

theorem execBlitfull_invalid {s : State} {addr : Nat} (h : validRange s addr 504 = false) :
    execBlitfull addr s = .next (finish .busError s) := by
  rw [execBlitfull, if_neg (by simp [h])]

theorem execWrstr_invalid {s : State} {addr len : Nat} (h : validRange s addr len = false) :
    execWrstr addr len s = .next (finish .busError s) := by
  rw [execWrstr, if_neg (by simp [h])]

theorem execDecode_invalid {s : State} {dst : Dest} {addr len : Nat} (ox oy : Nat)
    (h : decodeRangesValid dst addr len s = false) :
    execDecode ox oy dst addr len s = .next (finish .busError s) := by
  rw [execDecode, if_neg (by simp [h])]

theorem execDecode_image {s : State} {dst : Dest} {addr len : Nat} {img : Image} (ox oy : Nat)
    (h : decodeRangesValid dst addr len s = true) (himg : imageAt dst addr len s = some img) :
    execDecode ox oy dst addr len s =
      .next (finish .ok (blit (decodeRanges dst addr len) dst (blitWrites img ox oy) s)) := by
  rw [execDecode, if_pos h, himg]

/-- R201: to host memory DECODE names two ranges, and both are valid. -/
theorem decodeRangesValid_mem_iff {s : State} {daddr addr len : Nat} :
    decodeRangesValid (.mem daddr) addr len s = true ↔
      validRange s addr len = true ∧ validRange s daddr 504 = true := by
  simp only [decodeRangesValid, destValid, Bool.and_eq_true]

/-- R200, R201, R209: DECODE reports an error and does no more, or its ranges are valid, its stream is an image, and it
makes the canvas writes. -/
theorem execDecode_cases {ox oy : Nat} {dst : Dest} {addr len : Nat} {s t : State}
    (h : execDecode ox oy dst addr len s = .next t) :
    (∃ code, t = finish code s) ∨
      ∃ img, decodeRangesValid dst addr len s = true ∧ imageAt dst addr len s = some img ∧
        t = finish .ok (blit (decodeRanges dst addr len) dst (blitWrites img ox oy) s) := by
  cases h
  split
  · next hvalid =>
    split
    · next img himg => exact .inr ⟨img, hvalid, himg, rfl⟩
    · exact .inl ⟨.decodeError, rfl⟩
  · exact .inl ⟨.busError, rfl⟩

/-- Settles O48: each command checks its ranges before anything else, DECODE both of its two. -/
theorem invalidRangeIsBusError : Obligations.InvalidRangeIsBusError := by
  refine ⟨validRange_iff_addresses, fun _ _ => execBlitfull_invalid, fun _ _ _ => execWrstr_invalid,
    fun s ox oy addr len dst h => ?_, fun s ox oy addr len daddr h => ?_⟩
  · exact execDecode_invalid ox oy (by simp [decodeRangesValid, h])
  · exact execDecode_invalid ox oy (by simp [decodeRangesValid, destValid, h])

/-! Canvas writes to host memory (R207). -/

/-- What a race leaves of canvas writes stays in the address space where the canvas range is valid. -/
theorem leftWrites_lt {s : State} {daddr : Nat} {ws : List (Nat × Byte)} (named : List HostRegion)
    (hvalid : validRange s daddr 504 = true) (hws : ∀ w ∈ ws, w.1 < 504) :
    ∀ w ∈ leftWrites named daddr ws s, daddr + w.1 < 4294967296 := by
  intro w hw
  obtain ⟨v, hv, rfl⟩ := mem_leftWrites.1 hw
  exact add_lt_of_validRange hvalid (hws v hv)

/-- R207: canvas writes leave every host byte outside the canvas. -/
theorem memRead_blit_outside {s : State} {daddr : Nat} {ws : List (Nat × Byte)} (named : List HostRegion)
    (hwf : Memory.wf s.hostMem) (hvalid : validRange s daddr 504 = true) (hws : ∀ w ∈ ws, w.1 < 504) {a : Nat}
    (ha : a < daddr ∨ daddr + 504 ≤ a) :
    memRead (blit named (.mem daddr) ws s).hostMem a = memRead s.hostMem a := by
  refine foldl_memWrite _ daddr _ hwf (leftWrites_lt named hvalid hws) a fun w hw => ?_
  obtain ⟨v, hv, rfl⟩ := mem_leftWrites.1 hw
  have hlt := hws v hv
  simp only
  omega

/-- R72, R207: canvas writes to distinct indices leave at each what the race leaves of its write. -/
theorem memRead_blit_written {s : State} {daddr : Nat} {ws : List (Nat × Byte)} (named : List HostRegion)
    (hwf : Memory.wf s.hostMem) (hvalid : validRange s daddr 504 = true) (hws : ∀ w ∈ ws, w.1 < 504)
    (hnodup : (ws.map (·.1)).Nodup) {i : Nat} {v : Byte} (hi : (i, v) ∈ ws) :
    memRead (blit named (.mem daddr) ws s).hostMem (daddr + i) = leftByte named s (daddr + i) v := by
  have hin : (i, leftByte named s (daddr + i) v) ∈ leftWrites named daddr ws s :=
    mem_leftWrites.2 ⟨(i, v), hi, rfl⟩
  exact foldl_memWrite_mem _ daddr _ hwf (leftWrites_lt named hvalid hws) i _ (by simpa using hnodup) hin

/-- R207: an image with all its columns is written at each of its canvas indices, once. -/
theorem blitWrites_indices {img : Image} (h : img.cols.length = img.width * img.height) (ox oy : Nat) :
    (blitWrites img ox oy).map (·.1) =
      blitIndices img.width img.height (place ox oy img.width img.height).1 (place ox oy img.width img.height).2 :=
  List.map_fst_zip (by rw [blitIndices_length, h])

/-- R206, R207: no canvas index of a placed image is written twice. -/
theorem blitWrites_nodup {img : Image} (hw : img.width ≤ 84) (hcols : img.cols.length = img.width * img.height)
    (ox oy : Nat) : ((blitWrites img ox oy).map (·.1)).Nodup := by
  rw [blitWrites_indices hcols]
  exact blitIndices_nodup _ _ _ _ (placeAxis_fits ox _ 84 hw)

/-! What reaches host memory and the transport. -/

/-- Host memory, the trace and the supply of answers are the same in both states. -/
def SameHostAndTransport (s t : State) : Prop :=
  t.hostMem = s.hostMem ∧ t.trace = s.trace ∧ t.answers = s.answers

/-- R61, R63, R110: a command that is not FLUSH, INIT or a DECODE to host memory changes neither host memory nor the
transport. -/
theorem exec_sameHostAndTransport {i : Instr} {s t : State} (h : exec i s = .next t) (hflush : i ≠ .flush)
    (hinit : ∀ c, i ≠ .init c) (hdecode : ∀ ox oy daddr addr len, i ≠ .decode ox oy (.mem daddr) addr len) :
    SameHostAndTransport s t := by
  have same (s : State) : SameHostAndTransport s s := ⟨rfl, rfl, rfl⟩
  cases i with
  | clear =>
    obtain rfl := Host.Outcome.next.inj h
    exact same s
  | gotochunk x y | gotochar x y => cases h; split <;> exact same s
  | wrbyte v => cases h; rw [put_frame]; exact same s
  | blitfull addr =>
    obtain rfl := Host.Outcome.next.inj h
    split <;> simp [SameHostAndTransport]
  | wrchar c => cases h; rw [putChar_frame]; exact same s
  | wrstr addr len =>
    cases h
    split
    · rw [putString_frame]; exact same s
    · exact same s
  | flush => exact absurd rfl hflush
  | init c => exact absurd rfl (hinit c)
  | decode ox oy dst addr len =>
    cases dst with
    | fb => rcases execDecode_cases h with ⟨code, rfl⟩ | ⟨img, -, -, rfl⟩ <;> exact same s
    | mem daddr => exact absurd rfl (hdecode ox oy daddr addr len)

/-- R63, R207: a DECODE to host memory leaves every host byte outside the canvas. -/
theorem exec_decode_outsideCanvas {ox oy daddr addr len : Nat} {s t : State} (hwf : Memory.wf s.hostMem)
    (h : exec (.decode ox oy (.mem daddr) addr len) s = .next t) {a : Nat} (ha : a < daddr ∨ daddr + 504 ≤ a) :
    memRead t.hostMem a = memRead s.hostMem a := by
  rcases execDecode_cases h with ⟨code, rfl⟩ | ⟨img, hvalid, himg, rfl⟩
  · rfl
  · obtain ⟨-, hcanvas⟩ := decodeRangesValid_mem_iff.1 hvalid
    exact memRead_blit_outside _ hwf hcanvas (blitWrites_lt_of_imageAt himg ox oy) ha

/-- R110: DECODE issues no transaction, whatever its destination. -/
theorem exec_decode_sameTransport {ox oy addr len : Nat} {dst : Dest} {s t : State}
    (h : exec (.decode ox oy dst addr len) s = .next t) : t.trace = s.trace ∧ t.answers = s.answers := by
  rcases execDecode_cases h with ⟨code, rfl⟩ | ⟨img, -, -, rfl⟩
  · exact ⟨rfl, rfl⟩
  · cases dst <;> exact ⟨rfl, rfl⟩

/-- R110: only FLUSH and INIT issue transactions. -/
theorem exec_sameTransport {i : Instr} {s t : State} (h : exec i s = .next t) (hflush : i ≠ .flush)
    (hinit : ∀ c, i ≠ .init c) : t.trace = s.trace ∧ t.answers = s.answers := by
  by_cases hdecode : ∃ ox oy daddr addr len, i = .decode ox oy (.mem daddr) addr len
  · obtain ⟨ox, oy, daddr, addr, len, rfl⟩ := hdecode
    exact exec_decode_sameTransport h
  · push Not at hdecode
    exact (exec_sameHostAndTransport h hflush hinit hdecode).2

/-- R110: what is sent is appended to the trace, and is among what was to be sent. -/
theorem sendAll_trace (ts : List Transaction) (s : State) :
    ∃ sent, (sendAll ts s).2.trace = s.trace ++ sent ∧ ∀ e ∈ sent, e.tx ∈ ts := by
  rcases answers_cases s ts.length with hok | ⟨k, hk, hbefore, hfail⟩
  · rw [sendAll_ok ts s hok]
    exact ⟨_, rfl, by simp⟩
  · rw [sendAll_fail ts s k ts[k] (List.getElem?_eq_getElem hk) hbefore hfail]
    refine ⟨_, List.append_assoc _ _ _, fun e he => ?_⟩
    simp only [List.mem_append, List.mem_map, List.mem_singleton] at he
    rcases he with ⟨u, hu, rfl⟩ | rfl
    · exact List.mem_of_mem_take hu
    · exact List.getElem_mem hk

/-- `t` is reached from `s` by issuing transactions of `ts`, host memory as it was. -/
def SentFrom (ts : List Transaction) (s t : State) : Prop :=
  t.hostMem = s.hostMem ∧ ∃ sent, t.trace = s.trace ++ sent ∧ ∀ e ∈ sent, e.tx ∈ ts

theorem SentFrom.refl (ts : List Transaction) (s : State) : SentFrom ts s s := ⟨rfl, [], by simp⟩

theorem sendAll_sentFrom (ts : List Transaction) (s : State) : SentFrom ts s (sendAll ts s).2 :=
  ⟨by rw [sendAll_frame], sendAll_trace ts s⟩

/-- R180, R183: FLUSH issues transactions of its sequence, and none where it is Idle. -/
theorem exec_flush_sentFrom {s t : State} (h : exec .flush s = .next t) : SentFrom (flushTransactions s) s t := by
  have hsent := sendAll_sentFrom (flushTransactions s) s
  simp only [exec, execFlush] at h
  split at h
  · cases h; exact SentFrom.refl _ s
  · cases h
    unfold flushRange
    split
    · next hs => rw [hs] at hsent; exact hsent
    · next hs => rw [hs] at hsent; exact hsent
  · cases h
  · cases h

/-- R184: INIT issues transactions of its sequence. -/
theorem exec_init_sentFrom {c : Nat} {s t : State} (h : exec (.init c) s = .next t) :
    SentFrom (initTransactions c) s t := by
  have hsent := sendAll_sentFrom (initTransactions c) s
  cases h
  unfold initDevice
  split
  · next hs => rw [hs] at hsent; exact hsent
  · next hs => rw [hs] at hsent; exact hsent

/-- R25, R182: a burst of FLUSH is a slice of the pixel memory. -/
theorem flushTransactions_burst {s : State} (h : s.Inv) {bs : List Byte} (hbs : .data bs ∈ flushTransactions s) :
    bs.length ≤ 504 := by
  simp only [flushTransactions, List.mem_cons, reduceCtorEq, Transaction.data.injEq, List.not_mem_nil, or_false,
    false_or] at hbs
  have hlen := fbSlice_length s.fb s.dstart.toNat s.dend.toNat h.dend_le
  have hdend_le := h.dend_le
  rw [hbs]
  omega

/-- R184: INIT sends command bytes only. -/
theorem data_notMem_initTransactions (c : Nat) (bs : List Byte) : .data bs ∉ initTransactions c := by
  simp [initTransactions]

/-- R63: only a DECODE to host memory writes there. -/
theorem exec_sameHostMem {i : Instr} {s t : State} (h : exec i s = .next t)
    (hdecode : ∀ ox oy daddr addr len, i ≠ .decode ox oy (.mem daddr) addr len) : t.hostMem = s.hostMem := by
  by_cases hflush : i = .flush
  · subst hflush
    exact (exec_flush_sentFrom h).1
  by_cases hinit : ∃ c, i = .init c
  · obtain ⟨c, rfl⟩ := hinit
    exact (exec_init_sentFrom h).1
  · exact (exec_sameHostAndTransport h hflush (fun c hc => hinit ⟨c, hc⟩) hdecode).1

/-- R110, R182, R184: what a command appends to the trace has bursts of at most the pixel memory's 504 bytes. -/
theorem exec_trace {i : Instr} {s t : State} (h : s.Inv) (ht : exec i s = .next t) :
    ∃ sent, t.trace = s.trace ++ sent ∧ ∀ e ∈ sent, ∀ bs, e.tx = .data bs → bs.length ≤ 504 := by
  by_cases hflush : i = .flush
  · subst hflush
    obtain ⟨-, sent, htrace, hsent⟩ := exec_flush_sentFrom ht
    exact ⟨sent, htrace, fun e he bs hbs => flushTransactions_burst h (hbs ▸ hsent e he)⟩
  by_cases hinit : ∃ c, i = .init c
  · obtain ⟨c, rfl⟩ := hinit
    obtain ⟨-, sent, htrace, hsent⟩ := exec_init_sentFrom ht
    exact ⟨sent, htrace, fun e he bs hbs => absurd (hbs ▸ hsent e he) (data_notMem_initTransactions c bs)⟩
  · have htransport := exec_sameTransport ht hflush fun c hc => hinit ⟨c, hc⟩
    exact ⟨[], by simp [htransport.1], by simp⟩

/-- Settles O56: the commands fall into three classes, one that reaches the transport, one that reaches host memory, and
the rest. -/
theorem onlyTheseCommandsReachOutside : Obligations.OnlyTheseCommandsReachOutside := by
  intro i s t h ht
  obtain ⟨⟨hport, hraces, hglyph, hmap, -, hread⟩, -⟩ := exec_next ht
  refine ⟨exec_sameHostMem ht, ?_, exec_sameTransport ht, exec_trace h ht, hglyph, hmap, hport, hraces, hread⟩
  rintro ox oy daddr addr len rfl a ha
  exact exec_decode_outsideCanvas h.hostMem_wf ht ha

/-! The bytes another agent writes, after the command. -/

/-- R72: settling leaves every byte no other agent wrote. -/
theorem memRead_settleRaces_other {s : State} (hwf : Memory.wf s.hostMem) {a : Nat} (ha : a ∉ s.races) :
    memRead (settleRaces s).hostMem a = memRead s.hostMem a := by
  rw [settleRaces_hostMem]
  exact foldl_raceOne_other s s.races hwf ha

/-- R72: settling leaves a free value at a backed byte another agent wrote. -/
theorem memRead_settleRaces_raced {s : State} (hwf : Memory.wf s.hostMem) {a : Nat} (ha : a ∈ s.races)
    (hvalid : hostValid s a = true) : memRead (settleRaces s).hostMem a = Config.racedLeft s.draws a := by
  rw [settleRaces_hostMem]
  exact foldl_raceOne_mem s s.races hwf ha hvalid

theorem hostValid_congr {s t : State} (h : t.hostMap = s.hostMap) (a : Nat) : hostValid t a = hostValid s a := by
  simp only [hostValid, h]

/-- Settles O58: the descriptor, legal or not, leaves the races, the backed addresses and the draws as they were, and
then the races settle. -/
theorem racedBytesAreFree : Obligations.RacedBytesAreFree := by
  intro s t d rest hinv hport hcommand
  have hissue : issue d { s with port := rest } = .next t := by
    rcases hcommand with ⟨i, hdec, hexec⟩ | ⟨⟨r, hdec⟩, rfl⟩
    · rw [issue_ok hdec, hexec]
    · exact issue_error hdec _
  have hwf : Memory.wf t.hostMem := (issue_inv (s := { s with port := rest }) { hinv with } hissue).hostMem_wf
  obtain ⟨-, hraces, -, hmap, hdraws, -⟩ := issue_sameOutside hissue
  refine ⟨settleRaces t, ?_, ?_, fun a ha => ?_, fun a ha hvalid => ?_⟩
  · rw [step_command hport, runCommand_eq_settleOutcome, hissue, settleOutcome]
  · rw [settleRaces_hostMem]
    exact settleRaces_frame t
  · exact memRead_settleRaces_other hwf (hraces ▸ ha)
  · rw [memRead_settleRaces_raced hwf (hraces ▸ ha) (by rwa [hostValid_congr hmap]), hdraws]

/-! The Host's own stores. -/

/-- R64: a store changes host memory at most. -/
theorem hostStore_frame (a : Word) (v : Byte) (s : State) :
    hostStore a v s = { s with hostMem := (hostStore a v s).hostMem } := by
  unfold hostStore
  split <;> rfl

theorem hostStore_backed {s : State} {a : Word} (v : Byte) (h : hostValid s a.toNat = true) :
    hostStore a v s = hostWrite a.toNat v s := if_pos h

/-- The model's choice (log entry 13): there is nothing to store to. -/
theorem hostStore_unbacked {s : State} {a : Word} (v : Byte) (h : hostValid s a.toNat = false) :
    hostStore a v s = s := if_neg (by simp [h])

theorem memRead_hostStore_same {s : State} {a : Word} (v : Byte) (hwf : Memory.wf s.hostMem)
    (h : hostValid s a.toNat = true) : memRead (hostStore a v s).hostMem a.toNat = v := by
  rw [hostStore_backed v h]
  exact memRead_memWrite_same _ _ _ hwf

theorem memRead_hostStore_other {s : State} {a : Word} (v : Byte) (hwf : Memory.wf s.hostMem) {b : Nat}
    (h : b ≠ a.toNat ∨ hostValid s a.toNat = false) :
    memRead (hostStore a v s).hostMem b = memRead s.hostMem b := by
  cases hvalid : hostValid s a.toNat with
  | true =>
    rw [hostStore_backed v hvalid]
    exact memRead_memWrite_other _ _ _ _ hwf (h.resolve_right (by simp [hvalid]))
  | false => rw [hostStore_unbacked v hvalid]

/-- Settles O59: the step is the store. -/
theorem hostStoreIsReadBack : Obligations.HostStoreIsReadBack := by
  intro s a v rest hinv hport
  exact ⟨hostStore a v { s with port := rest }, step_event hport,
    memRead_hostStore_same (s := { s with port := rest }) v hinv.hostMem_wf,
    fun b hb => memRead_hostStore_other (s := { s with port := rest }) v hinv.hostMem_wf hb, hostStore_frame a v _⟩

/-! Ranges written concurrently (R72). -/

/-- R72: an address is not raced where no range that holds it is written. -/
theorem racedAt_false {named : List HostRegion} {s : State} {a : Nat}
    (h : ∀ r ∈ named, r.base ≤ a → a < r.base + r.size → ∀ b ∈ s.races, ¬ (r.base ≤ b ∧ b < r.base + r.size)) :
    racedAt named s a = false := by
  rw [Bool.eq_false_iff, ne_eq, racedAt_iff]
  rintro ⟨r, hr, ⟨hlo, hhi⟩, b, hb, hin⟩
  exact h r hr hlo hhi b hb hin

theorem hostRead_raced {named : List HostRegion} {s : State} {a : Nat} (h : racedAt named s a = true) :
    hostRead named s a = Config.racedRead s.draws a := if_pos h

theorem leftByte_raced {named : List HostRegion} {s : State} {a : Nat} (h : racedAt named s a = true) (v : Byte) :
    leftByte named s a v = Config.racedLeft s.draws a := if_pos h

theorem hostRead_notRaced {named : List HostRegion} {s : State} {a : Nat} (h : racedAt named s a = false) :
    hostRead named s a = memRead s.hostMem a := if_neg (by simp [h])

theorem leftByte_notRaced {named : List HostRegion} {s : State} {a : Nat} (h : racedAt named s a = false) (v : Byte) :
    leftByte named s a v = v := if_neg (by simp [h])

/-- R72: one byte written in a named range races every address of that range. -/
theorem racedAt_of_mem {named : List HostRegion} {s : State} {base size : Nat} (hr : ⟨base, size⟩ ∈ named) {b : Nat}
    (hb : b ∈ s.races) (hlo : base ≤ b) (hhi : b < base + size) {a : Nat} (ha : base ≤ a) (ha' : a < base + size) :
    racedAt named s a = true :=
  (racedAt_iff named s a).2 ⟨⟨base, size⟩, hr, ⟨ha, ha'⟩, b, hb, hlo, hhi⟩

/-- R201: DECODE names its stream, whatever its destination. -/
theorem stream_mem_decodeRanges (dst : Dest) (addr len : Nat) : ⟨addr, len⟩ ∈ decodeRanges dst addr len := by
  cases dst <;> simp [decodeRanges]

theorem canvas_mem_decodeRanges (daddr addr len : Nat) : ⟨daddr, 504⟩ ∈ decodeRanges (.mem daddr) addr len := by
  simp [decodeRanges]

/-- R72: bytes read at raced addresses are free. -/
theorem readBytes_raced {named : List HostRegion} {s : State} {a n : Nat}
    (h : ∀ k < n, racedAt named s (a + k) = true) :
    readBytes named s a n = (List.range n).map fun k => Config.racedRead s.draws (a + k) := by
  refine List.ext_getElem? fun k => ?_
  by_cases hk : k < n
  · rw [readBytes_getElem _ _ _ _ _ hk, hostRead_raced (h k hk)]
    simp [hk]
  · rw [List.getElem?_eq_none (by rw [readBytes_length]; omega), List.getElem?_eq_none (by simp; omega)]

theorem imageAt_eq_map (dst : Dest) (addr len : Nat) (s : State) :
    imageAt dst addr len s = (readImage len (readBytes (decodeRanges dst addr len) s addr len)).map (·.1) := by
  unfold imageAt
  split <;> simp [*]

/-- R72, R207: a DECODE whose canvas is written concurrently leaves a free value at every byte it writes. -/
theorem exec_decode_racedCanvas {s : State} {addr len daddr b : Nat} {img : Image} (ox oy : Nat)
    (hwf : Memory.wf s.hostMem) (hstream : validRange s addr len = true) (hcanvas : validRange s daddr 504 = true)
    (himg : imageAt (.mem daddr) addr len s = some img) (hb : b ∈ s.races) (hlo : daddr ≤ b)
    (hhi : b < daddr + 504) :
    ∃ t, exec (.decode ox oy (.mem daddr) addr len) s = .next t ∧
      ∀ i ∈ blitIndices img.width img.height (place ox oy img.width img.height).1
          (place ox oy img.width img.height).2,
        memRead t.hostMem (daddr + i) = Config.racedLeft s.draws (daddr + i) := by
  have hvalid := decodeRangesValid_mem_iff.2 ⟨hstream, hcanvas⟩
  obtain ⟨hw, -, hcols⟩ := imageAt_size himg
  have hws := blitWrites_lt_of_imageAt himg ox oy
  refine ⟨_, execDecode_image ox oy hvalid himg, fun i hi => ?_⟩
  rw [← blitWrites_indices hcols] at hi
  obtain ⟨⟨j, v⟩, hin, rfl⟩ := List.mem_map.1 hi
  have hj := hws _ hin
  rw [finish_hostMem, memRead_blit_written _ hwf hcanvas hws (blitWrites_nodup hw hcols ox oy) hin]
  exact leftByte_raced
    (racedAt_of_mem (canvas_mem_decodeRanges daddr addr len) hb hlo hhi (by omega) (by simp only at hj ⊢; omega)) v

/-- Settles O60: each clause is a read or a write at an address of a range that holds the byte written. -/
theorem concurrentlyWrittenRangeIsFree : Obligations.ConcurrentlyWrittenRangeIsFree := by
  refine ⟨fun named s a v => ⟨fun h => ?_, fun h => ?_⟩, fun s addr b hvalid hb hlo hhi => ?_,
    fun s addr len b hb hlo hhi k hk => ?_, fun s dst addr len b hb hlo hhi => ?_,
    fun s addr len daddr b k hb hlo hhi hk hdlo hdhi => ?_,
    fun s ox oy addr len daddr b img hwf hstream hcanvas himg hb hlo hhi =>
      exec_decode_racedCanvas ox oy hwf hstream hcanvas himg hb hlo hhi⟩
  · have hraced := (racedAt_iff named s a).2 h
    exact ⟨hostRead_raced hraced, leftByte_raced hraced v⟩
  · have hfree := racedAt_false h
    exact ⟨hostRead_notRaced hfree, leftByte_notRaced hfree v⟩
  · refine ⟨_, execBlitfull_valid hvalid, fun i hi => ?_⟩
    have hraced := racedAt_of_mem (a := addr + i) (List.mem_singleton_self _) hb hlo hhi (by omega) (by omega)
    simpa [blitBuffer, namedRanges] using hostRead_raced hraced
  · have hraced := racedAt_of_mem (a := addr + k) (List.mem_singleton_self _) hb hlo hhi (by omega) (by omega)
    rw [hostBytes_getElem s addr len k hk, hostRead_raced hraced]
  · rw [imageAt_eq_map, readBytes_raced fun k hk =>
      racedAt_of_mem (stream_mem_decodeRanges dst addr len) hb hlo hhi (by omega) (by omega)]
  · rw [readBytes_getElem _ s addr len k hk,
      hostRead_raced (racedAt_of_mem (canvas_mem_decodeRanges daddr addr len) hb hlo hhi hdlo hdhi)]

end Sys2Proof.Machine

/-! The encoding (R90 to R101): what each opcode's descriptors decode to, which are legal, the opcode table, the words
that are ignored, and the assembler. -/

namespace Sys2Proof

/-! Operands and fields. -/

@[simp] theorem fitsByte_iff (n : Nat) : fitsByte n = true ↔ n < 256 := decide_eq_true_iff

@[simp] theorem fitsWord_iff (n : Nat) : fitsWord n = true ↔ n < 4294967296 := decide_eq_true_iff

/-- An operand that fits a word is carried whole. -/
theorem word_toNat_of_fits {n : Nat} (h : n < 4294967296) : (BitVec.ofNat 32 n).toNat = n := by
  rw [BitVec.toNat_ofNat, Nat.mod_eq_of_lt h]

theorem fitsWord_toNat (w : Word) : fitsWord w.toNat = true := (fitsWord_iff _).2 w.isLt

/-! Legal descriptors, one equation for each opcode (R94, R95). -/

section Legal

variable {d : Descriptor} {x y : Nat}

theorem requireDst_ok (i : Instr) (hd : d.fieldDst = 0) : requireDst d i = .ok i := if_neg (by simp [hd])

theorem requireBDst_ok (i : Instr) (hb : d.fieldB = 0) (hd : d.fieldDst = 0) : requireBDst d i = .ok i := by
  rw [requireBDst, if_neg (by simp [hb]), requireDst_ok i hd]

theorem requireABDst_ok (i : Instr) (ha : d.fieldA = 0) (hb : d.fieldB = 0) (hd : d.fieldDst = 0) :
    requireABDst d i = .ok i := by
  rw [requireABDst, if_neg (by simp [ha]), requireBDst_ok i hb hd]

theorem decode_clear (hr : d.fieldRsv = 0) (ho : d.opc = 1) (ha : d.fieldA = 0) (hb : d.fieldB = 0)
    (hd : d.fieldDst = 0) : decode d = .ok .clear := by
  rw [decode, if_neg (not_not.2 hr), ho]
  exact requireABDst_ok _ ha hb hd

theorem decode_gotochunk (hr : d.fieldRsv = 0) (ho : d.opc = 2) (ha : d.fieldA = x) (hb : d.fieldB = y)
    (hd : d.fieldDst = 0) : decode d = .ok (.gotochunk x y) := by
  rw [decode, if_neg (not_not.2 hr), ho, ← ha, ← hb]
  exact requireDst_ok _ hd

theorem decode_wrbyte (hr : d.fieldRsv = 0) (ho : d.opc = 3) (ha : d.fieldA = x) (hb : d.fieldB = 0)
    (hd : d.fieldDst = 0) : decode d = .ok (.wrbyte (BitVec.ofNat 8 x)) := by
  rw [decode, if_neg (not_not.2 hr), ho, ← ha]
  exact requireBDst_ok _ hb hd

theorem decode_blitfull (hr : d.fieldRsv = 0) (ho : d.opc = 4) (ha : d.fieldA = 0) (hb : d.fieldB = 0)
    (hd : d.fieldDst = 0) : decode d = .ok (.blitfull d.w1.toNat) := by
  rw [decode, if_neg (not_not.2 hr), ho]
  exact requireABDst_ok _ ha hb hd

theorem decode_wrchar (hr : d.fieldRsv = 0) (ho : d.opc = 5) (ha : d.fieldA = x) (hb : d.fieldB = 0)
    (hd : d.fieldDst = 0) : decode d = .ok (.wrchar x) := by
  rw [decode, if_neg (not_not.2 hr), ho, ← ha]
  exact requireBDst_ok _ hb hd

theorem decode_wrstr (hr : d.fieldRsv = 0) (ho : d.opc = 6) (ha : d.fieldA = 0) (hb : d.fieldB = 0)
    (hd : d.fieldDst = 0) : decode d = .ok (.wrstr d.w1.toNat d.w2.toNat) := by
  rw [decode, if_neg (not_not.2 hr), ho]
  exact requireABDst_ok _ ha hb hd

theorem decode_gotochar (hr : d.fieldRsv = 0) (ho : d.opc = 7) (ha : d.fieldA = x) (hb : d.fieldB = y)
    (hd : d.fieldDst = 0) : decode d = .ok (.gotochar x y) := by
  rw [decode, if_neg (not_not.2 hr), ho, ← ha, ← hb]
  exact requireDst_ok _ hd

theorem decode_flush (hr : d.fieldRsv = 0) (ho : d.opc = 8) (ha : d.fieldA = 0) (hb : d.fieldB = 0)
    (hd : d.fieldDst = 0) : decode d = .ok .flush := by
  rw [decode, if_neg (not_not.2 hr), ho]
  exact requireABDst_ok _ ha hb hd

theorem decode_init (hr : d.fieldRsv = 0) (ho : d.opc = 9) (ha : d.fieldA = x) (hb : d.fieldB = 0)
    (hd : d.fieldDst = 0) : decode d = .ok (.init x) := by
  rw [decode, if_neg (not_not.2 hr), ho, ← ha]
  exact requireBDst_ok _ hb hd

theorem decode_decode (hr : d.fieldRsv = 0) (ho : d.opc = 10) (ha : d.fieldA = x) (hb : d.fieldB = y) :
    decode d = .ok (.decode x y d.dest d.w1.toNat d.w2.toNat) := by
  rw [decode, if_neg (not_not.2 hr), ho, ← ha, ← hb]
  rfl

theorem dest_fb (h : d.fieldDst = 0) : d.dest = .fb := if_neg (by simp [h])

theorem dest_mem (h : d.fieldDst = 1) : d.dest = .mem d.w3.toNat := if_pos h

end Legal

/-! Decoding and encoding. -/

/-- R91: the fields of a descriptor whose W0 was packed. -/
theorem fields_of_w0_eq_packW0 {e : Descriptor} {o a b k : Nat} (hw : e.w0 = packW0 o a b k)
    (ho : o < 256 := by decide) (ha : a < 256 := by decide) (hb : b < 256 := by decide) (hk : k < 2 := by decide) :
    e.fieldRsv = 0 ∧ e.opc = o ∧ e.fieldA = a ∧ e.fieldB = b ∧ e.fieldDst = k := by
  obtain ⟨h1, h2, h3, h4, h5⟩ := packW0_fields ho ha hb hk
  rw [← hw] at h1 h2 h3 h4 h5
  exact ⟨h5, h1, h2, h3, h4⟩

/-- R90 to R95, R99: each operand comes back from the field that carries it. -/
theorem decode_encode {i : Instr} (h : i.wellFormed = true) : decode (encode i) = .ok i := by
  cases i with
  | clear =>
    obtain ⟨hr, ho, ha, hb, hd⟩ := fields_of_w0_eq_packW0 (e := encode .clear) rfl
    exact decode_clear hr ho ha hb hd
  | gotochunk x y =>
    simp only [Instr.wellFormed, Bool.and_eq_true, fitsByte_iff] at h
    obtain ⟨hr, ho, ha, hb, hd⟩ :=
      fields_of_w0_eq_packW0 (e := encode (.gotochunk x y)) rfl (ha := h.1) (hb := h.2)
    exact decode_gotochunk hr ho ha hb hd
  | wrbyte value =>
    obtain ⟨hr, ho, ha, hb, hd⟩ := fields_of_w0_eq_packW0 (e := encode (.wrbyte value)) rfl (ha := value.isLt)
    rw [decode_wrbyte hr ho ha hb hd, BitVec.ofNat_toNat, BitVec.setWidth_eq]
  | blitfull addr =>
    simp only [Instr.wellFormed, fitsWord_iff] at h
    obtain ⟨hr, ho, ha, hb, hd⟩ := fields_of_w0_eq_packW0 (e := encode (.blitfull addr)) rfl
    rw [decode_blitfull hr ho ha hb hd, encode, word_toNat_of_fits h]
  | wrchar code =>
    simp only [Instr.wellFormed, fitsByte_iff] at h
    obtain ⟨hr, ho, ha, hb, hd⟩ := fields_of_w0_eq_packW0 (e := encode (.wrchar code)) rfl (ha := h)
    exact decode_wrchar hr ho ha hb hd
  | wrstr addr len =>
    simp only [Instr.wellFormed, Bool.and_eq_true, fitsWord_iff] at h
    obtain ⟨hr, ho, ha, hb, hd⟩ := fields_of_w0_eq_packW0 (e := encode (.wrstr addr len)) rfl
    rw [decode_wrstr hr ho ha hb hd, encode, word_toNat_of_fits h.1, word_toNat_of_fits h.2]
  | gotochar x y =>
    simp only [Instr.wellFormed, Bool.and_eq_true, fitsByte_iff] at h
    obtain ⟨hr, ho, ha, hb, hd⟩ :=
      fields_of_w0_eq_packW0 (e := encode (.gotochar x y)) rfl (ha := h.1) (hb := h.2)
    exact decode_gotochar hr ho ha hb hd
  | flush =>
    obtain ⟨hr, ho, ha, hb, hd⟩ := fields_of_w0_eq_packW0 (e := encode .flush) rfl
    exact decode_flush hr ho ha hb hd
  | init contrast =>
    simp only [Instr.wellFormed, fitsByte_iff] at h
    obtain ⟨hr, ho, ha, hb, hd⟩ := fields_of_w0_eq_packW0 (e := encode (.init contrast)) rfl (ha := h)
    exact decode_init hr ho ha hb hd
  | decode ox oy dst addr len =>
    simp only [Instr.wellFormed, Bool.and_eq_true, fitsByte_iff, fitsWord_iff] at h
    obtain ⟨⟨⟨⟨hox, hoy⟩, hdst⟩, haddr⟩, hlen⟩ := h
    cases dst with
    | fb =>
      obtain ⟨hr, ho, ha, hb, hd⟩ :=
        fields_of_w0_eq_packW0 (e := encode (.decode ox oy .fb addr len)) rfl (ha := hox) (hb := hoy)
      rw [decode_decode hr ho ha hb, dest_fb hd, encode, word_toNat_of_fits haddr, word_toNat_of_fits hlen]
    | mem daddr =>
      rw [Dest.wellFormed, fitsWord_iff] at hdst
      obtain ⟨hr, ho, ha, hb, hd⟩ :=
        fields_of_w0_eq_packW0 (e := encode (.decode ox oy (.mem daddr) addr len)) rfl (ha := hox) (hb := hoy)
      rw [decode_decode hr ho ha hb, dest_mem hd, encode, word_toNat_of_fits haddr, word_toNat_of_fits hlen,
        word_toNat_of_fits hdst]

/-- Settles O1: every operand fits its field, so the field gives it back. -/
theorem decodeOfEncodeIsTheCommand : Obligations.DecodeOfEncodeIsTheCommand := fun _ => decode_encode

/-- R92, R93: the destination a descriptor names fits its word. -/
theorem dest_wellFormed (d : Descriptor) : d.dest.wellFormed = true := by
  unfold Descriptor.dest
  split
  · exact fitsWord_toNat d.w3
  · rfl

/-- R91: the W0 of a DECODE carries its destination. -/
theorem encode_decode_w0 (d : Descriptor) (ox oy addr len : Nat) :
    (encode (.decode ox oy d.dest addr len)).w0 = packW0 10 ox oy d.fieldDst := by
  have hdst := fieldDst_lt d
  by_cases h : d.fieldDst = 1
  · rw [dest_mem h, h]; rfl
  · have h0 : d.fieldDst = 0 := by omega
    rw [dest_fb h0, h0]; rfl

/-- R91, R97: a legal W0 is the packing of its fields, and so is the W0 of the command. -/
theorem decode_ok_word {d : Descriptor} {i : Instr} (h : decode d = .ok i) :
    i.wellFormed = true ∧ (encode i).w0 = d.w0 := by
  obtain ⟨hr, hcase⟩ := decode_ok h
  have hA := fieldA_lt d
  have hB := fieldB_lt d
  rw [w0_eq_packW0 d hr]
  rcases hcase with ⟨ho, ha, hb, hd, rfl⟩ | ⟨ho, hd, rfl⟩ | ⟨ho, hb, hd, rfl⟩ | ⟨ho, ha, hb, hd, rfl⟩ |
      ⟨ho, hb, hd, rfl⟩ | ⟨ho, ha, hb, hd, rfl⟩ | ⟨ho, hd, rfl⟩ | ⟨ho, ha, hb, hd, rfl⟩ | ⟨ho, hb, hd, rfl⟩ | ⟨ho, rfl⟩
  pick_goal 10
  · rw [encode_decode_w0, ho]
    simp [Instr.wellFormed, hA, hB, dest_wellFormed, fitsWord_toNat]
  all_goals simp [Instr.wellFormed, encode, fitsWord_toNat, Nat.mod_eq_of_lt, *]

/-- Settles O2: a legal W0 is no more than its fields. -/
theorem legalWordIsItsCommandsWord : Obligations.LegalWordIsItsCommandsWord := fun _ _ => decode_ok_word

/-! The opcode table (R98). -/

/-- R91: a word is its five fields. -/
theorem word_eq_iff_fields (v w : Word) :
    v = w ↔ field v 7 0 = field w 7 0 ∧ field v 15 8 = field w 15 8 ∧ field v 23 16 = field w 23 16 ∧
      field v 24 24 = field w 24 24 ∧ field v 31 25 = field w 31 25 := by
  refine ⟨fun h => by simp [h], fun ⟨h1, h2, h3, h4, h5⟩ => BitVec.eq_of_toNat_eq ?_⟩
  have hv := w0_toNat ⟨v, 0, 0, 0⟩
  have hw := w0_toNat ⟨w, 0, 0, 0⟩
  simp only [Descriptor.opc, Descriptor.fieldA, Descriptor.fieldB, Descriptor.fieldDst, Descriptor.fieldRsv] at hv hw
  rw [hv, hw, h1, h2, h3, h4, h5]

theorem field_and (v w : Word) (hi lo : Nat) : field (v &&& w) hi lo = field v hi lo &&& field w hi lo := by
  simp only [field, BitVec.toNat_and, Nat.and_div_two_pow, Nat.and_mod_two_pow]

/-- A field under a mask that is all ones there is kept. -/
theorem field_and_ones (w : Word) {m : Word} {hi lo : Nat} (hm : field m hi lo = 2 ^ (hi + 1 - lo) - 1) :
    field w hi lo &&& field m hi lo = field w hi lo := by
  rw [hm, Nat.and_two_pow_sub_one_eq_mod, field, Nat.mod_mod]

/-- A field under a mask that is 0 there is dropped. -/
theorem field_and_zero (w : Word) {m : Word} {hi lo : Nat} (hm : field m hi lo = 0) :
    field w hi lo &&& field m hi lo = 0 := by
  rw [hm, Nat.and_zero]

/-- R98: `W0 & mask = match`, field by field. -/
theorem masked_eq_packW0_iff (w m : Word) {o : Nat} (ho : o < 256) :
    w &&& m = packW0 o 0 0 0 ↔ field w 7 0 &&& field m 7 0 = o ∧ field w 15 8 &&& field m 15 8 = 0 ∧
      field w 23 16 &&& field m 23 16 = 0 ∧ field w 24 24 &&& field m 24 24 = 0 ∧
      field w 31 25 &&& field m 31 25 = 0 := by
  obtain ⟨h1, h2, h3, h4, h5⟩ := packW0_fields (a := 0) (b := 0) (d := 0) ho (by decide) (by decide) (by decide)
  rw [word_eq_iff_fields, h1, h2, h3, h4, h5]
  simp only [field_and]

section Masks

variable (d : Descriptor) {o : Nat} (ho : o < 256)
include ho

/-- R98: the mask of a command with no operand in W0. -/
theorem mask_noOperand_iff : d.w0 &&& 0xFFFFFFFF = packW0 o 0 0 0 ↔
    d.opc = o ∧ d.fieldA = 0 ∧ d.fieldB = 0 ∧ d.fieldDst = 0 ∧ d.fieldRsv = 0 := by
  rw [masked_eq_packW0_iff _ _ ho, field_and_ones _ (hi := 7) rfl, field_and_ones _ (hi := 15) rfl,
    field_and_ones _ (hi := 23) rfl, field_and_ones _ (hi := 24) rfl, field_and_ones _ (hi := 31) rfl]
  exact Iff.rfl

/-- R98: the mask of a command with the operand `A`. -/
theorem mask_operandA_iff : d.w0 &&& 0xFFFF00FF = packW0 o 0 0 0 ↔
    d.opc = o ∧ d.fieldB = 0 ∧ d.fieldDst = 0 ∧ d.fieldRsv = 0 := by
  rw [masked_eq_packW0_iff _ _ ho, field_and_ones _ (hi := 7) rfl, field_and_zero _ (hi := 15) rfl,
    field_and_ones _ (hi := 23) rfl, field_and_ones _ (hi := 24) rfl, field_and_ones _ (hi := 31) rfl]
  simp only [true_and]
  exact Iff.rfl

/-- R98: the mask of a command with the operands `A` and `B`. -/
theorem mask_operandsAB_iff : d.w0 &&& 0xFF0000FF = packW0 o 0 0 0 ↔
    d.opc = o ∧ d.fieldDst = 0 ∧ d.fieldRsv = 0 := by
  rw [masked_eq_packW0_iff _ _ ho, field_and_ones _ (hi := 7) rfl, field_and_zero _ (hi := 15) rfl,
    field_and_zero _ (hi := 23) rfl, field_and_ones _ (hi := 24) rfl, field_and_ones _ (hi := 31) rfl]
  simp only [true_and]
  exact Iff.rfl

/-- R98: the mask of a command with the operands `A`, `B` and `DST`. -/
theorem mask_operandsABDst_iff : d.w0 &&& 0xFE0000FF = packW0 o 0 0 0 ↔ d.opc = o ∧ d.fieldRsv = 0 := by
  rw [masked_eq_packW0_iff _ _ ho, field_and_ones _ (hi := 7) rfl, field_and_zero _ (hi := 15) rfl,
    field_and_zero _ (hi := 23) rfl, field_and_zero _ (hi := 24) rfl, field_and_ones _ (hi := 31) rfl]
  simp only [true_and]
  exact Iff.rfl

end Masks

/-- R98: a legal descriptor satisfies the row of its command. -/
theorem row_of_decode_ok {d : Descriptor} {i : Instr} (h : decode d = .ok i) :
    ∃ row ∈ opcodeTable, row.mnemonic = i.mnemonic ∧ field row.pattern 7 0 = d.opc ∧
      d.w0 &&& row.mask = row.pattern := by
  obtain ⟨hr, hcase⟩ := decode_ok h
  rcases hcase with ⟨ho, ha, hb, hd, rfl⟩ | ⟨ho, hd, rfl⟩ | ⟨ho, hb, hd, rfl⟩ | ⟨ho, ha, hb, hd, rfl⟩ |
      ⟨ho, hb, hd, rfl⟩ | ⟨ho, ha, hb, hd, rfl⟩ | ⟨ho, hd, rfl⟩ | ⟨ho, ha, hb, hd, rfl⟩ | ⟨ho, hb, hd, rfl⟩ | ⟨ho, rfl⟩
  · exact ⟨⟨"CLEAR", 0x00000001, 0xFFFFFFFF⟩, by decide, rfl, ho.symm,
      (mask_noOperand_iff d (by decide)).2 ⟨ho, ha, hb, hd, hr⟩⟩
  · exact ⟨⟨"GOTOCHUNK", 0x00000002, 0xFF0000FF⟩, by decide, rfl, ho.symm,
      (mask_operandsAB_iff d (by decide)).2 ⟨ho, hd, hr⟩⟩
  · exact ⟨⟨"WRBYTE", 0x00000003, 0xFFFF00FF⟩, by decide, rfl, ho.symm,
      (mask_operandA_iff d (by decide)).2 ⟨ho, hb, hd, hr⟩⟩
  · exact ⟨⟨"BLITFULL", 0x00000004, 0xFFFFFFFF⟩, by decide, rfl, ho.symm,
      (mask_noOperand_iff d (by decide)).2 ⟨ho, ha, hb, hd, hr⟩⟩
  · exact ⟨⟨"WRCHAR", 0x00000005, 0xFFFF00FF⟩, by decide, rfl, ho.symm,
      (mask_operandA_iff d (by decide)).2 ⟨ho, hb, hd, hr⟩⟩
  · exact ⟨⟨"WRSTR", 0x00000006, 0xFFFFFFFF⟩, by decide, rfl, ho.symm,
      (mask_noOperand_iff d (by decide)).2 ⟨ho, ha, hb, hd, hr⟩⟩
  · exact ⟨⟨"GOTOCHAR", 0x00000007, 0xFF0000FF⟩, by decide, rfl, ho.symm,
      (mask_operandsAB_iff d (by decide)).2 ⟨ho, hd, hr⟩⟩
  · exact ⟨⟨"FLUSH", 0x00000008, 0xFFFFFFFF⟩, by decide, rfl, ho.symm,
      (mask_noOperand_iff d (by decide)).2 ⟨ho, ha, hb, hd, hr⟩⟩
  · exact ⟨⟨"INIT", 0x00000009, 0xFFFF00FF⟩, by decide, rfl, ho.symm,
      (mask_operandA_iff d (by decide)).2 ⟨ho, hb, hd, hr⟩⟩
  · exact ⟨⟨"DECODE", 0x0000000A, 0xFE0000FF⟩, by decide, rfl, ho.symm,
      (mask_operandsABDst_iff d (by decide)).2 ⟨ho, hr⟩⟩

/-- R98: a descriptor that satisfies a row is a command of that row. -/
theorem decode_of_row {d : Descriptor} {row : TableRow} (hrow : row ∈ opcodeTable)
    (h : d.w0 &&& row.mask = row.pattern) : ∃ i, decode d = .ok i ∧ i.mnemonic = row.mnemonic := by
  simp only [opcodeTable, List.mem_cons, List.not_mem_nil, or_false] at hrow
  rcases hrow with rfl | rfl | rfl | rfl | rfl | rfl | rfl | rfl | rfl | rfl
  · obtain ⟨ho, ha, hb, hd, hr⟩ := (mask_noOperand_iff d (o := 1) (by decide)).1 h
    exact ⟨_, decode_clear hr ho ha hb hd, rfl⟩
  · obtain ⟨ho, hd, hr⟩ := (mask_operandsAB_iff d (o := 2) (by decide)).1 h
    exact ⟨_, decode_gotochunk hr ho rfl rfl hd, rfl⟩
  · obtain ⟨ho, hb, hd, hr⟩ := (mask_operandA_iff d (o := 3) (by decide)).1 h
    exact ⟨_, decode_wrbyte hr ho rfl hb hd, rfl⟩
  · obtain ⟨ho, ha, hb, hd, hr⟩ := (mask_noOperand_iff d (o := 4) (by decide)).1 h
    exact ⟨_, decode_blitfull hr ho ha hb hd, rfl⟩
  · obtain ⟨ho, hb, hd, hr⟩ := (mask_operandA_iff d (o := 5) (by decide)).1 h
    exact ⟨_, decode_wrchar hr ho rfl hb hd, rfl⟩
  · obtain ⟨ho, ha, hb, hd, hr⟩ := (mask_noOperand_iff d (o := 6) (by decide)).1 h
    exact ⟨_, decode_wrstr hr ho ha hb hd, rfl⟩
  · obtain ⟨ho, hd, hr⟩ := (mask_operandsAB_iff d (o := 7) (by decide)).1 h
    exact ⟨_, decode_gotochar hr ho rfl rfl hd, rfl⟩
  · obtain ⟨ho, ha, hb, hd, hr⟩ := (mask_noOperand_iff d (o := 8) (by decide)).1 h
    exact ⟨_, decode_flush hr ho ha hb hd, rfl⟩
  · obtain ⟨ho, hb, hd, hr⟩ := (mask_operandA_iff d (o := 9) (by decide)).1 h
    exact ⟨_, decode_init hr ho rfl hb hd, rfl⟩
  · obtain ⟨ho, hr⟩ := (mask_operandsABDst_iff d (o := 10) (by decide)).1 h
    exact ⟨_, decode_decode hr ho rfl rfl, rfl⟩

/-- Settles O3: a row's mask and match say of the fields what its command requires. -/
theorem legalExactlyByTheOpcodeTable : Obligations.LegalExactlyByTheOpcodeTable :=
  ⟨rfl, by decide, fun _ _ => row_of_decode_ok, fun _ _ hrow _ hmask => decode_of_row hrow hmask⟩

/-! Words a command does not use (R90, R94). -/

/-- R94: W3 is read for the destination in host memory alone. -/
theorem dest_congr {d e : Descriptor} (hd : e.fieldDst = d.fieldDst) (h3 : d.fieldDst = 1 → d.w3 = e.w3) :
    d.dest = e.dest := by
  rw [Descriptor.dest, Descriptor.dest, hd]
  split
  · next h => rw [h3 h]
  · rfl

/-- R94: a descriptor decodes by its W0, W1 for three commands, W2 for two of them and W3 for a DECODE to
host memory. -/
theorem decode_congr {d e : Descriptor} (h0 : d.w0 = e.w0) (h1 : d.opc ∈ [4, 6, 10] → d.w1 = e.w1)
    (h2 : d.opc ∈ [6, 10] → d.w2 = e.w2) (h3 : d.opc = 10 → d.fieldDst = 1 → d.w3 = e.w3) : decode d = decode e := by
  have hopc : e.opc = d.opc := by rw [Descriptor.opc, ← h0, Descriptor.opc]
  have ha : e.fieldA = d.fieldA := by rw [Descriptor.fieldA, ← h0, Descriptor.fieldA]
  have hb : e.fieldB = d.fieldB := by rw [Descriptor.fieldB, ← h0, Descriptor.fieldB]
  have hd : e.fieldDst = d.fieldDst := by rw [Descriptor.fieldDst, ← h0, Descriptor.fieldDst]
  have hr : e.fieldRsv = d.fieldRsv := by rw [Descriptor.fieldRsv, ← h0, Descriptor.fieldRsv]
  have hDst (i : Instr) : requireDst e i = requireDst d i := by rw [requireDst, hd, requireDst]
  have hBDst (i : Instr) : requireBDst e i = requireBDst d i := by rw [requireBDst, hb, hDst, requireBDst]
  have hABDst (i : Instr) : requireABDst e i = requireABDst d i := by rw [requireABDst, ha, hBDst, requireABDst]
  simp only [decode, hr, hopc, ha, hb, hDst, hBDst, hABDst]
  split
  · rfl
  · split
    case h_4 h => rw [h1 (by simp [h])]
    case h_6 h => rw [h1 (by simp [h]), h2 (by simp [h])]
    case h_10 h => rw [h1 (by simp [h]), h2 (by simp [h]), dest_congr hd (h3 h)]
    all_goals rfl

/-- Settles O4: no unused word is among those a descriptor decodes by. -/
theorem unusedWordsAreIgnored : Obligations.UnusedWordsAreIgnored := by
  intro w0 w1 w2 w3 v1 v2 v3
  refine ⟨fun h => ?_, fun h => ?_, fun h => ?_, fun h hdst => ?_⟩
  · have hopc : field w0 7 0 ∉ [4, 6, 10] := by simp at h ⊢; omega
    simp only [List.mem_cons, not_or] at hopc
    obtain ⟨h4, h6, h10, -⟩ := hopc
    exact decode_congr rfl (by simp [Descriptor.opc, h4, h6, h10]) (by simp [Descriptor.opc, h6, h10])
      (by simp [Descriptor.opc, h10])
  · exact decode_congr rfl (fun _ => rfl) (by simp [Descriptor.opc, h]) (by simp [Descriptor.opc, h])
  · exact decode_congr rfl (fun _ => rfl) (fun _ => rfl) (by simp [Descriptor.opc, h])
  · exact decode_congr rfl (fun _ => rfl) (fun _ => rfl) (by simp [Descriptor.fieldDst, hdst])

/-! Illegal descriptors (R95, R96). -/

/-- R95: which descriptors are legal, read off the fields of W0. -/
theorem exists_decode_ok_iff (d : Descriptor) :
    (∃ i, decode d = .ok i) ↔ d.fieldRsv = 0 ∧
      (d.opc ∈ [1, 4, 6, 8] ∧ d.fieldA = 0 ∧ d.fieldB = 0 ∧ d.fieldDst = 0 ∨
        d.opc ∈ [3, 5, 9] ∧ d.fieldB = 0 ∧ d.fieldDst = 0 ∨ d.opc ∈ [2, 7] ∧ d.fieldDst = 0 ∨ d.opc = 10) := by
  simp only [List.mem_cons, List.not_mem_nil, or_false]
  constructor
  · rintro ⟨i, h⟩
    obtain ⟨hr, hcase⟩ := decode_ok h
    refine ⟨hr, ?_⟩
    rcases hcase with ⟨ho, ha, hb, hd, -⟩ | ⟨ho, hd, -⟩ | ⟨ho, hb, hd, -⟩ | ⟨ho, ha, hb, hd, -⟩ | ⟨ho, hb, hd, -⟩ |
      ⟨ho, ha, hb, hd, -⟩ | ⟨ho, hd, -⟩ | ⟨ho, ha, hb, hd, -⟩ | ⟨ho, hb, hd, -⟩ | ⟨ho, -⟩
    · exact .inl ⟨.inl ho, ha, hb, hd⟩
    · exact .inr (.inr (.inl ⟨.inl ho, hd⟩))
    · exact .inr (.inl ⟨.inl ho, hb, hd⟩)
    · exact .inl ⟨.inr (.inl ho), ha, hb, hd⟩
    · exact .inr (.inl ⟨.inr (.inl ho), hb, hd⟩)
    · exact .inl ⟨.inr (.inr (.inl ho)), ha, hb, hd⟩
    · exact .inr (.inr (.inl ⟨.inr ho, hd⟩))
    · exact .inl ⟨.inr (.inr (.inr ho)), ha, hb, hd⟩
    · exact .inr (.inl ⟨.inr (.inr ho), hb, hd⟩)
    · exact .inr (.inr (.inr ho))
  · rintro ⟨hr, ⟨ho | ho | ho | ho, ha, hb, hd⟩ | ⟨ho | ho | ho, hb, hd⟩ | ⟨ho | ho, hd⟩ | ho⟩
    · exact ⟨_, decode_clear hr ho ha hb hd⟩
    · exact ⟨_, decode_blitfull hr ho ha hb hd⟩
    · exact ⟨_, decode_wrstr hr ho ha hb hd⟩
    · exact ⟨_, decode_flush hr ho ha hb hd⟩
    · exact ⟨_, decode_wrbyte hr ho rfl hb hd⟩
    · exact ⟨_, decode_wrchar hr ho rfl hb hd⟩
    · exact ⟨_, decode_init hr ho rfl hb hd⟩
    · exact ⟨_, decode_gotochunk hr ho rfl rfl hd⟩
    · exact ⟨_, decode_gotochar hr ho rfl rfl hd⟩
    · exact ⟨_, decode_decode hr ho rfl rfl⟩

/-- R96: a descriptor is illegal or legal, not both. -/
theorem exists_decode_error_iff (d : Descriptor) : (∃ r, decode d = .error r) ↔ ¬ ∃ i, decode d = .ok i := by
  cases decode d <;> simp

/-- R95, R96: what is illegal of the opcode `n` and the fields `a`, `b`, `k`, `r` of W0 is what is not legal of them. -/
theorem illegal_iff_not_legal (n a b k r : Nat) :
    (n = 0 ∨ 0x0B ≤ n ∨ r ≠ 0 ∨ (n ∈ [1, 4, 6, 8] ∧ (a ≠ 0 ∨ b ≠ 0 ∨ k ≠ 0)) ∨
        (n ∈ [3, 5, 9] ∧ (b ≠ 0 ∨ k ≠ 0)) ∨ (n ∈ [2, 7] ∧ k ≠ 0)) ↔
      ¬ (r = 0 ∧ (n ∈ [1, 4, 6, 8] ∧ a = 0 ∧ b = 0 ∧ k = 0 ∨ n ∈ [3, 5, 9] ∧ b = 0 ∧ k = 0 ∨
        n ∈ [2, 7] ∧ k = 0 ∨ n = 10)) := by
  rcases Nat.lt_or_ge n 0x0B with hn | hn
  · by_cases hr : r = 0
    · interval_cases n <;> simp [hr, imp_iff_not_or]
    · simp [hr]
  · have h1 : n ∉ [1, 4, 6, 8] := by simp; omega
    have h2 : n ∉ [3, 5, 9] := by simp; omega
    have h3 : n ∉ [2, 7] := by simp; omega
    have h4 : n ≠ 10 := by omega
    simp only [hn, h1, h2, h3, h4, true_or, or_true, false_and, or_false, and_false, not_false_eq_true]

/-- Settles O5: the illegal descriptors are the ones that are not legal, and a step with one is `illegalCommand`. -/
theorem illegalDescriptorOnlyReports : Obligations.IllegalDescriptorOnlyReports := by
  intro d s rest hport
  refine ⟨?_, fun ⟨r, hdec⟩ hcalm => ?_⟩
  · rw [exists_decode_error_iff, exists_decode_ok_iff]
    exact illegal_iff_not_legal d.opc d.fieldA d.fieldB d.fieldDst d.fieldRsv
  · rw [Machine.step_command hport, Machine.runCommand_calm (s := { s with port := rest }) d hcalm,
      Machine.issue_error hdec]
    rfl

/-! The assembler (R99). -/

/-- R99: what a line assembles to ends in the encoder, behind the check that the operands fit. -/
theorem assembleLine_descriptor {line : List Char} {d : Descriptor}
    (h : Machine.assembleLine line = .descriptor d) : ∃ i : Instr, i.wellFormed = true ∧ d = encode i := by
  unfold Machine.assembleLine at h
  split at h
  case h_2 cs ts _ =>
    split at h
    · cases h
    · next os _ =>
      split at h
      · cases h
      · next i _ =>
        split at h
        · next hfits => cases h; exact ⟨i, hfits, rfl⟩
        · cases h
  all_goals cases h

/-- A line written out is its characters: the text need not be encoded and decoded again to be assembled. -/
theorem assembleLine_toList {cs : List Char} {r : Machine.Assembled} (h : Machine.assembleLine cs = r) :
    Machine.assembleLine (String.ofList cs).toList = r := by
  rw [String.toList_ofList, h]

/-- Settles O7: the encoding of a well-formed command decodes to it. -/
theorem assemblerOutputIsLegal : Obligations.AssemblerOutputIsLegal := by
  refine ⟨fun line d h => ?_, assembleLine_toList rfl, assembleLine_toList rfl⟩
  obtain ⟨i, hfits, rfl⟩ := assembleLine_descriptor h
  exact ⟨i, hfits, rfl, decode_encode hfits⟩

/-- Settles O6: each line assembles to the encoding of its command, and that decodes back. -/
theorem encodingExamplesOfTheSpec : Obligations.EncodingExamplesOfTheSpec :=
  ⟨⟨assembleLine_toList rfl, assembleLine_toList rfl, assembleLine_toList rfl, assembleLine_toList rfl,
      assembleLine_toList rfl, assembleLine_toList rfl, assembleLine_toList rfl, assembleLine_toList rfl,
      assembleLine_toList rfl⟩,
    decode_encode (i := .clear) rfl, decode_encode (i := .gotochunk 10 1) rfl,
    decode_encode (i := .wrbyte 0x55) rfl, decode_encode (i := .wrchar 65) rfl,
    decode_encode (i := .gotochar 13 5) rfl, decode_encode (i := .flush) rfl, decode_encode (i := .init 200) rfl,
    decode_encode (i := .decode 83 5 .fb 0x1000 9) rfl,
    decode_encode (i := .decode 5 2 (.mem 0x3000) 0x1000 7) rfl⟩

end Sys2Proof

/-! The image stream (R113 to R118, R202 to R205): its fields, and where the reading of it ends. -/

namespace Sys2Proof.Machine

/-! Fields (R113). -/

theorem readVarint_one {b0 : Byte} (rest : List Byte) (h0 : b0.toNat < 128) :
    readVarint (b0 :: rest) = some (b0.toNat, rest) := if_pos h0

theorem readVarint_cut {b0 : Byte} (h0 : 128 ≤ b0.toNat) : readVarint [b0] = none := if_neg (by omega)

theorem readVarint_two {b0 b1 : Byte} (rest : List Byte) (h0 : 128 ≤ b0.toNat) (h1 : b1.toNat < 128) :
    readVarint (b0 :: b1 :: rest) = some (b0.toNat % 128 + 128 * b1.toNat, rest) := by
  rw [readVarint, if_neg (by omega)]
  exact if_pos h1

theorem readVarint_three {b0 b1 : Byte} (rest : List Byte) (h0 : 128 ≤ b0.toNat) (h1 : 128 ≤ b1.toNat) :
    readVarint (b0 :: b1 :: rest) = none := by
  rw [readVarint, if_neg (by omega)]
  exact if_neg (by omega)

theorem writeVarint_length (v : Nat) : (writeVarint v).length = if v ≤ 127 then 1 else 2 := by
  unfold writeVarint
  split <;> rfl

/-- Settles O45: the reader's branches, and that the canonical field takes one of the first two. -/
theorem varintFormat : Obligations.VarintFormat :=
  ⟨rfl, fun _ rest h0 => readVarint_one rest h0, fun _ h0 => readVarint_cut h0,
    fun _ _ rest h0 h1 => readVarint_two rest h0 h1, fun _ _ rest h0 h1 => readVarint_three rest h0 h1,
    fun v rest hv => ⟨readVarint_writeVarint v hv rest, writeVarint_length v⟩⟩

/-! What is left of a stream that parses (R115, R210). -/

/-- A stream that parses still parses with the bytes it leaves replaced. -/
theorem readImage_replace_rest {bs rest : List Byte} {img : Image} (h : readImage bs.length bs = some (img, rest))
    (tail : List Byte) :
    readImage (bs.take (bs.length - rest.length) ++ tail).length (bs.take (bs.length - rest.length) ++ tail) =
      some (img, tail) := by
  obtain ⟨front, rfl, hread⟩ := readImage_split h
  have hfront : (front ++ rest).take ((front ++ rest).length - rest.length) = front := by simp
  rw [hfront]
  exact hread tail _ (by simp)

/-- A stream that parses still parses with bytes added, which are left unread. -/
theorem readImage_append {bs rest : List Byte} {img : Image} (h : readImage bs.length bs = some (img, rest))
    (tail : List Byte) : readImage (bs ++ tail).length (bs ++ tail) = some (img, rest ++ tail) := by
  obtain ⟨front, rfl, hread⟩ := readImage_split h
  rw [List.append_assoc]
  exact hread (rest ++ tail) _ (by simp)

/-- A stream that parses does not parse when cut before its last byte that is read: what the cut stream left would be
left of the whole one too. -/
theorem readImage_take {bs rest : List Byte} {img : Image} (h : readImage bs.length bs = some (img, rest)) {k : Nat}
    (hk : k < bs.length - rest.length) : readImage (bs.take k).length (bs.take k) = none := by
  cases hcut : readImage (bs.take k).length (bs.take k) with
  | none => rfl
  | some found =>
    obtain ⟨img', rest'⟩ := found
    have hwhole := readImage_append hcut (bs.drop k)
    rw [List.take_append_drop, h] at hwhole
    obtain ⟨-, rfl⟩ := Prod.mk.inj (Option.some.inj hwhole)
    simp only [List.length_append, List.length_drop] at hk
    omega

/-! Where the reading ends (R205). -/

/-- R205: with all its columns there, the body reads no more. -/
theorem readBody_complete (fill : Byte) {total : Nat} {cols : List Byte} (h : total ≤ cols.length) (fuel : Nat)
    (bs : List Byte) : readBody fill total fuel cols bs = some (cols, bs) := by
  cases fuel <;> simp [readBody, h]

/-- R205: an explicit run that completes the image ends its pair; its blank length is not read. -/
theorem readPair_explicit_completes (fill : Byte) {total : Nat} {cols field literals : List Byte}
    (hfield : readVarint field = some (literals.length, [])) (htotal : cols.length + literals.length = total)
    (tail : List Byte) :
    readPair fill total cols (field ++ literals ++ tail) = some (cols ++ literals, tail) := by
  have hread := readVarint_append hfield (literals ++ tail)
  rw [List.nil_append] at hread
  simp only [readPair, List.append_assoc, hread, readLiterals_append, if_pos htotal]
  exact if_neg (by omega)

/-- R205: an explicit run that does not complete the image is followed by a blank run. -/
theorem readPair_blank (fill : Byte) {total blank : Nat} {cols field literals blankField : List Byte}
    (hfield : readVarint field = some (literals.length, [])) (hblank : readVarint blankField = some (blank, []))
    (hlt : cols.length + literals.length < total) (htotal : cols.length + literals.length + blank ≤ total)
    (tail : List Byte) :
    readPair fill total cols (field ++ literals ++ blankField ++ tail) =
      some (cols ++ literals ++ List.replicate blank fill, tail) := by
  have hread := readVarint_append hfield (literals ++ (blankField ++ tail))
  have hread' := readVarint_append hblank tail
  rw [List.nil_append] at hread hread'
  simp only [readPair, List.append_assoc, hread, readLiterals_append, hread']
  rw [if_neg (by omega), if_neg (by omega), if_neg (by omega)]

/-- A canonical stream holds more bytes than pairs, so its length bounds one pair more than it has. -/
theorem pairs_length_lt_writeImage (polarity w h : Nat) (pairs : List RunPair) :
    pairs.length < (writeImage polarity w h pairs).length := by
  have hpairs := length_le_writePairs pairs
  have hzero : (writeVarint 0).length = 1 := rfl
  simp only [writeImage, List.length_append]
  omega

/-- R118: an image with no column ends with its header. -/
theorem readImage_empty {polarity w h : Nat} (hp : polarity ≤ 16383) (hw : w ≤ 84) (hh : h ≤ 6) (hempty : w * h = 0)
    (tail : List Byte) (len : Nat) :
    readImage len (writeImage polarity w h [] ++ tail) = some (⟨w, h, []⟩, tail) := by
  simp only [readImage, readHeader_writeImage polarity w h hp hw hh,
    readBody_complete (fillByte polarity) (cols := []) (Nat.le_of_eq hempty)]
  rfl

/-- R205: a canonical stream whose pairs do not fill the image is read up to the end of a pair that completes it. -/
theorem readImage_completes {polarity w h : Nat} (hp : polarity ≤ 16383) (hw : w ≤ 84) (hh : h ≤ 6)
    {pairs : List RunPair} {stream run out tail : List Byte}
    (hlt : (pairs.flatMap (RunPair.columns (fillByte polarity))).length < w * h)
    (hrun : readPair (fillByte polarity) (w * h) (pairs.flatMap (RunPair.columns (fillByte polarity))) run =
      some (out, tail))
    (hout : out.length = w * h) (hstream : stream = writeImage polarity w h pairs ++ run) :
    readImage stream.length stream = some (⟨w, h, out⟩, tail) := by
  have hpairs := pairs_length_lt_writeImage polarity w h pairs
  obtain ⟨fuel, hfuel⟩ : ∃ fuel, stream.length = pairs.length + (fuel + 1) :=
    ⟨stream.length - pairs.length - 1, by rw [hstream, List.length_append]; omega⟩
  rw [hfuel, hstream]
  simp only [readImage, readHeader_writeImage polarity w h hp hw hh]
  rw [readBody_pairs _ _ (Nat.mul_le_mul hw hh) _ _ _ _ (by simpa using hlt), List.nil_append, readBody, if_pos hlt,
    hrun]
  simp only [readBody_complete _ hout.ge]

/-- Settles O53: what is read is a front of the stream, and a pair that completes the image is its last part. -/
theorem streamIsReadToItsLastColumn : Obligations.StreamIsReadToItsLastColumn := by
  refine ⟨fun bs rest img hread => ⟨readImage_size hread, readImage_append hread, ?_, fun k => readImage_take hread⟩,
    fun polarity w h fill pairs columns stream tail hp hw hh hfill hcolumns => ?_⟩
  · rintro stream tail rfl
    exact readImage_replace_rest hread tail
  · obtain rfl : fill = fillByte polarity := hfill
    subst hcolumns
    refine ⟨?_, fun field literals hfield hlt htotal hstream => ?_,
      fun field literals blankField blank hfield hblank hlt htotal hstream => ?_⟩
    · rintro hempty rfl
      exact readImage_empty hp hw hh hempty tail _
    · exact readImage_completes hp hw hh hlt (readPair_explicit_completes _ hfield htotal tail)
        (by rw [List.length_append, htotal]) (by rw [hstream]; simp only [List.append_assoc])
    · exact readImage_completes hp hw hh (by omega) (readPair_blank _ hfield hblank hlt htotal.le tail)
        (by rw [List.length_append, List.length_append, List.length_replicate, htotal])
        (by rw [hstream]; simp only [List.append_assoc])

end Sys2Proof.Machine

/-! The FrameBuffer commands (R130 to R138): what each does to the pixels and the tracker, and what becomes of the dirty
range over several commands. -/

namespace Sys2Proof.Machine

/-! The commands, a lemma for each of their ends. -/

theorem put_room {s : State} (v : Byte) (h : s.cursor.toNat < 504) : put v s = (.ok, storeAtCursor v s) :=
  if_neg (by omega)

theorem put_full {s : State} (v : Byte) (h : 504 ≤ s.cursor.toNat) : put v s = (.bufferFull, s) := if_pos h

theorem exec_wrbyte_room {s : State} (v : Byte) (h : s.cursor.toNat < 504) :
    exec (.wrbyte v) s = .next (finish .ok (storeAtCursor v s)) := by
  rw [exec, execWrbyte, put_room v h]

theorem exec_wrbyte_full {s : State} (v : Byte) (h : 504 ≤ s.cursor.toNat) :
    exec (.wrbyte v) s = .next (finish .bufferFull s) := by
  rw [exec, execWrbyte, put_full v h]

theorem chunkInRange_iff (x y : Nat) : chunkInRange x y = true ↔ x ≤ 83 ∧ y ≤ 5 := by
  simp [chunkInRange]

theorem execGotochunk_inRange {x y : Nat} (s : State) (hx : x ≤ 83) (hy : y ≤ 5) :
    execGotochunk x y s = .next (finish .ok (trackGoto (x + 84 * y) s)) := by
  rw [execGotochunk, if_pos ((chunkInRange_iff x y).2 ⟨hx, hy⟩), chunkIndex]

theorem execGotochunk_outOfRange {x y : Nat} (s : State) (h : 83 < x ∨ 5 < y) :
    execGotochunk x y s = .next (finish .outOfRange s) := by
  rw [execGotochunk, if_neg (by rw [chunkInRange_iff]; omega)]

/-- R133: GOTOCHUNK makes its goto, to an index on the canvas, or reports and does no more. -/
theorem execGotochunk_cases {x y : Nat} {s t : State} (h : execGotochunk x y s = .next t) :
    (∃ pos ≤ 503, t = finish .ok (trackGoto pos s)) ∨ t = finish .outOfRange s := by
  by_cases hin : x ≤ 83 ∧ y ≤ 5
  · obtain ⟨hx, hy⟩ := hin
    rw [execGotochunk_inRange s hx hy] at h
    cases h
    exact .inl ⟨_, by omega, rfl⟩
  · rw [execGotochunk_outOfRange s (by omega)] at h
    cases h
    exact .inr rfl

/-- R135: BLITFULL fills the pixels and marks them all, or reports and does no more. -/
theorem execBlitfull_cases {addr : Nat} {s t : State} (h : execBlitfull addr s = .next t) :
    t = finish .ok (markAll { s with fb := blitBuffer addr s }) ∨ t = finish .busError s := by
  cases hvalid : validRange s addr 504 with
  | true =>
    rw [execBlitfull_valid hvalid] at h
    exact .inl (Host.Outcome.next.inj h).symm
  | false =>
    rw [execBlitfull_invalid hvalid] at h
    exact .inr (Host.Outcome.next.inj h).symm

theorem exec_clear (s : State) :
    exec .clear s = .next (finish .ok (markAll { s with fb := Vector.replicate 504 0x00, cursor := 0 })) := rfl

/-- R132, R135: what changes of the state with new pixels, all marked, and the report. -/
theorem finish_markAll_withFb (s : State) (fb : Vector Byte 504) :
    finish .ok (markAll { s with fb := fb }) =
      { s with
        fb := fb, dstart := 0, dend := 504, dkind := { s.dkind with range := true }, result := .ok,
        returned := s.returned ++ [.ok] } := rfl

/-! Each command by itself. -/

/-- Settles O20: each bound by its own lemma, and the range stays ordered because `pos` is inside the buffer. -/
theorem trackGotoExtendsTheRange : Obligations.TrackGotoExtendsTheRange := by
  intro s pos hpos
  have hdstart := trackGoto_dstart_toNat s pos
  have hdend := trackGoto_dend_toNat s hpos
  exact ⟨trackGoto_cursor_toNat s hpos, hdstart, hdend, rfl, fun _ _ => by omega, rfl⟩

/-- Settles O21: a full buffer refuses the byte, else it is stored at the cursor. -/
theorem putStoresOrFails : Obligations.PutStoresOrFails := by
  intro s v
  refine ⟨put_full v, fun h => ⟨storeAtCursor v s, put_room v h, rfl, ?_, fun j hj hne => ?_,
    storeAtCursor_cursor_toNat v s h, fun hgt => ?_, fun hle => ?_⟩⟩
  · simp
  · simp [hne.symm]
  · rw [storeAtCursor_dend, if_pos hgt, storeAtCursor_cursor]
  · rw [storeAtCursor_dend, if_neg (by omega)]

/-- Settles O24: WRBYTE is a cursor write and its report. -/
theorem wrbyteStoresOrReports : Obligations.WrbyteStoresOrReports := by
  intro s v
  refine ⟨fun h => ⟨_, exec_wrbyte_room v h, ?_, fun j hj hne => ?_, storeAtCursor_cursor_toNat v s h,
    storeAtCursor_dend_toNat v s h, rfl⟩, exec_wrbyte_full v⟩
  · simp
  · simp [hne.symm]

/-- Settles O22: every byte of the new pixels is the one byte they repeat. -/
theorem clearZeroesAndMarksAll : Obligations.ClearZeroesAndMarksAll := fun s =>
  ⟨_, exec_clear s, fun _ h => Vector.getElem_replicate h, rfl, rfl, rfl, rfl, rfl, rfl⟩

/-- Settles O23: a goto to the chunk's index, or a report. -/
theorem gotochunkMovesOrReports : Obligations.GotochunkMovesOrReports := by
  intro s x y
  refine ⟨fun hx hy => ?_, execGotochunk_outOfRange s⟩
  have hpos : x + 84 * y ≤ 503 := by omega
  exact ⟨_, execGotochunk_inRange s hx hy, trackGoto_cursor_toNat s hpos, trackGoto_dstart_toNat s _,
    trackGoto_dend_toNat s hpos, rfl⟩

/-- R135: byte `i` of what BLITFULL copies is the one it reads at `addr + i`. -/
theorem blitBuffer_getElem (addr : Nat) (s : State) {i : Nat} (h : i < 504) :
    (blitBuffer addr s)[i] = hostRead (namedRanges (.blitfull addr)) s (addr + i) := by
  simp [blitBuffer]

/-- Settles O25: the copied bytes, and the frame of new pixels that are all marked. -/
theorem blitfullCopiesAndMarksAll : Obligations.BlitfullCopiesAndMarksAll := by
  intro s addr hvalid
  rw [exec, execBlitfull_valid hvalid, finish_markAll_withFb]
  exact ⟨_, rfl, fun _ h => blitBuffer_getElem addr s h, rfl, rfl, rfl⟩

/-! What a command can do to the cursor and the range. -/

/-- The low bound stayed, and neither the cursor nor the high bound fell: what cursor writes do (R131), and a command
that does not touch the tracker. -/
def Advanced (s t : State) : Prop :=
  t.dstart = s.dstart ∧ s.cursor.toNat ≤ t.cursor.toNat ∧ s.dend.toNat ≤ t.dend.toNat

/-- The cursor went to `pos`, and the range was extended to it (R130). -/
def WentTo (pos : Nat) (s t : State) : Prop :=
  t.cursor.toNat = pos ∧ t.dstart.toNat = min s.dstart.toNat pos ∧ t.dend.toNat = max s.dend.toNat pos

/-- The range is the whole buffer (R132, R135). -/
def AllMarked (t : State) : Prop := t.dstart.toNat = 0 ∧ t.dend.toNat = 504

theorem Advanced.refl (s : State) : Advanced s s := ⟨rfl, Nat.le_refl _, Nat.le_refl _⟩

theorem Advanced.trans {s t u : State} (h : Advanced s t) (h' : Advanced t u) : Advanced s u := by
  obtain ⟨hdstart, hcursor, hdend⟩ := h
  obtain ⟨hdstart', hcursor', hdend'⟩ := h'
  exact ⟨hdstart'.trans hdstart, hcursor.trans hcursor', hdend.trans hdend'⟩

theorem trackGoto_wentTo {pos : Nat} (s : State) (h : pos ≤ 503) : WentTo pos s (trackGoto pos s) :=
  ⟨trackGoto_cursor_toNat s h, trackGoto_dstart_toNat s pos, trackGoto_dend_toNat s h⟩

theorem put_advanced (v : Byte) (s : State) : Advanced s (put v s).2 := by
  rcases put_cases v s with ⟨-, hput⟩ | ⟨hc, hput⟩ <;> simp only [hput]
  · exact Advanced.refl s
  · have hcursor := storeAtCursor_cursor_toNat v s hc
    have hdend := storeAtCursor_dend_toNat v s hc
    exact ⟨rfl, by omega, by omega⟩

theorem putColumns_advanced (vs : List Byte) (s : State) : Advanced s (putColumns vs s) := by
  induction vs generalizing s with
  | nil => exact Advanced.refl s
  | cons v vs ih => exact (put_advanced v s).trans (ih (put v s).2)

theorem putChar_advanced (code : Nat) (s : State) : Advanced s (putChar code s).2 := by
  rcases putChar_cases code s with ⟨-, hput⟩ | ⟨-, -, hput⟩ | ⟨-, -, hput⟩ <;> simp only [hput]
  · exact Advanced.refl s
  · exact Advanced.refl s
  · exact putColumns_advanced _ s

/-- R163: each turn of the loop ends the string or is one character. -/
theorem putString_advanced (named : List HostRegion) (addr n : Nat) (s : State) :
    Advanced s (putString named addr n s).2 := by
  induction n generalizing addr s with
  | zero => exact Advanced.refl s
  | succ n ih =>
    have hchar := putChar_advanced (hostRead named s addr).toNat s
    rw [putString]
    split
    · exact Advanced.refl s
    · split
      · next s' hput =>
        rw [hput] at hchar
        exact hchar.trans (ih (addr + 1) s')
      · next hput => rwa [hput] at hchar

theorem sendAll_advanced (ts : List Transaction) (s : State) : Advanced s (sendAll ts s).2 := by
  rw [sendAll_frame]
  exact Advanced.refl s

/-- R184: INIT does not touch the tracker, whatever the answers. -/
theorem initDevice_advanced (c : Nat) (s : State) : Advanced s (initDevice c s) := by
  have hsent := sendAll_advanced (initTransactions c) s
  unfold initDevice
  split
  · next hs => rw [hs] at hsent; exact hsent
  · next hs => rw [hs] at hsent; exact hsent

/-- R208: DECODE does not touch the tracker, whatever it writes. -/
theorem execDecode_advanced {ox oy : Nat} {dst : Dest} {addr len : Nat} {s t : State}
    (h : execDecode ox oy dst addr len s = .next t) : Advanced s t := by
  rcases execDecode_cases h with ⟨code, rfl⟩ | ⟨img, -, -, rfl⟩
  · exact Advanced.refl s
  · cases dst <;> exact Advanced.refl s

theorem execGotochunk_tracker {x y : Nat} {s t : State} (h : execGotochunk x y s = .next t) :
    Advanced s t ∨ ∃ pos, WentTo pos s t := by
  rcases execGotochunk_cases h with ⟨pos, hpos, rfl⟩ | rfl
  · exact .inr ⟨pos, trackGoto_wentTo s hpos⟩
  · exact .inl (Advanced.refl s)

/-- R180, R183: a FLUSH that fails, or has nothing to send, leaves the tracker alone. -/
theorem exec_flush_advanced {s t : State} (h : exec .flush s = .next t)
    (hi : t.result ≠ .ok ∨ s.dkind.range = false) : Advanced s t := by
  have hsent := sendAll_advanced (flushTransactions s) s
  simp only [exec, execFlush] at h
  split at h
  · cases h
    exact Advanced.refl s
  · next hdirty =>
    cases h
    have hfail := hi.resolve_right (by simp [syncState_rangeDirty hdirty])
    unfold flushRange at hfail ⊢
    split at hfail
    · exact absurd rfl hfail
    · next hs => rw [hs] at hsent; exact hsent
  · cases h
  · cases h

/-- What a command can do to the tracker, all but a FLUSH that sends the range and completes. -/
theorem exec_tracker_cases {i : Instr} {s t : State} (h : exec i s = .next t)
    (hi : i = .flush → t.result ≠ .ok ∨ s.dkind.range = false) :
    Advanced s t ∨ (∃ pos, WentTo pos s t) ∨ AllMarked t := by
  cases i with
  | clear =>
    obtain rfl := Host.Outcome.next.inj h
    exact .inr (.inr ⟨rfl, rfl⟩)
  | gotochunk x y => exact (execGotochunk_tracker h).imp_right .inl
  | wrbyte v => cases h; exact .inl (put_advanced v s)
  | blitfull addr =>
    rcases execBlitfull_cases h with rfl | rfl
    · exact .inr (.inr ⟨rfl, rfl⟩)
    · exact .inl (Advanced.refl s)
  | wrchar c => cases h; exact .inl (putChar_advanced c s)
  | wrstr addr len =>
    cases h
    split
    · exact .inl (putString_advanced _ addr len s)
    · exact .inl (Advanced.refl s)
  | gotochar x y =>
    rw [exec, execGotochar_eq] at h
    exact (execGotochunk_tracker h).imp_right .inl
  | flush => exact .inl (exec_flush_advanced h (hi rfl))
  | init c => cases h; exact .inl (initDevice_advanced c s)
  | decode ox oy dst addr len => exact .inl (execDecode_advanced h)

/-! The range over several commands. -/

/-- Settles O32: each of the three things a command can do to the tracker keeps the range it finds, the last because
that range is inside the buffer. -/
theorem rangeGrowsUntilFlush : Obligations.RangeGrowsUntilFlush := by
  intro i s t hinv h hi
  have hdend_le := hinv.dend_le
  rcases exec_tracker_cases h hi with ⟨hdstart, -, hdend⟩ | ⟨pos, -, hdstart, hdend⟩ | ⟨hdstart, hdend⟩
  · exact ⟨by rw [hdstart], hdend⟩
  · omega
  · omega

/-- R133, R164: a goto by chunk or by character cell, in range. -/
def GotoInRange (i : Instr) (x y pos : Nat) : Prop :=
  (i = .gotochunk x y ∧ x ≤ 83 ∧ y ≤ 5 ∧ pos = x + 84 * y) ∨
    (i = .gotochar x y ∧ x ≤ 13 ∧ y ≤ 5 ∧ pos = 6 * x + 84 * y)

theorem GotoInRange.exec_eq {i : Instr} {x y pos : Nat} (h : GotoInRange i x y pos) (s : State) :
    pos ≤ 503 ∧ exec i s = .next (finish .ok (trackGoto pos s)) := by
  rcases h with ⟨rfl, hx, hy, rfl⟩ | ⟨rfl, hx, hy, rfl⟩
  · exact ⟨by omega, execGotochunk_inRange s hx hy⟩
  · rw [exec, execGotochar_eq, cellColumn]
    exact ⟨by omega, execGotochunk_inRange s (by omega) hy⟩

/-- Settles O33: the goto's own high bound is `pos` itself, and the cursor write takes it one further. -/
theorem gotoLeavesItsPositionOutside : Obligations.GotoLeavesItsPositionOutside := by
  intro i s t u x y pos v hgoto hpos ht hu
  obtain ⟨hle, hexec⟩ := GotoInRange.exec_eq hgoto s
  rw [hexec] at ht
  cases ht
  obtain ⟨hcursor, hdstart, hdend⟩ := trackGoto_wentTo s hle
  have hroom : (finish .ok (trackGoto pos s)).cursor.toNat < 504 := by rw [finish_cursor]; omega
  rw [exec_wrbyte_room v hroom] at hu
  cases hu
  have hdend' := storeAtCursor_dend_toNat v _ hroom
  simp only [finish_cursor, finish_dstart, finish_dend, storeAtCursor_dstart] at hdend' ⊢
  omega

/-- R138: a goto that completes takes the low bound to its position or below it. -/
theorem execGotochunk_covers {x y : Nat} {s t : State} (h : execGotochunk x y s = .next t) (hok : t.result = .ok) :
    t.dstart.toNat ≤ t.cursor.toNat := by
  rcases execGotochunk_cases h with ⟨pos, hpos, rfl⟩ | rfl
  · obtain ⟨hcursor, hdstart, -⟩ := trackGoto_wentTo s hpos
    simp only [finish_cursor, finish_dstart]
    omega
  · cases hok

/-- Settles O35: a cursor write leaves the low bound and takes the high bound past the cursor; of what a command can do
to the tracker, nothing takes the low bound above the cursor. -/
theorem cursorWriteIsCovered : Obligations.CursorWriteIsCovered := by
  refine ⟨fun s t v hc h => ?_, fun i s t h hok hi => ?_, fun i s t h hi hle => ?_⟩
  · rw [exec_wrbyte_room v hc] at h
    cases h
    have hdend := storeAtCursor_dend_toNat v s hc
    simp only [finish_dstart, finish_dend, storeAtCursor_dstart]
    omega
  · rcases hi with rfl | ⟨x, y, rfl⟩ | ⟨x, y, rfl⟩ | ⟨a, rfl⟩
    · obtain rfl := Host.Outcome.next.inj h
      exact Nat.zero_le _
    · exact execGotochunk_covers h hok
    · rw [exec, execGotochar_eq] at h
      exact execGotochunk_covers h hok
    · rcases execBlitfull_cases h with rfl | rfl
      · exact Nat.zero_le _
      · cases hok
  · have hcases := exec_tracker_cases h fun hflush => absurd hflush hi
    rcases hcases with ⟨hdstart, hcursor, -⟩ | ⟨pos, hcursor, hdstart, -⟩ | ⟨hdstart, -⟩
    · rw [hdstart]; omega
    · omega
    · omega

end Sys2Proof.Machine

/-! The SyncEngine commands (R180 to R186): where a FLUSH and an INIT end, answer by answer, and what that says of a
FLUSH that follows another. -/

namespace Sys2Proof.Machine

/-! FLUSH, an equation for each of its ends. -/

/-- R26: with `A` clear, the flags are the Range flag. -/
theorem dirtyKind_of_range {k : DirtyKind} {r : Bool} (harea : k.area = false) (hrange : k.range = r) :
    k = ⟨r, false⟩ := by
  rw [← harea, ← hrange]

/-- R180: what FLUSH makes of RangeDirty is Idle. -/
theorem clearRange_of_dirty {k : DirtyKind} (h : k = ⟨true, false⟩) : k.clearRange = ⟨false, false⟩ := by
  rw [h, DirtyKind.clearRange]

/-- R180: FLUSH in Idle. -/
theorem exec_flush_idle {s : State} (h : s.dkind = ⟨false, false⟩) : exec .flush s = .next (finish .ok s) := by
  simp only [exec, execFlush, h, DirtyKind.syncState]

/-- R180: FLUSH in RangeDirty. -/
theorem exec_flush_dirty {s : State} (h : s.dkind = ⟨true, false⟩) : exec .flush s = .next (flushRange s) := by
  simp only [exec, execFlush, h, DirtyKind.syncState]

/-- R180, R182: the three transactions, each answered `OK`, and the range collapsed. -/
theorem flushRange_eq_of_ok {s : State} (h : ∀ k < 3, answerAt s k = .ok) :
    flushRange s = finish .ok (collapseRange { s with
      trace := s.trace ++ (flushTransactions s).map (fun x => ⟨x, .ok⟩), answers := s.answers.drop 3 }) := by
  rw [flushRange, sendAll_ok (flushTransactions s) s h, flushTransactions_length]

/-- R183: the transactions up to the first `FAIL`, and nothing else but the report. -/
theorem flushRange_eq_of_fail {s : State} {k : Nat} {x : Transaction} (hx : (flushTransactions s)[k]? = some x)
    (hbefore : ∀ j < k, answerAt s j = .ok) (hfail : answerAt s k = .fail) :
    flushRange s = finish .transportFailure { s with
      trace := s.trace ++ ((flushTransactions s).take k).map (fun y => ⟨y, .ok⟩) ++ [⟨x, .fail⟩],
      answers := s.answers.drop (k + 1) } := by
  rw [flushRange, sendAll_fail (flushTransactions s) s k x hx hbefore hfail]

/-! The statements about FLUSH. -/

/-- Settles O37: the burst is a slice of the pixel memory, and the frame is that of the collapsed range. -/
theorem flushSendsTheRange : Obligations.FlushSendsTheRange := by
  intro s
  refine ⟨exec_flush_idle, fun hdirty hdend hok => ?_⟩
  rw [exec_flush_dirty hdirty, flushRange_eq_of_ok hok]
  refine ⟨_, fbSlice s.fb s.dstart.toNat s.dend.toNat, rfl, rfl, fbSlice_length _ _ _ hdend, fun k hk => ?_,
    collapseRange_dstart_toNat _, collapseRange_dend_toNat _, ?_⟩
  · rw [fbSlice_getElem _ _ _ _ hk (by omega), Vector.getElem?_eq_getElem]
  · rw [← clearRange_of_dirty hdirty]
    rfl

/-- Settles O38: nothing that the transactions are made of has changed. -/
theorem flushStopsAtTheFirstFailure : Obligations.FlushStopsAtTheFirstFailure := by
  intro s k x hdirty hx hbefore hfail
  rw [exec_flush_dirty hdirty, flushRange_eq_of_fail hx hbefore hfail]
  exact ⟨_, rfl, rfl, rfl⟩

/-- Settles O39: after `OK` the state is Idle, after `TRANSPORT_FAILURE` it is RangeDirty with the same transactions to
send. -/
theorem secondFlushIsANoOp : Obligations.SecondFlushIsANoOp := by
  intro s t hinv hrange h
  have hdirty := dirtyKind_of_range hinv.area_zero hrange
  rw [exec_flush_dirty hdirty] at h
  cases h
  rcases answers_cases s 3 with hok | ⟨k, hk, hbefore, hfail⟩
  · rw [flushRange_eq_of_ok hok]
    exact ⟨fun _ => exec_flush_idle (clearRange_of_dirty hdirty), nofun⟩
  · rw [flushRange_eq_of_fail (List.getElem?_eq_getElem hk) hbefore hfail]
    refine ⟨nofun, fun _ => ⟨hrange, rfl, fun hok => ?_⟩⟩
    rw [exec_flush_dirty (by exact hdirty), flushRange_eq_of_ok hok]
    exact ⟨_, rfl, rfl, rfl, rfl, rfl⟩

/-- Settles O40: none in Idle, all three on `OK`, and on `TRANSPORT_FAILURE` the fewer than three before the `FAIL`. -/
theorem flushTransactionCount : Obligations.FlushTransactionCount := by
  intro s t hinv h
  cases hrange : s.dkind.range with
  | false =>
    rw [exec_flush_idle (dirtyKind_of_range hinv.area_zero hrange)] at h
    cases h
    exact ⟨fun _ => rfl, nofun, nofun⟩
  | true =>
    rw [exec_flush_dirty (dirtyKind_of_range hinv.area_zero hrange)] at h
    cases h
    have hlen := fbSlice_length s.fb s.dstart.toNat s.dend.toNat hinv.dend_le
    have hdend_le := hinv.dend_le
    rcases answers_cases s 3 with hok | ⟨k, hk, hbefore, hfail⟩
    · rw [flushRange_eq_of_ok hok]
      exact ⟨nofun, fun _ _ => ⟨_, _, _, rfl, hlen, by omega⟩, nofun⟩
    · rw [flushRange_eq_of_fail (List.getElem?_eq_getElem hk) hbefore hfail]
      refine ⟨nofun, nofun, fun _ => ⟨_, _, rfl, ?_, List.forall_mem_map.2 fun _ _ => rfl⟩⟩
      rw [List.length_map, List.length_take]
      omega

/-! INIT. -/

/-- R184: the byte at `k` of the sequence is sent by the transaction at `k`. -/
theorem initTransactions_getElem? (c k : Nat) :
    (initTransactions c)[k]? = ((Config.initCmds (min c 127))[k]?).map .cmd := List.getElem?_map

theorem initTransactions_length (c : Nat) : (initTransactions c).length = (Config.initCmds (min c 127)).length :=
  List.length_map _

/-- R184: every byte of the sequence sent and answered `OK`, and the contrast recorded. -/
theorem initDevice_eq_of_ok {s : State} {c : Nat}
    (h : ∀ k < (Config.initCmds (min c 127)).length, answerAt s k = .ok) :
    initDevice c s = { s with
      contrast := BitVec.ofNat 8 (min c 127), result := .ok, returned := s.returned ++ [.ok],
      trace := s.trace ++ (Config.initCmds (min c 127)).map (fun b => ⟨.cmd b, .ok⟩),
      answers := s.answers.drop (Config.initCmds (min c 127)).length } := by
  rw [← initTransactions_length] at h ⊢
  rw [initDevice, sendAll_ok (initTransactions c) s h, initTransactions, List.map_map]
  rfl

/-- R184, R233: the bytes up to the first `FAIL`, and nothing else but the report. -/
theorem initDevice_eq_of_fail {s : State} {c k : Nat} {b : Byte} (hb : (Config.initCmds (min c 127))[k]? = some b)
    (hbefore : ∀ j < k, answerAt s j = .ok) (hfail : answerAt s k = .fail) :
    initDevice c s = { s with
      result := .transportFailure, returned := s.returned ++ [.transportFailure],
      trace := s.trace ++ ((Config.initCmds (min c 127)).take k).map (fun b => ⟨.cmd b, .ok⟩) ++ [⟨.cmd b, .fail⟩],
      answers := s.answers.drop (k + 1) } := by
  have hx : (initTransactions c)[k]? = some (.cmd b) := by rw [initTransactions_getElem?, hb, Option.map_some]
  rw [initDevice, sendAll_fail (initTransactions c) s k _ hx hbefore hfail,
    initTransactions, ← List.map_take, List.map_map]
  rfl

/-- Settles O41: the clamped contrast fits its register. -/
theorem initSendsAndRecordsContrast : Obligations.InitSendsAndRecordsContrast := by
  intro s c hok
  rw [exec, execInit, initDevice_eq_of_ok hok]
  refine ⟨_, rfl, ?_, rfl⟩
  rw [BitVec.toNat_ofNat]
  omega

/-- Settles O42: a sequence with no byte at `k` is over before the failing answer is asked for. -/
theorem initStopsAtTheFirstFailure : Obligations.InitStopsAtTheFirstFailure := by
  intro s c k hbefore hfail
  rw [exec, execInit]
  cases hb : (Config.initCmds (min c 127))[k]? with
  | some b => exact congrArg Host.Outcome.next (initDevice_eq_of_fail hb hbefore hfail)
  | none =>
    have hshort : (Config.initCmds (min c 127)).length ≤ k := List.getElem?_eq_none_iff.1 hb
    exact congrArg Host.Outcome.next (initDevice_eq_of_ok fun j hj => hbefore j (by omega))

end Sys2Proof.Machine

/-! The ImageDecoder command (R200 to R212): the header's checks, the streams that do not parse, where the columns of an
image are placed, and the round trip. -/

namespace Sys2Proof.Machine

/-! The header (R203, R204). -/

/-- R113: a field that stands alone is read the same before any bytes, which are left. -/
theorem readVarint_field {field : List Byte} {v : Nat} (h : readVarint field = some (v, [])) (rest : List Byte) :
    readVarint (field ++ rest) = some (v, rest) := readVarint_append h rest

/-- R203: four fields are a header when the fourth is 0 and the image fits the canvas at some origin. -/
theorem readHeader_fields {polarityField widthField heightField offsetField : List Byte}
    {polarity w h startOffset : Nat} (hpolarity : readVarint polarityField = some (polarity, []))
    (hwidth : readVarint widthField = some (w, [])) (hheight : readVarint heightField = some (h, []))
    (hoffset : readVarint offsetField = some (startOffset, [])) (rest : List Byte) :
    readHeader (polarityField ++ widthField ++ heightField ++ offsetField ++ rest) =
      if startOffset = 0 ∧ w ≤ 84 ∧ h ≤ 6 then some (⟨fillByte polarity, w, h⟩, rest) else none := by
  simp only [readHeader, List.append_assoc, readVarint_field hpolarity, readVarint_field hwidth,
    readVarint_field hheight, readVarint_field hoffset]
  by_cases hzero : startOffset = 0
  · by_cases hfits : w ≤ 84 ∧ h ≤ 6
    · rw [if_neg (not_not.2 hzero), if_neg (by omega), if_pos ⟨hzero, hfits⟩]
    · rw [if_neg (not_not.2 hzero), if_pos (by omega), if_neg fun hall => hfits hall.2]
  · rw [if_pos hzero, if_neg fun hall => hzero hall.1]

/-- Settles O46: the four fields are read one after the other, and the first that cannot be read ends the header. -/
theorem headerValidation : Obligations.HeaderValidation := by
  intro polarityField widthField heightField offsetField polarity w h startOffset hpolarity hwidth hheight hoffset
  refine ⟨readHeader_fields hpolarity hwidth hheight hoffset, fun bad hbad => ⟨?_, ?_, ?_, ?_⟩⟩
  · simp only [readHeader, hbad]
  · simp only [readHeader, readVarint_field hpolarity, hbad]
  · simp only [readHeader, List.append_assoc, readVarint_field hpolarity, readVarint_field hwidth, hbad]
  · simp only [readHeader, List.append_assoc, readVarint_field hpolarity, readVarint_field hwidth,
      readVarint_field hheight, hbad]

/-! Streams that do not parse (R205, R209). -/

theorem decodeRangesValid_of {s : State} {dst : Dest} {addr len : Nat} (hstream : validRange s addr len = true)
    (hcanvas : ∀ daddr, dst = .mem daddr → validRange s daddr 504 = true) :
    decodeRangesValid dst addr len s = true := by
  cases dst with
  | fb => simp only [decodeRangesValid, destValid, hstream, Bool.and_self]
  | mem daddr => exact decodeRangesValid_mem_iff.2 ⟨hstream, hcanvas daddr rfl⟩

theorem execDecode_noImage {s : State} {dst : Dest} {addr len : Nat} (ox oy : Nat)
    (h : decodeRangesValid dst addr len s = true) (himg : imageAt dst addr len s = none) :
    execDecode ox oy dst addr len s = .next (finish .decodeError s) := by
  rw [execDecode, if_pos h, himg]

/-- R205: an explicit run longer than the columns that are left is an error. -/
theorem readPair_explicit_overrun (fill : Byte) {total explicit : Nat} {cols run rest : List Byte}
    (hrun : readVarint run = some (explicit, rest)) (hover : total - cols.length < explicit) :
    readPair fill total cols run = none := by
  simp only [readPair, hrun, if_pos hover]

/-- R205: so is a blank run longer than the columns left after an explicit run that does not fill the image. -/
theorem readPair_blank_overrun (fill : Byte) {total blank : Nat} {cols run literals blankField tail : List Byte}
    (hrun : readVarint run = some (literals.length, literals ++ blankField ++ tail))
    (hlt : cols.length + literals.length < total) (hblank : readVarint blankField = some (blank, []))
    (hover : total - (cols.length + literals.length) < blank) : readPair fill total cols run = none := by
  simp only [readPair, hrun, List.append_assoc, readLiterals_append, readVarint_field hblank]
  rw [if_neg (by omega), if_neg (by omega), if_pos hover]

/-- R205: a canonical stream whose pairs do not fill the image does not parse when the next pair cannot be read. -/
theorem readImage_badPair {polarity w h : Nat} (hp : polarity ≤ 16383) (hw : w ≤ 84) (hh : h ≤ 6)
    {pairs : List RunPair} {run : List Byte} (len : Nat)
    (hlt : (pairs.flatMap (RunPair.columns (fillByte polarity))).length < w * h)
    (hrun : readPair (fillByte polarity) (w * h) (pairs.flatMap (RunPair.columns (fillByte polarity))) run = none)
    (hlen : pairs.length < len) : readImage len (writeImage polarity w h pairs ++ run) = none := by
  obtain ⟨fuel, rfl⟩ : ∃ fuel, len = pairs.length + (fuel + 1) := ⟨len - pairs.length - 1, by omega⟩
  simp only [readImage, readHeader_writeImage polarity w h hp hw hh]
  rw [readBody_pairs _ _ (Nat.mul_le_mul hw hh) _ _ _ _ (by simpa using hlt), List.nil_append, readBody, if_pos hlt,
    hrun]

/-- How many columns pairs stand for does not depend on the fill byte. -/
theorem columns_length_fill (fill fill' : Byte) (pairs : List RunPair) :
    (pairs.flatMap (RunPair.columns fill)).length = (pairs.flatMap (RunPair.columns fill')).length := by
  simp [List.length_flatMap, RunPair.columns]

/-- The image DECODE reads is the one its stream parses to. -/
theorem imageAt_of_stream {s : State} {dst : Dest} {addr len : Nat} {stream : List Byte}
    (hstream : readBytes (decodeRanges dst addr len) s addr len = stream) :
    imageAt dst addr len s = (readImage stream.length stream).map (·.1) := by
  have hlen : stream.length = len := by rw [← hstream, readBytes_length]
  rw [imageAt_eq_map, hstream, hlen]

/-- Settles O49: a run past the last column is a pair that cannot be read, and a stream that does not parse is
reported before anything is written. -/
theorem badStreamWritesNothing : Obligations.BadStreamWritesNothing := by
  refine ⟨fun s ox oy addr len dst hstream hcanvas himg =>
      execDecode_noImage ox oy (decodeRangesValid_of hstream hcanvas) himg,
    fun s polarity w h ox oy addr len dst pairs columns explicit run rest hp hw hh hstream hcanvas hbytes hcolumns hlt
      hrun hover => ?_⟩
  rw [columns_length_fill _ (fillByte polarity)] at hcolumns
  subst hcolumns
  have hpair : readPair (fillByte polarity) (w * h) (pairs.flatMap (RunPair.columns (fillByte polarity))) run =
      none := by
    rcases hover with hover | ⟨literals, blankField, blank, tail, rfl, rfl, hlt', hblank, hover⟩
    · exact readPair_explicit_overrun _ hrun hover
    · exact readPair_blank_overrun _ hrun hlt' hblank hover
  have hlen := pairs_length_lt_writeImage polarity w h pairs
  have hnone : imageAt dst addr len s = none := by
    rw [imageAt_of_stream hbytes,
      readImage_badPair hp hw hh _ hlt hpair (by rw [List.length_append]; omega), Option.map_none]
  exact execDecode_noImage ox oy (decodeRangesValid_of hstream hcanvas) hnone

/-! Where an image is placed (R206, R207, R210). -/

/-- Settles O47: the clamp is the definition, and what it leaves fits, axis by axis. -/
theorem placementClamp : Obligations.PlacementClamp := fun ox oy w h =>
  ⟨rfl, fun hw hh => ⟨placeAxis_fits ox w 84 hw, placeAxis_fits oy h 6 hh⟩⟩

/-- R207: the canvas index of column `c` in row `r` of an image of `w` by `h` placed from origin
`(ox, oy)`. -/
def canvasIndex (w h ox oy r c : Nat) : Nat := ((place ox oy w h).2 + r) * 84 + (place ox oy w h).1 + c

/-- R206: an image that fits the canvas has all its canvas indices on it. -/
theorem canvasIndex_lt {w h r c : Nat} (hw : w ≤ 84) (hh : h ≤ 6) (ox oy : Nat) (hr : r < h) (hc : c < w) :
    canvasIndex w h ox oy r c < 504 := by
  obtain ⟨-, hfits⟩ := placementClamp ox oy w h
  obtain ⟨hx, hy⟩ := hfits hw hh
  unfold canvasIndex
  omega

theorem mem_blitIndices_place {w h ox oy i : Nat} :
    i ∈ blitIndices w h (place ox oy w h).1 (place ox oy w h).2 ↔ ∃ r < h, ∃ c < w, i = canvasIndex w h ox oy r c :=
  mem_blitIndices

/-- Settles O52: the indices are distinct because the clamped image stays in its rows. -/
theorem canvasIndicesAreDistinct : Obligations.CanvasIndicesAreDistinct := by
  intro w h ox oy hw hh
  refine ⟨blitIndices_length w h _ _, blitIndices_nodup w h _ _ (placeAxis_fits ox w 84 hw), fun i hi => ?_⟩
  obtain ⟨r, hr, c, hc, rfl⟩ := mem_blitIndices_place.1 hi
  exact canvasIndex_lt hw hh ox oy hr hc

/-! The canvas writes of an image (R207). -/

/-- R207: each column of the image is written, at its canvas index. -/
theorem exists_column_mem_blitWrites {img : Image} (hcols : img.cols.length = img.width * img.height) (ox oy : Nat)
    {r c : Nat} (hr : r < img.height) (hc : c < img.width) :
    ∃ v, img.cols[r * img.width + c]? = some v ∧
      (canvasIndex img.width img.height ox oy r c, v) ∈ blitWrites img ox oy := by
  have hlt : r * img.width + c < img.cols.length := by
    calc r * img.width + c < (r + 1) * img.width := by rw [Nat.succ_mul]; omega
      _ ≤ img.cols.length := by rw [hcols, Nat.mul_comm]; exact Nat.mul_le_mul_left _ hr
  refine ⟨img.cols[r * img.width + c], List.getElem?_eq_getElem hlt, List.mem_of_getElem? (i := r * img.width + c) ?_⟩
  exact List.getElem?_zip_eq_some.2 ⟨blitIndices_getElem _ _ _ _ r c hr hc, List.getElem?_eq_getElem hlt⟩

/-- R207: nothing is written but at the canvas indices. -/
theorem blitWrites_ne {img : Image} {ox oy j : Nat}
    (h : ∀ r < img.height, ∀ c < img.width, j ≠ canvasIndex img.width img.height ox oy r c) :
    ∀ w ∈ blitWrites img ox oy, w.1 ≠ j := by
  rintro ⟨i, v⟩ hin rfl
  obtain ⟨r, hr, c, hc, hi⟩ := mem_blitIndices_place.1 (List.of_mem_zip hin).1
  exact h r hr c hc hi

/-- R207: canvas writes leave every host byte they do not name. -/
theorem memRead_blit_other {s : State} {daddr : Nat} {ws : List (Nat × Byte)} (named : List HostRegion)
    (hwf : Memory.wf s.hostMem) (hvalid : validRange s daddr 504 = true) (hws : ∀ w ∈ ws, w.1 < 504) {a : Nat}
    (ha : ∀ w ∈ ws, daddr + w.1 ≠ a) :
    memRead (blit named (.mem daddr) ws s).hostMem a = memRead s.hostMem a := by
  refine foldl_memWrite _ daddr _ hwf (leftWrites_lt named hvalid hws) a fun w hw => ?_
  obtain ⟨v, hv, rfl⟩ := mem_leftWrites.1 hw
  exact ha v hv

/-- Settles O50: the writes are at distinct indices, so each column stays where it is put. -/
theorem decodeBlitsToFb : Obligations.DecodeBlitsToFb := by
  intro s ox oy addr len img hstream himg
  obtain ⟨hw, hh, hcols⟩ := imageAt_size himg
  refine ⟨_, execDecode_image ox oy (decodeRangesValid_of hstream nofun) himg, fun r hr c hc => ?_, fun j hj hfree => ?_,
    rfl⟩
  · have hlt := canvasIndex_lt hw hh ox oy hr hc
    obtain ⟨v, hv, hin⟩ := exists_column_mem_blitWrites hcols ox oy hr hc
    refine ⟨hlt, (Vector.getElem?_eq_getElem hlt).trans ?_⟩
    rw [hv]
    exact congrArg some (foldl_fbWrite_mem _ s.fb _ hlt v (blitWrites_nodup hw hcols ox oy) hin)
  · exact foldl_fbWrite _ s.fb j hj (blitWrites_ne hfree)

/-- Settles O51: the writes are at distinct addresses, and where no other agent writes the byte left is the byte
written. -/
theorem decodeBlitsToHostMemory : Obligations.DecodeBlitsToHostMemory := by
  intro s ox oy addr len daddr img hwf hstream hcanvas himg
  obtain ⟨hw, hh, hcols⟩ := imageAt_size himg
  have hws := blitWrites_lt hw hh ox oy
  have hleft (r : Nat) (hr : r < img.height) (c : Nat) (hc : c < img.width) :
      some (memRead (blit (decodeRanges (.mem daddr) addr len) (.mem daddr) (blitWrites img ox oy) s).hostMem
        (daddr + canvasIndex img.width img.height ox oy r c)) =
        (img.cols[r * img.width + c]?).map (leftByte (decodeRanges (.mem daddr) addr len) s
          (daddr + canvasIndex img.width img.height ox oy r c)) := by
    obtain ⟨v, hv, hin⟩ := exists_column_mem_blitWrites hcols ox oy hr hc
    rw [hv, memRead_blit_written _ hwf hcanvas hws (blitWrites_nodup hw hcols ox oy) hin, Option.map_some]
  refine ⟨_, execDecode_image ox oy (decodeRangesValid_mem_iff.2 ⟨hstream, hcanvas⟩) himg, hleft,
    fun hcalm r hr c hc => ?_, fun a hfree => ?_, rfl⟩
  · have hsame : leftByte (decodeRanges (.mem daddr) addr len) s
        (daddr + canvasIndex img.width img.height ox oy r c) = id := funext (leftByte_calm hcalm _ _)
    exact (hleft r hr c hc).trans (by rw [hsame, Option.map_id, id])
  · refine memRead_blit_other _ hwf hcanvas hws fun w hin he => ?_
    obtain ⟨r, hr, c, hc, hi⟩ := mem_blitIndices_place.1 (List.of_mem_zip hin).1
    exact hfree r hr c hc (by rw [← he, hi]; rfl)

/-! The 1 by 1 image (R211). -/

/-- R206: an image of one column is moved off the right edge alone, when its origin is on the canvas's rows. -/
theorem canvasIndex_one (ox : Nat) {oy : Nat} (hoy : oy ≤ 5) : canvasIndex 1 1 ox oy 0 0 = oy * 84 + min ox 83 := by
  simp only [canvasIndex, place, placeAxis]
  split <;> split <;> omega

/-- Settles O54: the stream is one column, at the one index of its image. -/
theorem oneByOneImage : Obligations.OneByOneImage := by
  intro s ox oy addr hoy hstream hbytes
  have himg : imageAt .fb addr 7 s = some ⟨1, 1, [0xAA]⟩ := by
    rw [imageAt_of_stream (dst := .fb) hbytes]
    rfl
  obtain ⟨t, hexec, hput, hfree, hframe⟩ := decodeBlitsToFb s ox oy addr 7 _ hstream himg
  have hindex := canvasIndex_one ox hoy
  have hwritten : t.fb[oy * 84 + min ox 83]? = some 0xAA := by
    rw [← hindex]
    exact (hput 0 Nat.one_pos 0 Nat.one_pos).2
  have hkept (j : Nat) (hj : j < 504) (hne : j ≠ oy * 84 + min ox 83) : t.fb[j] = s.fb[j] := by
    refine hfree j hj fun r hr c hc => ?_
    obtain rfl : r = 0 := Nat.lt_one_iff.1 hr
    obtain rfl : c = 0 := Nat.lt_one_iff.1 hc
    rw [← hindex] at hne
    exact hne
  refine ⟨t, hexec, fun hox => ?_, fun hox => ?_, hframe⟩
  · rw [min_eq_left hox] at hwritten hkept
    exact ⟨hwritten, hkept⟩
  · rw [min_eq_right (by omega)] at hwritten hkept
    exact ⟨hwritten, hkept⟩

/-! The round trip (R212). -/

theorem readVarint_writeVarint_alone {v : Nat} (hv : v ≤ 16383) : readVarint (writeVarint v) = some (v, []) := by
  simpa using readVarint_writeVarint v hv []

/-- Of pairs that stand for any column at all, one is the last that does. -/
theorem exists_last_pair (fill : Byte) {pairs : List RunPair} (h : pairs.flatMap (RunPair.columns fill) ≠ []) :
    ∃ before p after, pairs = before ++ p :: after ∧ p.columns fill ≠ [] ∧
      after.flatMap (RunPair.columns fill) = [] := by
  induction pairs with
  | nil => exact absurd rfl h
  | cons p ps ih =>
    by_cases hps : ps.flatMap (RunPair.columns fill) = []
    · exact ⟨[], p, ps, rfl, by simpa [hps] using h, hps⟩
    · obtain ⟨before, q, after, rfl, hq, hafter⟩ := ih hps
      exact ⟨p :: before, q, after, rfl, hq, hafter⟩

/-- R205: a canonical pair that completes the image is read as its columns; what it leaves is its blank length and what
follows, where its explicit run is the one that completes. -/
theorem readPair_writePair_completes {fill : Byte} {total : Nat} {cols : List Byte} {p : RunPair} (ht : total ≤ 504)
    (htotal : (cols ++ p.columns fill).length = total) (tail : List Byte) :
    ∃ rest, readPair fill total cols (writePair p ++ tail) = some (cols ++ p.columns fill, rest) := by
  obtain ⟨explicit, blank⟩ := p
  simp only [RunPair.columns, List.length_append, List.length_replicate] at htotal
  have hfield := readVarint_writeVarint_alone (v := explicit.length) (by omega)
  rcases Nat.eq_zero_or_pos blank with rfl | hpos
  · refine ⟨writeVarint 0 ++ tail, ?_⟩
    simpa [writePair, RunPair.columns] using
      readPair_explicit_completes fill hfield (by omega) (writeVarint 0 ++ tail)
  · refine ⟨tail, ?_⟩
    simpa [writePair, RunPair.columns] using
      readPair_blank fill hfield (readVarint_writeVarint_alone (v := blank) (by omega)) (by omega) (by omega) tail

theorem writeImage_append (polarity w h : Nat) (pairs more : List RunPair) :
    writeImage polarity w h (pairs ++ more) = writeImage polarity w h pairs ++ more.flatMap writePair := by
  simp only [writeImage, List.flatMap_append, List.append_assoc]

/-- R212: a canonical stream whose pairs carry the whole matrix parses to it, whatever follows. -/
theorem readImage_writeImage {polarity w h : Nat} (hp : polarity ≤ 16383) (hw : w ≤ 84) (hh : h ≤ 6)
    {pairs : List RunPair} {matrix stream tail : List Byte} (hlen : matrix.length = w * h)
    (hpairs : pairs.flatMap (RunPair.columns (fillByte polarity)) = matrix)
    (hstream : stream = writeImage polarity w h pairs ++ tail) :
    ∃ rest, readImage stream.length stream = some (⟨w, h, matrix⟩, rest) := by
  by_cases hempty : matrix = []
  · subst hempty
    refine ⟨pairs.flatMap writePair ++ tail, ?_⟩
    rw [hstream, ← List.nil_append pairs, writeImage_append, List.append_assoc]
    exact readImage_empty hp hw hh hlen.symm _ _
  · rw [← hpairs] at hempty
    obtain ⟨before, p, after, rfl, hcolumns, hafter⟩ := exists_last_pair _ hempty
    have hmatrix : before.flatMap (RunPair.columns (fillByte polarity)) ++ p.columns (fillByte polarity) = matrix := by
      simpa [hafter] using hpairs
    have hout := (congrArg List.length hmatrix).trans hlen
    obtain ⟨rest, hread⟩ := readPair_writePair_completes (Nat.mul_le_mul hw hh) hout (after.flatMap writePair ++ tail)
    have hpos := List.length_pos_of_ne_nil hcolumns
    refine ⟨rest, hmatrix ▸ readImage_completes hp hw hh ?_ hread hout ?_⟩
    · rw [List.length_append] at hout
      omega
    · rw [hstream, writeImage_append, List.flatMap_cons, List.append_assoc, List.append_assoc]

/-- R212: so does one whose last explicit run completes the image, with no blank length after it. -/
theorem readImage_writeImage_literals {polarity w h : Nat} (hp : polarity ≤ 16383) (hw : w ≤ 84) (hh : h ≤ 6)
    {pairs : List RunPair} {literals matrix stream tail : List Byte} (hlen : matrix.length = w * h)
    (hpairs : pairs.flatMap (RunPair.columns (fillByte polarity)) ++ literals = matrix) (hne : literals ≠ [])
    (hstream : stream = writeImage polarity w h pairs ++ writeVarint literals.length ++ literals ++ tail) :
    readImage stream.length stream = some (⟨w, h, matrix⟩, tail) := by
  have hpos := List.length_pos_of_ne_nil hne
  have hfit : w * h ≤ 504 := Nat.mul_le_mul hw hh
  subst hpairs
  have htotal := hlen
  rw [List.length_append] at htotal
  exact readImage_completes hp hw hh (by omega)
    (readPair_explicit_completes _ (readVarint_writeVarint_alone (by omega)) htotal tail) hlen
    (by rw [hstream]; simp only [List.append_assoc])

/-- Settles O55: both forms of the stream parse to the matrix, and the image is placed as any other. -/
theorem imageRoundTrip : Obligations.ImageRoundTrip := by
  intro s polarity w h ox oy addr len dst pairs literals tail matrix fill hp hw hh hlen hfill hvalid hstream
  obtain rfl : fill = fillByte polarity := hfill
  have himg : imageAt dst addr len s = some ⟨w, h, matrix⟩ := by
    rw [imageAt_of_stream rfl]
    rcases hstream with ⟨hpairs, hbytes⟩ | ⟨hpairs, hne, hbytes⟩
    · obtain ⟨rest, hread⟩ := readImage_writeImage hp hw hh hlen hpairs hbytes
      exact congrArg (Option.map (·.1)) hread
    · exact congrArg (Option.map (·.1)) (readImage_writeImage_literals hp hw hh hlen hpairs hne hbytes)
  refine ⟨himg, ?_, ?_⟩
  · rintro rfl
    obtain ⟨t, hexec, hput, -, hframe⟩ := decodeBlitsToFb s ox oy addr len _ hvalid himg
    exact ⟨t, hexec, by rw [hframe], fun r hr c hc => (hput r hr c hc).2⟩
  · rintro daddr rfl hcanvas hwf hcalm
    obtain ⟨t, hexec, -, hput, -, hframe⟩ := decodeBlitsToHostMemory s ox oy addr len daddr _ hwf hvalid hcanvas himg
    exact ⟨t, hexec, by rw [hframe], hput hcalm⟩

end Sys2Proof.Machine

/-! Results (R231, R232, R239): which commands have a next state, and what writes and returns a result code. -/

namespace Sys2Proof.Machine

/-! What completes, and what is refused. -/

/-- R181: FLUSH in AreaDirty and in BothDirty. -/
theorem exec_flush_area {s : State} (h : s.dkind.area = true) : exec .flush s = .refused .areaFlush := by
  cases hrange : s.dkind.range <;> simp only [exec, execFlush, DirtyKind.syncState, hrange, h]

/-- R180: with the Area flag clear the sync state is Idle or RangeDirty, and FLUSH completes in both. -/
theorem exec_flush_completes {s : State} (h : s.dkind.area = false) : ∃ t, exec .flush s = .next t := by
  cases hrange : s.dkind.range with
  | false => exact ⟨_, exec_flush_idle (dirtyKind_of_range h hrange)⟩
  | true => exact ⟨_, exec_flush_dirty (dirtyKind_of_range h hrange)⟩

/-- R232, R239: every command completes, FLUSH with the Area flag set apart. -/
theorem exec_completes {i : Instr} {s : State} (h : i = .flush → s.dkind.area = false) :
    ∃ t, exec i s = .next t := by
  cases i with
  | flush => exact exec_flush_completes (h rfl)
  | clear | gotochunk | wrbyte | blitfull | wrchar | wrstr | gotochar | init | decode => exact ⟨_, rfl⟩

/-- R239: a refused command is FLUSH with the Area flag set, because any other command completes. -/
theorem exec_refused {i : Instr} {s : State} {r : Refusal} (h : exec i s = .refused r) :
    i = .flush ∧ s.dkind.area = true ∧ r = .areaFlush := by
  by_cases hcompletes : i = .flush → s.dkind.area = false
  · obtain ⟨t, ht⟩ := exec_completes hcompletes
    rw [ht] at h
    cases h
  · obtain ⟨rfl, hset⟩ := Classical.not_imp.1 hcompletes
    have harea := Bool.eq_true_of_not_eq_false hset
    rw [exec_flush_area harea] at h
    cases h
    exact ⟨rfl, harea, rfl⟩

/-- R96, R232: with the Area flag clear a descriptor completes, legal or illegal. -/
theorem issue_completes (d : Descriptor) {s : State} (h : s.dkind.area = false) : ∃ t, issue d s = .next t := by
  cases hd : decode d with
  | ok i =>
    rw [issue_ok hd]
    exact exec_completes fun _ => h
  | error r => exact ⟨_, issue_error hd s⟩

theorem runCommand_completes (d : Descriptor) {s : State} (h : s.dkind.area = false) :
    ∃ t, runCommand d s = .next t := by
  obtain ⟨t, ht⟩ := issue_completes d h
  exact ⟨settleRaces t, by rw [runCommand_eq_settleOutcome, ht, settleOutcome]⟩

/-- R232, R270: with the Area flag clear every event has a next state, because a command has. -/
theorem runEvent_completes (e : HostEvent) {s : State} (h : s.dkind.area = false) : ∃ t, runEvent e s = .next t := by
  cases e with
  | command d => exact runCommand_completes d h
  | read | write | store | race | reset | resetDuring => exact ⟨_, rfl⟩

/-- Settles O17: the invariant keeps the Area flag clear (R26), and taking the event from the port does not set it. -/
theorem stepAlwaysCompletes : Obligations.StepAlwaysCompletes := by
  intro s h
  cases hport : s.port with
  | nil => exact ⟨s, step_idle hport⟩
  | cons e rest =>
    rw [step_event hport]
    exact runEvent_completes e (s := { s with port := rest }) h.area_zero

/-- Settles O18. There is no fault for a command to end in. -/
theorem theOneRefusalIsFlushInArea : Obligations.TheOneRefusalIsFlushInArea :=
  ⟨fun _ => exec_flush_area, fun _ _ _ => exec_refused, fun _ _ f => nomatch f⟩

/-! What writes a result, and what returns one. -/

/-- R231: one code is returned, and `RESULT` holds it. -/
def ReturnsResult (s t : State) : Prop := t.returned = s.returned ++ [t.result]

/-- R96, R231: an illegal descriptor reports as a command does. -/
theorem issue_returnsResult {d : Descriptor} {s t : State} (h : issue d s = .next t) : ReturnsResult s t := by
  cases hd : decode d with
  | ok i =>
    rw [issue_ok hd] at h
    exact (exec_next h).2
  | error r =>
    rw [issue_error hd] at h
    cases h
    exact finish_returned .illegalCommand s

/-- R72, R231: the races that settle after the report do not touch it. -/
theorem runCommand_returnsResult {d : Descriptor} {s t : State} (h : runCommand d s = .next t) :
    ReturnsResult s t := by
  rw [runCommand_eq_settleOutcome] at h
  obtain ⟨u, hissue, rfl⟩ := settleOutcome_next h
  rw [ReturnsResult, settleRaces_returned, settleRaces_result]
  exact issue_returnsResult hissue

theorem hostStore_result (a : Word) (v : Byte) (s : State) : (hostStore a v s).result = s.result := by
  rw [hostStore_frame]

theorem hostStore_returned (a : Word) (v : Byte) (s : State) : (hostStore a v s).returned = s.returned := by
  rw [hostStore_frame]

theorem runAbandoned_returned (i : Instr) (k : Nat) (s : State) : (runAbandoned i k s).returned = s.returned := by
  rw [runAbandoned_frame]

theorem resetDuring_result (d : Descriptor) (k : Nat) (s : State) : (resetDuring d k s).result = .ok := by
  unfold resetDuring
  split <;> exact resetCore_result _

/-- R260: a command that a reset abandons returns nothing. -/
theorem resetDuring_returned (d : Descriptor) (k : Nat) (s : State) :
    (resetDuring d k s).returned = s.returned := by
  unfold resetDuring
  split
  · next i _ => rw [resetCore_returned, settleRaces_returned, runAbandoned_returned]
  · rw [resetCore_returned, settleRaces_returned]

/-- R260: the events that bring the reset input. -/
def IsReset (e : HostEvent) : Prop := e = .reset ∨ ∃ d k, e = .resetDuring d k

/-- R31, R63, R72, R260: an event that is no descriptor returns nothing, and only a reset writes `RESULT`. -/
theorem runEvent_noCommand {e : HostEvent} {s t : State} (he : ∀ d, e ≠ .command d) (h : runEvent e s = .next t) :
    t.returned = s.returned ∧ (t.result = s.result ∨ t.result = .ok ∧ IsReset e) := by
  cases e with
  | command d => exact absurd rfl (he d)
  | read offset => cases h; exact ⟨readPort_returned offset s, .inl (readPort_result offset s)⟩
  | write offset value => cases h; exact ⟨rfl, .inl rfl⟩
  | store a v => cases h; exact ⟨hostStore_returned a v s, .inl (hostStore_result a v s)⟩
  | race addrs => cases h; exact ⟨startRaces_returned addrs s, .inl (startRaces_result addrs s)⟩
  | reset =>
    obtain rfl := Host.Outcome.next.inj h
    exact ⟨resetCore_returned s, .inr ⟨resetCore_result s, .inl rfl⟩⟩
  | resetDuring d k =>
    cases h
    exact ⟨resetDuring_returned d k s, .inr ⟨resetDuring_result d k s, .inr ⟨d, k, rfl⟩⟩⟩

/-- R231, R260: a step that takes no descriptor is idle or one of those events. -/
theorem step_noCommand {s t : State} (hno : ∀ d rest, s.port ≠ .command d :: rest) (h : step s = .next t) :
    t.returned = s.returned ∧
      (t.result = s.result ∨ t.result = .ok ∧ ∃ e rest, s.port = e :: rest ∧ IsReset e) := by
  cases hport : s.port with
  | nil =>
    rw [step_idle hport] at h
    cases h
    exact ⟨rfl, .inl rfl⟩
  | cons e rest =>
    rw [step_event hport] at h
    have he : ∀ d, e ≠ .command d := fun d hd => hno d rest (hd ▸ hport)
    obtain ⟨hreturned, hresult⟩ := runEvent_noCommand he h
    exact ⟨hreturned, hresult.imp_right fun ⟨hok, hreset⟩ => ⟨hok, e, rest, rfl, hreset⟩⟩

/-- Settles O19: a step with a descriptor reports it; of the others a reset alone writes `RESULT`, and `OK` is 0. -/
theorem everyCommandReturnsItsResult : Obligations.EveryCommandReturnsItsResult := by
  refine ⟨fun s t d rest hport ht => ?_, fun s t hno ht => ?_, rfl⟩
  · rw [step_command hport] at ht
    exact runCommand_returnsResult (s := { s with port := rest }) ht
  · obtain ⟨hreturned, hresult⟩ := step_noCommand hno ht
    refine ⟨hreturned, hresult.imp_right fun ⟨hok, e, rest, hport, hreset⟩ => ⟨by rw [hok]; rfl, ?_⟩⟩
    rcases hreset with rfl | ⟨d, k, rfl⟩
    · exact .inl ⟨rest, hport⟩
    · exact .inr ⟨d, k, rest, hport⟩

end Sys2Proof.Machine

/-! Reset (R40, R41, R260, R261) and the hazards of R262 to R264: what is left of a command that a reset abandons, and
the sequences of commands the spec warns of. -/

namespace Sys2Proof.Machine

/-! The reset input between commands. -/

/-- R40: each pixel byte after a reset is a free value of its own. -/
theorem drawnFb_getElem (n : Nat) {i : Nat} (h : i < 504) : (drawnFb n)[i] = Config.resetFb n i := by
  simp [drawnFb]

/-- Settles O13: the registers and the pixels are all that the reset writes. -/
theorem resetTouchesOnlyFbcore : Obligations.ResetTouchesOnlyFbcore := fun s _ hport =>
  ⟨_, step_event hport, rfl, fun _ => drawnFb_getElem s.draws⟩

/-! Transactions cut off by a reset (R183, R184, U17). -/

/-- The first `k` transactions, all answered `OK`. -/
theorem sendAll_take_ok {ts : List Transaction} {s : State} {k : Nat}
    (h : ∀ j < min k ts.length, answerAt s j = .ok) :
    (sendAll (ts.take k) s).2.trace = s.trace ++ (ts.take k).map (fun x => ⟨x, .ok⟩) := by
  rw [sendAll_ok (ts.take k) s (by rwa [List.length_take])]

/-- A `FAIL` among the first `k` transactions stops them before the reset does. -/
theorem sendAll_take_fail {ts : List Transaction} {s : State} {k n : Nat} {x : Transaction} (hn : n < k)
    (hx : ts[n]? = some x) (hbefore : ∀ j < n, answerAt s j = .ok) (hfail : answerAt s n = .fail) :
    (sendAll (ts.take k) s).2.trace = s.trace ++ (ts.take n).map (fun y => ⟨y, .ok⟩) ++ [⟨x, .fail⟩] := by
  have hx' : (ts.take k)[n]? = some x := by rw [List.getElem?_take_of_lt hn, hx]
  rw [sendAll_fail (ts.take k) s n x hx' hbefore hfail, List.take_take, Nat.min_eq_left hn.le]

/-! What each abandoned command has done (R260). -/

theorem runAbandoned_flush_idle {s : State} (k : Nat) (h : s.dkind = ⟨false, false⟩) : runAbandoned .flush k s = s := by
  simp only [runAbandoned, h, DirtyKind.syncState]

theorem runAbandoned_flush_dirty {s : State} (k : Nat) (h : s.dkind = ⟨true, false⟩) :
    runAbandoned .flush k s = (sendAll ((flushTransactions s).take k) s).2 := by
  simp only [runAbandoned, h, DirtyKind.syncState]

theorem runAbandoned_flush_ok {s : State} {k : Nat} (hdirty : s.dkind = ⟨true, false⟩)
    (hok : ∀ j < min k 3, answerAt s j = .ok) :
    (runAbandoned .flush k s).trace = s.trace ++ ((flushTransactions s).take k).map (fun x => ⟨x, .ok⟩) := by
  rw [runAbandoned_flush_dirty k hdirty, sendAll_take_ok hok]

/-- R183: a FLUSH that the reset finds stopped. -/
theorem runAbandoned_flush_fail {s : State} {k n : Nat} {x : Transaction} (hdirty : s.dkind = ⟨true, false⟩)
    (hn : n < k) (hx : (flushTransactions s)[n]? = some x) (hbefore : ∀ j < n, answerAt s j = .ok)
    (hfail : answerAt s n = .fail) :
    (runAbandoned .flush k s).trace =
      s.trace ++ ((flushTransactions s).take n).map (fun y => ⟨y, .ok⟩) ++ [⟨x, .fail⟩] := by
  rw [runAbandoned_flush_dirty k hdirty, sendAll_take_fail hn hx hbefore hfail]

/-- R184: the first `k` bytes of the sequence, as transactions answered `OK`. -/
theorem initTransactions_take_map (c k : Nat) :
    ((initTransactions c).take k).map (fun x => (⟨x, .ok⟩ : Exchange)) =
      ((Config.initCmds (min c 127)).take k).map (fun b => ⟨.cmd b, .ok⟩) := by
  rw [initTransactions, ← List.map_take, List.map_map]
  rfl

theorem runAbandoned_init_ok {s : State} {c k : Nat}
    (h : ∀ j < min k (Config.initCmds (min c 127)).length, answerAt s j = .ok) :
    (runAbandoned (.init c) k s).trace =
      s.trace ++ ((Config.initCmds (min c 127)).take k).map (fun b => ⟨.cmd b, .ok⟩) := by
  rw [runAbandoned, sendAll_take_ok (by rwa [initTransactions_length]), initTransactions_take_map]

/-- R184: an INIT that the reset finds stopped. -/
theorem runAbandoned_init_fail {s : State} {c k n : Nat} {b : Byte} (hn : n < k)
    (hb : (Config.initCmds (min c 127))[n]? = some b) (hbefore : ∀ j < n, answerAt s j = .ok)
    (hfail : answerAt s n = .fail) :
    (runAbandoned (.init c) k s).trace =
      s.trace ++ ((Config.initCmds (min c 127)).take n).map (fun b => ⟨.cmd b, .ok⟩) ++ [⟨.cmd b, .fail⟩] := by
  have hx : (initTransactions c)[n]? = some (.cmd b) := by rw [initTransactions_getElem?, hb, Option.map_some]
  rw [runAbandoned, sendAll_take_fail hn hx hbefore hfail, initTransactions_take_map]

/-- R184: a sequence with no byte at `n`, all of whose bytes are answered `OK`, is sent whole. -/
theorem runAbandoned_init_short {s : State} {c k n : Nat} (hn : n < k)
    (hshort : (Config.initCmds (min c 127))[n]? = none) (hbefore : ∀ j < n, answerAt s j = .ok) :
    (runAbandoned (.init c) k s).trace =
      s.trace ++ ((Config.initCmds (min c 127)).take n).map (fun b => ⟨.cmd b, .ok⟩) := by
  have hlen : (Config.initCmds (min c 127)).length ≤ n := List.getElem?_eq_none_iff.1 hshort
  rw [runAbandoned_init_ok fun j hj => hbefore j (by omega), List.take_of_length_le (by omega),
    List.take_of_length_le hlen]

/-- R200, R201, R209: an abandoned DECODE has done nothing outside FBCORE, or has made the first `k` of an image's
writes to the external canvas. -/
theorem runAbandoned_decode_cases (ox oy : Nat) (dst : Dest) (addr len k : Nat) (s : State) :
    runAbandoned (.decode ox oy dst addr len) k s = s ∨
      ∃ daddr img, dst = .mem daddr ∧ decodeRangesValid dst addr len s = true ∧ imageAt dst addr len s = some img ∧
        runAbandoned (.decode ox oy dst addr len) k s =
          blit (decodeRanges dst addr len) dst ((blitWrites img ox oy).take k) s := by
  cases dst with
  | fb => exact .inl rfl
  | mem daddr =>
    simp only [runAbandoned]
    split
    · next hvalid =>
      split
      · next img himg => exact .inr ⟨daddr, img, rfl, hvalid, himg, rfl⟩
      · exact .inl rfl
    · exact .inl rfl

/-- R207, R260: with no other agent writing, the first `k` writes of the image are in host memory. -/
theorem runAbandoned_decode_image {ox oy addr len daddr : Nat} {s : State} {img : Image} (k : Nat)
    (hcalm : s.races = []) (hstream : validRange s addr len = true) (hcanvas : validRange s daddr 504 = true)
    (himg : imageAt (.mem daddr) addr len s = some img) :
    (runAbandoned (.decode ox oy (.mem daddr) addr len) k s).hostMem =
      ((blitWrites img ox oy).take k).foldl (fun m w => memWrite m (daddr + w.1) w.2) s.hostMem := by
  simp only [runAbandoned, decodeRangesValid_mem_iff.2 ⟨hstream, hcanvas⟩, himg, if_true, blit,
    leftWrites_calm hcalm]

/-- R201, R209: a DECODE that would have ended with an error writes nothing. -/
theorem runAbandoned_decode_error {ox oy addr len daddr : Nat} {s : State} (k : Nat)
    (h : validRange s addr len = false ∨ validRange s daddr 504 = false ∨ imageAt (.mem daddr) addr len s = none) :
    runAbandoned (.decode ox oy (.mem daddr) addr len) k s = s := by
  rcases runAbandoned_decode_cases ox oy (.mem daddr) addr len k s with hnone | ⟨_, _, -, hvalid, himg, -⟩
  · exact hnone
  · obtain ⟨hstream, hcanvas⟩ := decodeRangesValid_mem_iff.1 hvalid
    simp [hstream, hcanvas, himg] at h

/-- R110: only FLUSH and INIT have issued transactions. -/
theorem runAbandoned_sameTrace {i : Instr} (k : Nat) (s : State) (hinit : ∀ c, i ≠ .init c) (hflush : i ≠ .flush) :
    (runAbandoned i k s).trace = s.trace := by
  cases i with
  | clear | gotochunk | wrbyte | blitfull | wrchar | wrstr | gotochar => rfl
  | flush => exact absurd rfl hflush
  | init c => exact absurd rfl (hinit c)
  | decode ox oy dst addr len =>
    rcases runAbandoned_decode_cases ox oy dst addr len k s with hnone | ⟨daddr, img, rfl, -, -, hblit⟩
    · rw [hnone]
    · rw [hblit, blit]

/-- R63: only a DECODE to host memory has written there. -/
theorem runAbandoned_sameHostMem {i : Instr} (k : Nat) (s : State)
    (hdecode : ∀ ox oy daddr addr len, i ≠ .decode ox oy (.mem daddr) addr len) :
    (runAbandoned i k s).hostMem = s.hostMem := by
  cases i with
  | clear | gotochunk | wrbyte | blitfull | wrchar | wrstr | gotochar => rfl
  | flush =>
    simp only [runAbandoned]
    split
    · exact (sendAll_sentFrom _ s).1
    all_goals rfl
  | init c => exact (sendAll_sentFrom _ s).1
  | decode ox oy dst addr len =>
    rcases runAbandoned_decode_cases ox oy dst addr len k s with hnone | ⟨daddr, img, rfl, -, -, -⟩
    · rw [hnone]
    · exact absurd rfl (hdecode ox oy daddr addr len)

/-- R63, R207: every host byte outside the canvas is as it was. -/
theorem runAbandoned_outsideCanvas {i : Instr} (k : Nat) {s : State} (hwf : Memory.wf s.hostMem) {a : Nat}
    (ha : ∀ ox oy daddr addr len, i = .decode ox oy (.mem daddr) addr len → a < daddr ∨ daddr + 504 ≤ a) :
    memRead (runAbandoned i k s).hostMem a = memRead s.hostMem a := by
  by_cases hdecode : ∃ ox oy daddr addr len, i = .decode ox oy (.mem daddr) addr len
  · obtain ⟨ox, oy, daddr, addr, len, rfl⟩ := hdecode
    rcases runAbandoned_decode_cases ox oy (.mem daddr) addr len k s with hnone | ⟨_, img, -, hvalid, himg, hblit⟩
    · rw [hnone]
    · rw [hblit]
      exact memRead_blit_outside _ hwf (decodeRangesValid_mem_iff.1 hvalid).2
        (fun w hw => blitWrites_lt_of_imageAt himg ox oy w (List.mem_of_mem_take hw)) (ha _ _ _ _ _ rfl)
  · push Not at hdecode
    rw [runAbandoned_sameHostMem k s hdecode]

/-! What a descriptor that a reset abandons has done, legal or not. -/

/-- R260, R96: the state before the races settle and the reset sets the registers. -/
def abandon (d : Descriptor) (k : Nat) (s : State) : State :=
  match decode d with
  | .ok i => runAbandoned i k s
  | .error _ => s

theorem abandon_ok {d : Descriptor} {i : Instr} (h : decode d = .ok i) (k : Nat) (s : State) :
    abandon d k s = runAbandoned i k s := by
  simp only [abandon, h]

theorem abandon_error {d : Descriptor} {r : Reject} (h : decode d = .error r) (k : Nat) (s : State) :
    abandon d k s = s := by
  simp only [abandon, h]

theorem resetDuring_eq (d : Descriptor) (k : Nat) (s : State) :
    resetDuring d k s = resetCore (settleRaces (abandon d k s)) := by
  cases h : decode d with
  | ok i => rw [abandon_ok h]; simp only [resetDuring, h]
  | error r => rw [abandon_error h]; simp only [resetDuring, h]

/-- A property of what every command leaves, and of the state an illegal descriptor leaves alone, holds of every
descriptor. -/
theorem abandon_cases {P : State → Prop} {d : Descriptor} {k : Nat} {s : State} (hs : P s)
    (hrun : ∀ i, decode d = .ok i → P (runAbandoned i k s)) : P (abandon d k s) := by
  cases h : decode d with
  | ok i => rw [abandon_ok h]; exact hrun i h
  | error r => rw [abandon_error h]; exact hs

/-- R260: what stands outside FBCORE, but for host memory and the transport, is as it was, and so are the codes
returned; each transaction took an answer of the supply. -/
theorem abandon_frame (d : Descriptor) (k : Nat) (s : State) :
    SameOutside s (abandon d k s) ∧ (abandon d k s).returned = s.returned ∧
      (abandon d k s).answers = s.answers.drop ((abandon d k s).trace.length - s.trace.length) := by
  refine abandon_cases (P := fun t => SameOutside s t ∧ t.returned = s.returned ∧
    t.answers = s.answers.drop (t.trace.length - s.trace.length)) ⟨SameOutside.refl s, rfl, by simp⟩
    fun i _ => ⟨?_, runAbandoned_returned i k s, ?_⟩
  · rw [runAbandoned_frame]
    exact SameOutside.refl s
  · rw [runAbandoned_frame]

theorem abandon_wf (d : Descriptor) (k : Nat) {s : State} (h : s.Inv) : Memory.wf (abandon d k s).hostMem :=
  abandon_cases (P := fun t => Memory.wf t.hostMem) h.hostMem_wf fun i _ => runAbandoned_wf i k h

theorem abandon_sameTrace {d : Descriptor} (k : Nat) (s : State) (hinit : ∀ c, decode d ≠ .ok (.init c))
    (hflush : decode d ≠ .ok .flush) : (abandon d k s).trace = s.trace :=
  abandon_cases (P := fun t => t.trace = s.trace) rfl fun _ hi =>
    runAbandoned_sameTrace k s (fun c hc => hinit c (hc ▸ hi)) fun hf => hflush (hf ▸ hi)

theorem abandon_sameHostMem {d : Descriptor} (k : Nat) (s : State)
    (hdecode : ∀ ox oy daddr addr len, decode d ≠ .ok (.decode ox oy (.mem daddr) addr len)) :
    (abandon d k s).hostMem = s.hostMem :=
  abandon_cases (P := fun t => t.hostMem = s.hostMem) rfl fun _ hi =>
    runAbandoned_sameHostMem k s fun ox oy daddr addr len he => hdecode ox oy daddr addr len (he ▸ hi)

theorem abandon_outsideCanvas {d : Descriptor} (k : Nat) {s : State} (hwf : Memory.wf s.hostMem) {a : Nat}
    (ha : ∀ ox oy daddr addr len, decode d = .ok (.decode ox oy (.mem daddr) addr len) → a < daddr ∨ daddr + 504 ≤ a) :
    memRead (abandon d k s).hostMem a = memRead s.hostMem a :=
  abandon_cases (P := fun t => memRead t.hostMem a = memRead s.hostMem a) rfl fun _ hi =>
    runAbandoned_outsideCanvas k hwf fun ox oy daddr addr len he => ha ox oy daddr addr len (he ▸ hi)

/-! The reset that follows. -/

/-- R260, R261: the reset values, and of what the command did the trace, the answers taken and host memory. -/
theorem resetDuring_frame (d : Descriptor) (k : Nat) (s : State) :
    resetDuring d k s =
      { s with
        fb := (resetDuring d k s).fb, cursor := 0, dstart := 0, dend := 0, dkind := ⟨false, false⟩, result := .ok,
        contrast := 0, hostMem := (resetDuring d k s).hostMem, trace := (resetDuring d k s).trace, races := [],
        answers := s.answers.drop ((resetDuring d k s).trace.length - s.trace.length),
        draws := s.draws + if s.races = [] then 1 else 2 } := by
  obtain ⟨⟨hport, hraces, hglyph, hmap, hdraws, hread⟩, hreturned, hanswers⟩ := abandon_frame d k s
  have hcount : s.draws + (if s.races = [] then 0 else 1) + 1 = s.draws + if s.races = [] then 1 else 2 := by
    split <;> rfl
  rw [resetDuring_eq]
  simp only [resetCore, settleRaces_glyph, settleRaces_hostMem, settleRaces_hostMap, settleRaces_port,
    settleRaces_answers, settleRaces_races, settleRaces_draws, settleRaces_trace, settleRaces_returned,
    settleRaces_readLog, hport, hraces, hglyph, hmap, hdraws, hread, hreturned, hanswers, hcount]

/-- R40: the free bytes are those of the last draw. -/
theorem resetDuring_fb_getElem (d : Descriptor) (k : Nat) (s : State) {i : Nat} (h : i < 504) :
    (resetDuring d k s).fb[i] = Config.resetFb ((resetDuring d k s).draws - 1) i := by
  simp only [resetDuring_eq, resetCore_fb, resetCore_draws, Nat.add_sub_cancel, drawnFb_getElem _ h]

theorem resetDuring_trace (d : Descriptor) (k : Nat) (s : State) :
    (resetDuring d k s).trace = (abandon d k s).trace := by
  rw [resetDuring_eq, resetCore_trace, settleRaces_trace]

theorem resetDuring_trace_ok {d : Descriptor} {i : Instr} (h : decode d = .ok i) (k : Nat) (s : State) :
    (resetDuring d k s).trace = (runAbandoned i k s).trace := by
  rw [resetDuring_trace, abandon_ok h]

theorem resetDuring_hostMem (d : Descriptor) (k : Nat) (s : State) :
    (resetDuring d k s).hostMem = (settleRaces (abandon d k s)).hostMem := by
  rw [resetDuring_eq, resetCore_hostMem]

theorem resetDuring_hostMem_calm (d : Descriptor) (k : Nat) {s : State} (h : s.races = []) :
    (resetDuring d k s).hostMem = (abandon d k s).hostMem := by
  obtain ⟨⟨-, hraces, -⟩, -⟩ := abandon_frame d k s
  rw [resetDuring_hostMem, settleRaces_none (hraces.trans h)]

theorem resetDuring_hostMem_ok {d : Descriptor} {i : Instr} (h : decode d = .ok i) (k : Nat) {s : State}
    (hcalm : s.races = []) : (resetDuring d k s).hostMem = (runAbandoned i k s).hostMem := by
  rw [resetDuring_hostMem_calm d k hcalm, abandon_ok h]

/-- R72: a backed byte another agent wrote is a free value. -/
theorem memRead_resetDuring_raced (d : Descriptor) (k : Nat) {s : State} (h : s.Inv) {a : Nat} (ha : a ∈ s.races)
    (hvalid : hostValid s a = true) : memRead (resetDuring d k s).hostMem a = Config.racedLeft s.draws a := by
  obtain ⟨⟨-, hraces, -, hmap, hdraws, -⟩, -⟩ := abandon_frame d k s
  rw [resetDuring_hostMem, memRead_settleRaces_raced (abandon_wf d k h) (hraces ▸ ha)
    ((hostValid_congr hmap a).trans hvalid), hdraws]

/-- R63, R72: a byte outside the canvas that no other agent wrote is as it was. -/
theorem memRead_resetDuring_other {d : Descriptor} (k : Nat) {s : State} (h : s.Inv) {a : Nat} (ha : a ∉ s.races)
    (hcanvas : ∀ ox oy daddr addr len, decode d = .ok (.decode ox oy (.mem daddr) addr len) →
      a < daddr ∨ daddr + 504 ≤ a) :
    memRead (resetDuring d k s).hostMem a = memRead s.hostMem a := by
  obtain ⟨⟨-, hraces, -⟩, -⟩ := abandon_frame d k s
  rw [resetDuring_hostMem, memRead_settleRaces_other (abandon_wf d k h) (hraces ▸ ha),
    abandon_outsideCanvas k h.hostMem_wf hcanvas]

/-! The bytes a command reads do not depend on what the Host will do next (R33, R75). -/

theorem readBytes_withPort (named : List HostRegion) (s : State) (port : List HostEvent) (a n : Nat) :
    readBytes named { s with port := port } a n = readBytes named s a n := by
  induction n generalizing a with
  | zero => rfl
  | succ n ih =>
    rw [readBytes, readBytes, ih]
    rfl

theorem imageAt_withPort (dst : Dest) (addr len : Nat) (s : State) (port : List HostEvent) :
    imageAt dst addr len { s with port := port } = imageAt dst addr len s := by
  rw [imageAt, imageAt, readBytes_withPort]

/-- Settles O14: what the abandoned command did, command by command, and then the races and the reset. -/
theorem resetDuringCommandKeepsAPrefix : Obligations.ResetDuringCommandKeepsAPrefix := by
  intro s d k rest hport
  refine ⟨_, step_event hport, resetDuring_frame d k { s with port := rest },
    fun _ => resetDuring_fb_getElem d k { s with port := rest }, fun hd hidle => ?_, fun hd hdirty hok => ?_,
    fun n x hd hdirty hn hx hbefore hfail => ?_, fun c hd hok => ?_, fun c n hd hn hbefore hfail => ?_,
    fun hinit hflush => ?_, fun ox oy daddr addr len img hd hcalm hstream hcanvas himg => ?_,
    fun ox oy daddr addr len hd hcalm herror => ?_, fun hcalm hdecode => ?_, fun hinv => ?_⟩
  · rw [resetDuring_trace_ok hd, runAbandoned_flush_idle (s := { s with port := rest }) k hidle]
  · rw [resetDuring_trace_ok hd]
    exact runAbandoned_flush_ok hdirty hok
  · rw [resetDuring_trace_ok hd]
    exact runAbandoned_flush_fail hdirty hn hx hbefore hfail
  · rw [resetDuring_trace_ok hd]
    exact runAbandoned_init_ok hok
  · rw [resetDuring_trace_ok hd]
    cases hb : (Config.initCmds (min c 127))[n]? with
    | some b => exact runAbandoned_init_fail hn hb hbefore hfail
    | none =>
      rw [List.append_nil]
      exact runAbandoned_init_short hn hb hbefore
  · rw [resetDuring_trace]
    exact abandon_sameTrace k { s with port := rest } hinit hflush
  · rw [resetDuring_hostMem_ok (s := { s with port := rest }) hd k hcalm]
    exact runAbandoned_decode_image k hcalm hstream hcanvas ((imageAt_withPort _ _ _ s rest).trans himg)
  · rw [resetDuring_hostMem_ok (s := { s with port := rest }) hd k hcalm]
    rw [← imageAt_withPort _ _ _ s rest] at herror
    rw [runAbandoned_decode_error (s := { s with port := rest }) k herror]
  · rw [resetDuring_hostMem_calm (s := { s with port := rest }) d k hcalm]
    exact abandon_sameHostMem k { s with port := rest } hdecode
  · have hinv' : ({ s with port := rest } : State).Inv := { hinv with }
    exact ⟨fun a ha hvalid => memRead_resetDuring_raced d k hinv' ha hvalid,
      fun a ha hcanvas => memRead_resetDuring_other k hinv' ha hcanvas⟩

/-! The boot sequence (R262). -/

/-- R11: after `n` transactions the next answers are those that come `n` later. -/
theorem answerAt_of_sent {s t : State} {n : Nat} (htrace : t.trace.length = s.trace.length + n)
    (hanswers : t.answers = s.answers.drop n) (k : Nat) : answerAt t k = answerAt s (n + k) := by
  simp only [answerAt, hanswers, htrace, List.getElem?_drop, Nat.add_assoc]

/-- R132, R180, R182: a FLUSH of the whole buffer where every pixel byte is 0 and every answer `OK`. -/
theorem exec_flush_blank {s : State} (hfb : ∀ (i : Nat) (h : i < 504), s.fb[i] = 0x00) (hdstart : s.dstart.toNat = 0)
    (hdend : s.dend.toNat = 504) (hdirty : s.dkind = ⟨true, false⟩) (hok : ∀ k < 3, answerAt s k = .ok) :
    ∃ t, exec .flush s = .next t ∧ t.dstart.toNat = 0 ∧ t.dend.toNat = 0 ∧
      t = { s with
        dstart := t.dstart, dend := t.dend, dkind := ⟨false, false⟩, result := .ok,
        returned := s.returned ++ [.ok], answers := s.answers.drop 3,
        trace := s.trace ++
          [⟨.cmd (Config.cmdSetX 0), .ok⟩, ⟨.cmd (Config.cmdSetY 0), .ok⟩,
            ⟨.data (List.replicate 504 0x00), .ok⟩] } := by
  obtain ⟨-, hsends⟩ := flushSendsTheRange s
  obtain ⟨t, bs, hflush, htrace, hlen, hbytes, hdstart', hdend', ht⟩ := hsends hdirty hdend.le hok
  rw [hdstart, hdend, Nat.sub_zero] at hlen hbytes
  have hburst : bs = List.replicate 504 0x00 := by
    refine List.eq_replicate_iff.2 ⟨hlen, fun b hb => ?_⟩
    obtain ⟨k, hk, rfl⟩ := List.getElem_of_mem hb
    have hbyte := hbytes k (by omega)
    rw [List.getElem?_eq_getElem hk, Vector.getElem?_eq_getElem (by omega), hfb] at hbyte
    exact Option.some.inj hbyte
  rw [hdstart, Nat.zero_mod, Nat.zero_div, hburst] at htrace
  rw [hdend, Nat.mod_self] at hdstart' hdend'
  exact ⟨t, hflush, hdstart', hdend', htrace ▸ ht⟩

/-- Settles O43: INIT leaves FLUSH the answers it did not take, and CLEAR leaves it 504 zero bytes to send. -/
theorem bootSequence : Obligations.BootSequence := by
  intro s c harea hok
  obtain ⟨t, hinit, hcontrast, ht⟩ := initSendsAndRecordsContrast s c fun k hk => hok k (by omega)
  obtain ⟨u, hclear, hfb, hcursor, hdstart, hdend, hrange, hu_ok, hu⟩ := clearZeroesAndMarksAll t
  have hanswers : ∀ k < 3, answerAt u k = .ok := fun k hk => by
    rw [answerAt_of_sent (s := s) (by rw [hu, ht, List.length_append, List.length_map]) (by rw [hu, ht])]
    exact hok _ (by omega)
  obtain ⟨v, hflush, hdstart', hdend', hv⟩ :=
    exec_flush_blank hfb hdstart hdend (dirtyKind_of_range (by rw [hu, ht]; exact harea) hrange) hanswers
  refine ⟨t, u, v, hinit, hclear, hflush, by rw [ht], hu_ok, by rw [hv], hdstart', hdend', by rw [hv],
    by rw [hv]; exact hcursor, by rw [hv, hu]; exact hcontrast, ?_⟩
  rw [← List.append_assoc, hv, hu, ht]

/-! The hazards (R263, R264). -/

/-- R21, R133: GOTOCHUNK to the chunk of an index is a goto to that index. -/
theorem exec_gotochunk_index (s : State) {pos : Nat} (h : pos ≤ 503) :
    exec (.gotochunk (pos % 84) (pos / 84)) s = .next (finish .ok (trackGoto pos s)) := by
  rw [exec, execGotochunk_inRange s (by omega) (by omega), Nat.mod_add_div]

/-- R130, C2: a goto takes the high bound to its position at most, so index 503 stays outside the range. -/
theorem execGotochunk_dend_le {x y : Nat} {s t : State} (h : execGotochunk x y s = .next t)
    (hs : s.dend.toNat ≤ 503) : t.dend.toNat ≤ 503 := by
  rcases execGotochunk_cases h with ⟨pos, hpos, rfl⟩ | rfl
  · rw [finish_dend, trackGoto_dend_toNat s hpos]
    omega
  · exact hs

/-- Settles O34: two gotos in a row, each by what it does to the tracker. -/
theorem twoGotosMarkTheBytesBetween : Obligations.TwoGotosMarkTheBytesBetween := by
  refine ⟨fun s p q hpq hq => ?_, fun i s t h hi hs => ?_⟩
  · have hp : p ≤ 503 := by omega
    obtain ⟨-, hdstart, hdend⟩ := trackGoto_wentTo s hp
    obtain ⟨hcursor, hdstart', hdend'⟩ := trackGoto_wentTo (finish .ok (trackGoto p s)) hq
    rw [finish_dstart, hdstart] at hdstart'
    rw [finish_dend, hdend] at hdend'
    refine ⟨_, _, exec_gotochunk_index s hp, exec_gotochunk_index _ hq, ?_, ?_, rfl, hcursor, rfl, ?_, ?_⟩ <;>
      simp only [finish_dstart, finish_dend] <;> omega
  · rcases hi with ⟨x, y, rfl⟩ | ⟨x, y, rfl⟩
    · exact execGotochunk_dend_le h hs
    · rw [exec, execGotochar_eq] at h
      exact execGotochunk_dend_le h hs

/-- R182: a FLUSH of an empty range sends its burst all the same, and the burst is empty. -/
theorem exec_flush_empty {s : State} (hempty : s.dstart = s.dend) (hdend : s.dend.toNat ≤ 504)
    (hdirty : s.dkind = ⟨true, false⟩) (hok : ∀ k < 3, answerAt s k = .ok) :
    ∃ t, exec .flush s = .next t ∧ t.dkind.range = false ∧
      t.trace = s.trace ++
        [⟨.cmd (Config.cmdSetX (s.dstart.toNat % 84)), .ok⟩, ⟨.cmd (Config.cmdSetY (s.dstart.toNat / 84)), .ok⟩,
          ⟨.data [], .ok⟩] := by
  obtain ⟨-, hsends⟩ := flushSendsTheRange s
  obtain ⟨t, bs, hflush, htrace, hlen, -, -, -, ht⟩ := hsends hdirty hdend hok
  rw [hempty, Nat.sub_self, List.length_eq_zero_iff] at hlen
  exact ⟨t, hflush, by rw [ht], hlen ▸ htrace⟩

/-- Settles O44: WRBYTE sets the Range flag but moves neither bound, so the FLUSH has an empty range to send. -/
theorem writeBelowTheRangeIsNotSent : Obligations.WriteBelowTheRangeIsNotSent := by
  intro s v hinv hbelow hempty hok
  have hdstart_le := hinv.dstart_le
  obtain ⟨hwrite, -⟩ := wrbyteStoresOrReports s v
  obtain ⟨t, hexec, hstored, -, -, hdend, ht⟩ := hwrite (by omega)
  rw [hempty] at hbelow
  have hkept : t.dend = s.dend := reg_ext (by omega)
  have hdstart : t.dstart = s.dstart := by rw [ht]
  obtain ⟨u, hflush, hidle, htrace⟩ := exec_flush_empty (s := t) (by rw [hdstart, hkept, hempty])
    (by rw [hkept, ← hempty]; omega) (by rw [ht]; exact dirtyKind_of_range hinv.area_zero rfl) (by rw [ht]; exact hok)
  exact ⟨t, u, hexec, hflush, Vector.getElem?_eq_some_iff.2 ⟨_, hstored⟩, by rw [htrace, hdstart, ht], hidle⟩

end Sys2Proof.Machine

/-! The TextRenderer commands (R160 to R166): the cell a character leaves in the pixels, WRSTR on every valid range, and
the goto by cells. -/

namespace Sys2Proof.Machine

/-! One character. -/

theorem glyphValid_iff (code : Nat) : glyphValid code = true ↔ 32 ≤ code ∧ code ≤ 126 := by
  simp [glyphValid]

theorem glyphValid_eq_false_iff (code : Nat) : glyphValid code = false ↔ code < 32 ∨ 126 < code := by
  rw [← Bool.not_eq_true, glyphValid_iff]
  omega

theorem putChar_invalid {c : Nat} (s : State) (h : c < 32 ∨ 126 < c) : putChar c s = (.invalidGlyph, s) :=
  if_pos ((glyphValid_eq_false_iff c).2 h)

theorem putChar_full {c : Nat} {s : State} (hlo : 32 ≤ c) (hhi : c ≤ 126) (hfull : 504 < s.cursor.toNat + 6) :
    putChar c s = (.bufferFull, s) := by
  rw [putChar, (glyphValid_iff c).2 ⟨hlo, hhi⟩, if_neg nofun, if_pos hfull]

theorem putChar_room {c : Nat} {s : State} (hlo : 32 ≤ c) (hhi : c ≤ 126) (hroom : s.cursor.toNat + 6 ≤ 504) :
    putChar c s = (.ok, putColumns (cellColumns s c) s) := by
  rw [putChar, (glyphValid_iff c).2 ⟨hlo, hhi⟩, if_neg nofun, if_neg (by omega)]

/-- R160: a code with a glyph has its five columns in the table, so `glyphByte`'s default is not what it reads. -/
theorem glyph_getElem?_eq_glyphByte {c k : Nat} (s : State) (hlo : 32 ≤ c) (hhi : c ≤ 126) (hk : k < 5) :
    s.glyph[(c - 32) * 5 + k]? = some (glyphByte s c k) := by
  have hindex : (c - 32) * 5 + k < 475 := by omega
  simp [glyphByte, glyphIndex, hindex]

/-- R161: the six columns at the cursor after a character that fits. -/
theorem putCell_fb_getElem? (code : Nat) {s : State} {k : Nat} (hroom : s.cursor.toNat + 6 ≤ 504) (hk : k < 6) :
    (putColumns (cellColumns s code) s).fb[s.cursor.toNat + k]? =
      some (if k < 5 then glyphByte s code k else 0x00) := by
  have hj : s.cursor.toNat + k < 504 := by omega
  obtain ⟨-, hpixel⟩ := putCell_spec code s (by omega)
  rw [Vector.getElem?_eq_getElem hj, hpixel _ hj, if_pos (by omega), Nat.add_sub_cancel_left]

/-- R161: every other pixel byte is as it was. -/
theorem putCell_fb_other (code : Nat) {s : State} {j : Nat} (hroom : s.cursor.toNat + 6 ≤ 504) (hj : j < 504)
    (hout : j < s.cursor.toNat ∨ s.cursor.toNat + 6 ≤ j) :
    (putColumns (cellColumns s code) s).fb[j] = s.fb[j] := by
  obtain ⟨-, hpixel⟩ := putCell_spec code s (by omega)
  rw [hpixel j hj, if_neg (by omega)]

/-- Settles O27: the two checks of `CHAR`, and the net effect of the six cursor writes. -/
theorem charWritesACellOrNothing : Obligations.CharWritesACellOrNothing := by
  refine fun s c => ⟨putChar_invalid s, putChar_full, fun hlo hhi hroom => ?_⟩
  have hend : s.cursor.toNat + 6 < 65536 := by omega
  obtain ⟨hstate, -⟩ := putCell_spec c s (by omega)
  refine ⟨_, putChar_room hlo hhi hroom, fun k hk => ?_, putCell_fb_getElem? c hroom (by omega),
    fun j hj => putCell_fb_other c hroom hj, ?_, ?_, ?_⟩
  · rw [putCell_fb_getElem? c hroom (by omega), if_pos hk, glyph_getElem?_eq_glyphByte s hlo hhi hk]
  · rw [hstate]
    exact reg_toNat hend
  · rw [hstate]
    exact reg_toNat (Nat.max_lt.2 ⟨s.dend.isLt, hend⟩)
  · generalize putColumns (cellColumns s c) s = t at hstate ⊢
    rw [hstate]
    rfl

/-- R162: WRCHAR is one `CHAR` and its report. -/
theorem exec_wrchar_of_putChar {c : Nat} {s t : State} {code : ResultCode} (h : putChar c s = (code, t)) :
    exec (.wrchar c) s = .next (finish code t) := by
  rw [exec, execWrchar, h]

/-- Settles O28: each end of `CHAR`, reported. -/
theorem wrcharWritesACellOrReports : Obligations.WrcharWritesACellOrReports := by
  intro s c
  obtain ⟨hinvalid, hfull, hcell⟩ := charWritesACellOrNothing s c
  refine ⟨fun h => exec_wrchar_of_putChar (hinvalid h),
    fun hlo hhi hc => exec_wrchar_of_putChar (hfull hlo hhi (by omega)), fun hlo hhi hc => ?_⟩
  obtain ⟨t, hput, hglyph, hzero, hother, hcursor, hdend, ht⟩ := hcell hlo hhi (by omega)
  refine ⟨_, exec_wrchar_of_putChar hput, hglyph, hzero, hother, hcursor, hdend, ?_⟩
  rw [finish, ht]

/-! Strings. -/

/-- R163: on a valid range WRSTR is its loop on the bytes of the string, and the report. -/
theorem exec_wrstr_valid {s : State} {addr len : Nat} (h : validRange s addr len = true) :
    exec (.wrstr addr len) s =
      .next (finish (putList (hostBytes s addr len) s).1 (putList (hostBytes s addr len) s).2) := by
  rw [exec, execWrstr, if_pos h, putString_wrstr]

theorem stringWritten_le (bs : List Byte) (cursor : Nat) : stringWritten bs cursor ≤ (504 - cursor) / 6 :=
  Nat.min_le_right _ _

/-- Settles O29: what the loop does with the bytes it reads (`putList_spec`), its registers read as numbers. -/
theorem wrstrWritesUpToTheFirstFailure : Obligations.WrstrWritesUpToTheFirstFailure := by
  intro s addr len hvalid
  obtain ⟨hresult, hstate, hpixel⟩ := putList_spec (hostBytes s addr len) s
  have hfits := stringWritten_le (hostBytes s addr len) s.cursor.toNat
  have hcursor_lt := s.cursor.isLt
  have hend : s.cursor.toNat + 6 * stringWritten (hostBytes s addr len) s.cursor.toNat < 65536 := by omega
  refine ⟨_, _, exec_wrstr_valid hvalid, rfl, hresult, hpixel, ?_, fun hnone => ?_, fun hsome => ?_, ?_⟩
  · rw [finish_cursor, hstate]
    exact reg_toNat hend
  · rw [finish_dend, finish_dkind, hstate]
    exact ⟨if_pos hnone, if_pos hnone⟩
  · rw [finish_dend, finish_dkind, hstate]
    simp only [if_neg (Nat.ne_of_gt hsome)]
    exact ⟨reg_toNat (Nat.max_lt.2 ⟨s.dend.isLt, hend⟩), rfl⟩
  · rw [finish, hstate]

/-- Where every character has a glyph, none stops the string. -/
theorem stringGood_eq_length {bs : List Byte} (h : ∀ b ∈ stringBody bs, 32 ≤ b.toNat ∧ b.toNat ≤ 126) :
    stringGood bs = (stringBody bs).length := by
  rw [stringGood, List.takeWhile_eq_self_iff.2 fun b hb => (glyphValid_iff b.toNat).2 (h b hb)]

/-- Settles O30: the goto leaves the string's bytes and the range's validity as they were, and 84 cells fit from the
origin. -/
theorem stringAtTheOrigin : Obligations.StringAtTheOrigin := by
  intro s addr len L _ hvalid hlen hcodes
  have hgood := (stringGood_eq_length hcodes).trans hlen
  obtain ⟨hmoves, -⟩ := gotochunkMovesOrReports s 0 0
  obtain ⟨t, hgoto, hcursor, hdstart, hdend, ht⟩ := hmoves (Nat.zero_le _) (Nat.zero_le _)
  simp only [Nat.mul_zero, Nat.add_zero, Nat.min_zero, Nat.max_zero] at hcursor hdstart hdend
  have hbytes : hostBytes t addr len = hostBytes s addr len :=
    hostBytes_congr (by rw [ht]) (by rw [ht]) (by rw [ht]) addr len
  have hvalid' : validRange t addr len = true := by rw [ht]; exact hvalid
  obtain ⟨u, n, hwrstr, hn, hresult, -, hcursor', hnone, hsome, hu⟩ :=
    wrstrWritesUpToTheFirstFailure t addr len hvalid'
  rw [hbytes, hcursor] at hn hresult
  rw [hcursor, Nat.zero_add] at hcursor' hsome
  have hwritten : n = min L 84 := by rw [hn, stringWritten, hgood]
  rw [stringResult, ← hn, hgood, hlen, hwritten, if_neg (Nat.lt_irrefl L)] at hresult
  have hdend' : u.dend.toNat = max s.dend.toNat (6 * n) := by
    rcases Nat.eq_zero_or_pos n with hzero | hpos
    · rw [(hnone hzero).1, hdend, hzero, Nat.mul_zero, Nat.max_zero]
    · rw [(hsome hpos).1, hdend]
  have hdstart' : u.dstart = t.dstart := by rw [hu]
  rw [hwritten] at hcursor' hdend'
  refine ⟨t, u, hgoto, hwrstr, hcursor', by rw [hdstart', hdstart], hdend', fun hd hL => ?_,
    fun hL => ?_, fun hL => ?_⟩
  · rw [hdend', Nat.min_eq_left hL, Nat.max_eq_right hd]
  · rw [hresult, Nat.min_eq_left hL, if_neg (Nat.lt_irrefl L)]
  · rw [hresult, Nat.min_eq_right hL.le, if_pos hL]

/-! The goto by cells. -/

/-- Settles O31: GOTOCHAR is GOTOCHUNK at the cell's first column, which is on the canvas exactly for `x ≤ 13`. -/
theorem gotocharMovesByCells : Obligations.GotocharMovesByCells := by
  intro s x y
  have heq : exec (.gotochar x y) s = exec (.gotochunk (6 * x) y) s := execGotochar_eq x y s
  obtain ⟨hmoves, hreports⟩ := gotochunkMovesOrReports s (6 * x) y
  refine ⟨fun hx hy => ?_, fun hout => ?_, heq⟩
  · rw [heq]
    exact hmoves (by omega) hy
  · rw [heq]
    exact hreports (by omega)

end Sys2Proof.Machine
